-- ==== Sys2Proof/Word.lean ====
section
/-! DEFINITION. The bit-vector types of the block. -/

namespace Sys2Proof

/-- One byte lane of the bus (R72) and one byte of HASH (R40). -/
abbrev Byte := BitVec 8

/-- One bus word and one command word (R9 `BUS_W`, R100). -/
abbrev Word := BitVec 32

/-- The pattern held by an operand or curve register, `W` = 576 bits (R9, R31). -/
abbrev Wide := BitVec 576

end Sys2Proof
end

