-- ==== Sys2Proof/Syntax.lean ====
section
/-! DEFINITION. The command word's fields (R101) and the twelve commands (R110). -/

namespace Sys2Proof

/-- The number of an operand register R0 to R15 (R31). -/
abbrev Reg := Fin 16

/-- The number `k` of a point register p0 to p7 (R32): the pair R(2k), R(2k+1) and the tag bit PTAG[k]. -/
abbrev PReg := Fin 8

/-- The register that holds the affine `x` of a point register (R32). -/
def PReg.xReg (k : PReg) : Reg := ⟨2 * k.val, by omega⟩

/-- The register that holds the affine `y` of a point register (R32). -/
def PReg.yReg (k : PReg) : Reg := ⟨2 * k.val + 1, by omega⟩

/-- The fields of a command word (R101). -/
@[ext]
structure Fields where
  opc : BitVec 8
  d   : BitVec 4
  a   : BitVec 4
  b   : BitVec 4
  c   : BitVec 4
  rsv : BitVec 8
  deriving DecidableEq, Repr

/-- One constructor per row of R110, operands in field order D, A, B, C as R125 writes them. -/
inductive Instr where
  /-- `nop` (R139). -/
  | nop
  /-- `modred rd, rx, rm` (R154). -/
  | modred (d x m : Reg)
  /-- `modinv rd, ra, rm` (R161). -/
  | modinv (d a m : Reg)
  /-- `modexp rd, rx, ry, rm` (R166). -/
  | modexp (d x y m : Reg)
  /-- `modsqrt rd, rn, rp` (R171). -/
  | modsqrt (d n p : Reg)
  /-- `montmul rd, ra, rb, rm` (R176). -/
  | montmul (d a b m : Reg)
  /-- `modmul rd, ra, rb, rm` (R177). -/
  | modmul (d a b m : Reg)
  /-- `padd pd, ps, pt` (R209). -/
  | padd (d s t : PReg)
  /-- `pdbl pd, ps` (R210). -/
  | pdbl (d s : PReg)
  /-- `pmul pd, rk, ps` (R211). -/
  | pmul (d : PReg) (k : Reg) (s : PReg)
  /-- `oncurve ps` (R213). -/
  | oncurve (s : PReg)
  /-- `ecdsav pq, rr, rs` (R263). -/
  | ecdsav (q : PReg) (r s : Reg)
  deriving DecidableEq, Repr

end Sys2Proof
end

