-- ==== Sys2Proof/WellFormed.lean ====
section
/-! DEFINITION. When the fields of a command word name a legal command: the four checks of R120.
An `Instr` needs no check of its own: its operands are register numbers below 16 and point numbers below 8 by
their types. -/

namespace Sys2Proof

/-- The three forms a field can have for a given OPC (R102). -/
inductive Form where
  /-- `r`: a register number. -/
  | reg
  /-- `p`: an even number 2k that names point register k. -/
  | point
  /-- `-`: unused, must be 0. -/
  | unused
  deriving DecidableEq, Repr

/-- The forms of D, A, B, C for one OPC. -/
structure Forms where
  d : Form
  a : Form
  b : Form
  c : Form
  deriving DecidableEq, Repr

/-- The form columns of R110; `none` for the 244 unassigned OPC values. -/
def formsOf (opc : BitVec 8) : Option Forms :=
  match opc.toNat with
  | 0x00 => some ⟨.unused, .unused, .unused, .unused⟩
  | 0x01 => some ⟨.reg, .reg, .reg, .unused⟩
  | 0x02 => some ⟨.reg, .reg, .reg, .unused⟩
  | 0x03 => some ⟨.reg, .reg, .reg, .reg⟩
  | 0x04 => some ⟨.reg, .reg, .reg, .unused⟩
  | 0x05 => some ⟨.reg, .reg, .reg, .reg⟩
  | 0x06 => some ⟨.reg, .reg, .reg, .reg⟩
  | 0x10 => some ⟨.point, .point, .point, .unused⟩
  | 0x11 => some ⟨.point, .point, .unused, .unused⟩
  | 0x12 => some ⟨.point, .reg, .point, .unused⟩
  | 0x13 => some ⟨.unused, .point, .unused, .unused⟩
  | 0x20 => some ⟨.unused, .point, .reg, .reg⟩
  | _ => none

/-- R120 item 1 (negated): OPC is one of the twelve values. -/
def Fields.opcAssigned (f : Fields) : Bool := (formsOf f.opc).isSome

/-- R120 item 2 (negated): bits 31:24 are 0. -/
def Fields.rsvZero (f : Fields) : Bool := f.rsv == 0#8

/-- R120 item 3 (negated), for one field. -/
def Form.unusedZero (m : Form) (v : BitVec 4) : Bool := m != .unused || v == 0#4

/-- R120 item 4 (negated), for one field. -/
def Form.pointEven (m : Form) (v : BitVec 4) : Bool := m != .point || !v.getLsbD 0

/-- R120 item 3 (negated): every unused field is 0. -/
def Fields.unusedFieldsZero (f : Fields) : Bool :=
  match formsOf f.opc with
  | none => true
  | some m => m.d.unusedZero f.d && m.a.unusedZero f.a && m.b.unusedZero f.b && m.c.unusedZero f.c

/-- R120 item 4 (negated): every point field is even. -/
def Fields.pointFieldsEven (f : Fields) : Bool :=
  match formsOf f.opc with
  | none => true
  | some m => m.d.pointEven f.d && m.a.pointEven f.a && m.b.pointEven f.b && m.c.pointEven f.c

/-- The fields name a legal command: none of the four items of R120 holds. -/
def Fields.wellFormed (f : Fields) : Bool :=
  f.opcAssigned && f.rsvZero && f.unusedFieldsZero && f.pointFieldsEven

end Sys2Proof
end

