-- ==== Sys2Proof/Decode.lean ====
section
/-! DEFINITION. The decoder of command words (R100 to R122), the encoder written from the same rules, the mask and
match table of R111, and the assembler's notation (R125, R126). -/

namespace Sys2Proof

/-! ## Fields and operands -/

/-- Cut a command word into its fields (R101). -/
def Fields.ofWord (w : Word) : Fields where
  opc := w.extractLsb' 0 8
  d   := w.extractLsb' 8 4
  a   := w.extractLsb' 12 4
  b   := w.extractLsb' 16 4
  c   := w.extractLsb' 20 4
  rsv := w.extractLsb' 24 8

/-- Join fields into a command word, `{RSV, C, B, A, D, OPC}` (R101). -/
def Fields.toWord (f : Fields) : Word := f.rsv ++ f.c ++ f.b ++ f.a ++ f.d ++ f.opc

/-- An `r` field (R102): the register it numbers. -/
def regOfField (f : BitVec 4) : Reg := f.toFin

/-- A `p` field (R102, R104): the point register `f/2`, refused when `f` is odd. -/
def pregOfField (f : BitVec 4) : Option PReg :=
  if f.getLsbD 0 then none else some ⟨f.toNat / 2, by omega⟩

/-- A `-` field (R102): refused unless it is 0. -/
def unusedField (f : BitVec 4) : Option Unit := if f = 0#4 then some () else none

/-- The `r` field that numbers a register. -/
def fieldOfReg (r : Reg) : BitVec 4 := BitVec.ofFin r

/-- The `p` field `2k` that names point register `k` (R104). -/
def fieldOfPReg (k : PReg) : BitVec 4 := BitVec.ofFin k.xReg

/-! ## Decoding -/

/-- Decode the fields of a command word by the table of R110; `none` is ILLEGAL_CMD (R120). -/
def decodeFields (f : Fields) : Option Instr :=
  if f.rsv ≠ 0#8 then none else
  match f.opc.toNat with
  | 0x00 => do
    unusedField f.d; unusedField f.a; unusedField f.b; unusedField f.c
    return .nop
  | 0x01 => do
    unusedField f.c
    return .modred (regOfField f.d) (regOfField f.a) (regOfField f.b)
  | 0x02 => do
    unusedField f.c
    return .modinv (regOfField f.d) (regOfField f.a) (regOfField f.b)
  | 0x03 => return .modexp (regOfField f.d) (regOfField f.a) (regOfField f.b) (regOfField f.c)
  | 0x04 => do
    unusedField f.c
    return .modsqrt (regOfField f.d) (regOfField f.a) (regOfField f.b)
  | 0x05 => return .montmul (regOfField f.d) (regOfField f.a) (regOfField f.b) (regOfField f.c)
  | 0x06 => return .modmul (regOfField f.d) (regOfField f.a) (regOfField f.b) (regOfField f.c)
  | 0x10 => do
    unusedField f.c
    return .padd (← pregOfField f.d) (← pregOfField f.a) (← pregOfField f.b)
  | 0x11 => do
    unusedField f.b; unusedField f.c
    return .pdbl (← pregOfField f.d) (← pregOfField f.a)
  | 0x12 => do
    unusedField f.c
    return .pmul (← pregOfField f.d) (regOfField f.a) (← pregOfField f.b)
  | 0x13 => do
    unusedField f.d; unusedField f.b; unusedField f.c
    return .oncurve (← pregOfField f.a)
  | 0x20 => do
    unusedField f.d
    return .ecdsav (← pregOfField f.a) (regOfField f.b) (regOfField f.c)
  | _ => none

/-- Decode a command word (R134): `none` when no row of R111 matches. -/
def decode (w : Word) : Option Instr := decodeFields (Fields.ofWord w)

/-! ## Encoding -/

/-- The OPC byte of a command (R110). -/
def opcodeOf : Instr → BitVec 8
  | .nop => 0x00#8
  | .modred _ _ _ => 0x01#8
  | .modinv _ _ _ => 0x02#8
  | .modexp _ _ _ _ => 0x03#8
  | .modsqrt _ _ _ => 0x04#8
  | .montmul _ _ _ _ => 0x05#8
  | .modmul _ _ _ _ => 0x06#8
  | .padd _ _ _ => 0x10#8
  | .pdbl _ _ => 0x11#8
  | .pmul _ _ _ => 0x12#8
  | .oncurve _ => 0x13#8
  | .ecdsav _ _ _ => 0x20#8

/-- The fields of a command's word: the "fields" column of R125, unused fields and RSV zero. -/
def encodeFields : Instr → Fields
  | .nop => ⟨0x00#8, 0, 0, 0, 0, 0⟩
  | .modred d x m => ⟨0x01#8, fieldOfReg d, fieldOfReg x, fieldOfReg m, 0, 0⟩
  | .modinv d a m => ⟨0x02#8, fieldOfReg d, fieldOfReg a, fieldOfReg m, 0, 0⟩
  | .modexp d x y m => ⟨0x03#8, fieldOfReg d, fieldOfReg x, fieldOfReg y, fieldOfReg m, 0⟩
  | .modsqrt d n p => ⟨0x04#8, fieldOfReg d, fieldOfReg n, fieldOfReg p, 0, 0⟩
  | .montmul d a b m => ⟨0x05#8, fieldOfReg d, fieldOfReg a, fieldOfReg b, fieldOfReg m, 0⟩
  | .modmul d a b m => ⟨0x06#8, fieldOfReg d, fieldOfReg a, fieldOfReg b, fieldOfReg m, 0⟩
  | .padd d s t => ⟨0x10#8, fieldOfPReg d, fieldOfPReg s, fieldOfPReg t, 0, 0⟩
  | .pdbl d s => ⟨0x11#8, fieldOfPReg d, fieldOfPReg s, 0, 0, 0⟩
  | .pmul d k s => ⟨0x12#8, fieldOfPReg d, fieldOfReg k, fieldOfPReg s, 0, 0⟩
  | .oncurve s => ⟨0x13#8, 0, fieldOfPReg s, 0, 0, 0⟩
  | .ecdsav q r s => ⟨0x20#8, 0, fieldOfPReg q, fieldOfReg r, fieldOfReg s, 0⟩

/-- The command word of a command (R100, R101). -/
def encode (i : Instr) : Word := (encodeFields i).toWord

/-! ## The mask and match table -/

/-- One row of the table of R111. -/
structure Row where
  mnemonic : String
  mask     : Word
  value    : Word
  deriving DecidableEq, Repr

/-- The twelve rows of R111. -/
def opcodeTable : List Row :=
  [⟨"NOP",     0xFFFFFFFF#32, 0x00000000#32⟩,
   ⟨"MODRED",  0xFFF000FF#32, 0x00000001#32⟩,
   ⟨"MODINV",  0xFFF000FF#32, 0x00000002#32⟩,
   ⟨"MODEXP",  0xFF0000FF#32, 0x00000003#32⟩,
   ⟨"MODSQRT", 0xFFF000FF#32, 0x00000004#32⟩,
   ⟨"MONTMUL", 0xFF0000FF#32, 0x00000005#32⟩,
   ⟨"MODMUL",  0xFF0000FF#32, 0x00000006#32⟩,
   ⟨"PADD",    0xFFF111FF#32, 0x00000010#32⟩,
   ⟨"PDBL",    0xFFFF11FF#32, 0x00000011#32⟩,
   ⟨"PMUL",    0xFFF101FF#32, 0x00000012#32⟩,
   ⟨"ONCURVE", 0xFFFF1FFF#32, 0x00000013#32⟩,
   ⟨"ECDSAV",  0xFF001FFF#32, 0x00000020#32⟩]

/-- A word matches a row when `(v AND mask) = match` (R111). -/
def Row.accepts (r : Row) (w : Word) : Bool := w &&& r.mask == r.value

/-- The mnemonic of a command, as R110 spells it. -/
def Instr.mnemonic : Instr → String
  | .nop => "NOP"
  | .modred _ _ _ => "MODRED"
  | .modinv _ _ _ => "MODINV"
  | .modexp _ _ _ _ => "MODEXP"
  | .modsqrt _ _ _ => "MODSQRT"
  | .montmul _ _ _ _ => "MONTMUL"
  | .modmul _ _ _ _ => "MODMUL"
  | .padd _ _ _ => "PADD"
  | .pdbl _ _ => "PDBL"
  | .pmul _ _ _ => "PMUL"
  | .oncurve _ => "ONCURVE"
  | .ecdsav _ _ _ => "ECDSAV"

/-! ## Words as the opcode table numbers their bits -/

/-- The command word whose low `nbits` bits are those of `w` and whose other bits are 0. A command is one 32-bit
word (R100), so the table's numbering is the word's own. -/
def tableWord (nbits w : Nat) : Word := BitVec.ofNat 32 (w % 2 ^ nbits)

/-- The command this decoder reads from an opcode-table word. -/
def decodeTableWord (nbits w : Nat) : Option Instr := decode (tableWord nbits w)

/-! ## Assembler notation -/

/-- The pseudo-instruction `modsqr rd, ra, rm` (R126). -/
def modsqr (d a m : Reg) : Instr := .modmul d a a m

/-- The pseudo-instruction `montsqr rd, ra, rm` (R126). -/
def montsqr (d a m : Reg) : Instr := .montmul d a a m

/-- The pseudo-instruction `clrerr` (R126). -/
def clrerr : Instr := .nop

/-- The pseudo-instruction `pdbl2 pd, ps` (R126). -/
def pdbl2 (d s : PReg) : Instr := .padd d s s

/-- The assembler name of a register, `r0` to `r15` (R32, R125). -/
def regName (r : Reg) : String := "r" ++ toString r.val

/-- The assembler name of a point register, `p0` to `p7` (R32, R125). -/
def pregName (k : PReg) : String := "p" ++ toString k.val

/-- A command in the assembler syntax of R125. -/
def asm : Instr → String
  | .nop => "nop"
  | .modred d x m => "modred " ++ ", ".intercalate [regName d, regName x, regName m]
  | .modinv d a m => "modinv " ++ ", ".intercalate [regName d, regName a, regName m]
  | .modexp d x y m => "modexp " ++ ", ".intercalate [regName d, regName x, regName y, regName m]
  | .modsqrt d n p => "modsqrt " ++ ", ".intercalate [regName d, regName n, regName p]
  | .montmul d a b m => "montmul " ++ ", ".intercalate [regName d, regName a, regName b, regName m]
  | .modmul d a b m => "modmul " ++ ", ".intercalate [regName d, regName a, regName b, regName m]
  | .padd d s t => "padd " ++ ", ".intercalate [pregName d, pregName s, pregName t]
  | .pdbl d s => "pdbl " ++ ", ".intercalate [pregName d, pregName s]
  | .pmul d k s => "pmul " ++ ", ".intercalate [pregName d, regName k, pregName s]
  | .oncurve s => "oncurve " ++ pregName s
  | .ecdsav q r s => "ecdsav " ++ ", ".intercalate [pregName q, regName r, regName s]

end Sys2Proof
end

