-- ==== Sys2Proof/Config.lean ====
section
/-! DEFINITION. The fixed parameters of R9, and the one platform parameter a state can show (`BASE`, R11).
The other parameters of R11 have no constant here: the curve is register contents (R38), and `LATENCY` is the
place of the engine's turn in the schedule (notes/assumptions/3.md). -/

namespace Sys2Proof.Config

/-- R9 `SIZE_MAX`: the largest CURVE_SIZE that ECDSAV takes. -/
def sizeMax : Nat := 72

/-- R9 `R_MONT` = 2^576, the Montgomery radix of MONTMUL. -/
def rMont : Int := 2 ^ 576

/-- R9 `WINDOW`: the size of the register window in bytes. -/
def window : Nat := 4096

/-- R41: the constant the ID register reads as, before and after reset. -/
def idValue : Word := 0x45434456#32

/-- The platform's choice of `BASE` (R11, R71), counted in windows of 4096 bytes so that `BASE` is
4096-aligned whatever the value. It has no body: no proof can see it. -/
opaque baseFrame : Nat

/-- R71: the host bus address of offset 0 of the window. -/
def base : Nat := window * baseFrame

end Sys2Proof.Config
end

