-- ==== Sys2Proof/Machine/State.lean ====
section
/-! DEFINITION. The state of the block (R30), the model's own record of the host's side of the bus, and reset (R51). -/

namespace Sys2Proof.Machine

/-- The W-bit curve-parameter registers (R37). CURVE_SIZE has 8 bits and stands in `State`. -/
@[ext]
structure CurveRegs where
  p  : Wide
  a  : Wide
  b  : Wide
  gx : Wide
  gy : Wide
  n  : Wide
  h  : Wide
  deriving DecidableEq, Repr

/-- The hidden engine state of R48: `phase`, with `pending`, which is meaningful only while BUSY. -/
inductive Engine where
  /-- `phase = IDLE`, `pending = none`. -/
  | idle
  /-- `phase = BUSY` with the accepted command word. -/
  | busy (pending : Word)
  deriving DecidableEq, Repr

/-- The width of a host access. Only `w32` is legal (R76). -/
inductive Width where
  | w8
  | w16
  | w32
  | w64
  deriving DecidableEq, Repr

/-- One access the HOST performs at a host bus address (R17, R71). -/
inductive Access where
  | read (addr : Nat) (width : Width)
  | write (addr : Nat) (width : Width) (data : Word)
  deriving DecidableEq, Repr

/-- Which step of R140 is taken next: the environment's choice, as plain data. -/
inductive Turn where
  /-- The HOST performs one access. -/
  | host (access : Access)
  /-- The ENGINE commits, if it is BUSY. -/
  | engine
  /-- The RESET event (R320). -/
  | reset
  deriving DecidableEq, Repr

/-- What the block answers to an access inside its window (R76, R299). -/
inductive Response where
  /-- A legal read and the word it returns. -/
  | readOk (data : Word)
  /-- The bus error of an illegal read, and the data that goes with it. -/
  | readError (data : Word)
  /-- The ordinary response to a legal write. -/
  | writeOk
  /-- The bus error of an illegal write. -/
  | writeError
  deriving DecidableEq, Repr

/-- The state of the block: every item of R30 but `ID`, which is a constant (`Config.idValue`, R41), and then the two
fields of the model's own that stand for the host's side (notes/assumptions/1.md and 2.md). -/
@[ext]
structure State where
  /-- R0 to R15 (R31). -/
  regs      : Vector Wide 16
  /-- PTAG: bit k set means point register k holds the identity (R34). -/
  ptag      : BitVec 8
  /-- CURVE_P to CURVE_H (R37). -/
  curve     : CurveRegs
  /-- CURVE_SIZE (R37). -/
  curveSize : BitVec 8
  /-- HASH[0..71] (R40). -/
  hash      : Vector Byte 72
  /-- HASH_LEN (R40). -/
  hashLen   : Word
  /-- CMD: the last accepted command word (R42). -/
  cmd       : Word
  /-- STATUS.RESULT (R44). -/
  result    : Bool
  /-- STATUS.WIGN (R46). -/
  wign      : Bool
  /-- ERRCODE bits 7:0 (R45). -/
  errcode   : BitVec 8
  /-- INTR_STATE.DONE (R47). -/
  done      : Bool
  /-- INTR_ENABLE.DONE_EN (R47). -/
  doneEn    : Bool
  /-- `phase` and `pending` (R48). STATUS.BUSY reads from it. -/
  engine    : Engine
  /-- MODEL FIELD: the turns the environment has chosen, the next one first. -/
  schedule  : List Turn
  /-- MODEL FIELD: the block's answer to the last host access; `none` before the first one, after one outside the window
  and after reset. -/
  response  : Option Response
  deriving DecidableEq, Repr

/-- No behaviour of this block stops it: an illegal command and a failed one commit an error code (R137, R284), an illegal
access gets a bus error response (R76), and there is no lockup (R287). So no meaning and no step raises a fault, and
the type has no constructor (safe: nothing is cut short). -/
inductive Fault where
  deriving DecidableEq, Repr

/-- Why a step has no meaning. -/
inductive Refusal where
  /-- Reserved for an arm of `exec` whose instruction has no meaning yet; no arm is one. Safe: it stops the run. -/
  | notModelled (mnemonic : String)
  deriving DecidableEq, Repr

/-- The state after reset (R51): every register of the block 0, the engine idle. ID is constant. The model's own fields are
empty (DESIGN CHOICE, notes/assumptions/1.md and 2.md). -/
def State.reset : State where
  regs      := Vector.replicate 16 0
  ptag      := 0
  curve     := ⟨0, 0, 0, 0, 0, 0, 0⟩
  curveSize := 0
  hash      := Vector.replicate 72 0
  hashLen   := 0
  cmd       := 0
  result    := false
  wign      := false
  errcode   := 0
  done      := false
  doneEn    := false
  engine    := .idle
  schedule  := []
  response  := none

end Sys2Proof.Machine
end

