-- ==== Sys2Proof/Machine/Flags.lean ====
section
/-! DEFINITION. The values the control and status registers read as (R41 to R47) and the interrupt output (R290). -/

namespace Sys2Proof.Machine

/-- A flag as bit 0 of a word. -/
def boolWord (b : Bool) : Word := (BitVec.ofBool b).zeroExtend 32

/-- STATUS.BUSY: `phase = BUSY` (R43, R48). -/
def State.busy (s : State) : Bool :=
  match s.engine with
  | .idle => false
  | .busy _ => true

/-- STATUS.ERR: `ERRCODE != 0`, with no storage of its own (R43). -/
def State.err (s : State) : Bool := s.errcode != 0

/-- STATUS as read (R43): BUSY, RESULT, ERR and WIGN in bits 0 to 3, the rest 0. -/
def State.statusWord (s : State) : Word :=
  (BitVec.ofBool s.wign ++ BitVec.ofBool s.err ++ BitVec.ofBool s.result ++ BitVec.ofBool s.busy).zeroExtend 32

/-- R290: the interrupt output, a level. -/
def State.irq (s : State) : Bool := s.done && s.doneEn

end Sys2Proof.Machine
end

