-- ==== Sys2Proof/Machine/Operands.lean ====
section
/-! DEFINITION. How a command reads its operands: signed register values (R14), points (R15), the loaded curve (R37,
R200) and the hash integer (R256). -/

namespace Sys2Proof.Machine

/-- R14 `sval`: the signed value of a 576-bit pattern. -/
@[irreducible]
def sval (b : Wide) : Int := b.toInt

/-- R14 `pat`: the 576-bit pattern of an integer. -/
@[irreducible]
def pat (v : Int) : Wide := BitVec.ofInt 576 v

/-- R14 `x[i]`: the signed value of operand register `Ri`; the `r` operand form of R102. -/
def State.x (s : State) (i : Reg) : Int := sval s.regs[i]

/-- R15: a point is the identity or an affine pair. -/
inductive Point where
  | identity
  | affine (x y : Int)
  deriving DecidableEq, Repr

/-- R15 `pt[2k]`: the point in point register `k`; the `p` operand form of R102. When the tag is set the two registers are
not read (R35). -/
def State.pt (s : State) (k : PReg) : Point :=
  if s.ptag.getLsbD k then .identity else .affine (s.x k.xReg) (s.x k.yReg)

/-- The curve a command works on, as signed integers (R37, R200). -/
structure Curve where
  p  : Int
  a  : Int
  b  : Int
  gx : Int
  gy : Int
  n  : Int
  h  : Int
  deriving DecidableEq, Repr

/-- The values of the curve registers (R200). -/
def CurveRegs.values (c : CurveRegs) : Curve :=
  ⟨sval c.p, sval c.a, sval c.b, sval c.gx, sval c.gy, sval c.n, sval c.h⟩

/-- R16 `bigE`: the big-endian integer of a byte string. -/
def bigE (bytes : List Byte) : Int :=
  bytes.foldl (fun acc b => acc * 256 + (b.toNat : Int)) 0

/-- R256: the hash integer `e` of the first `min(HASH_LEN, CURVE_SIZE)` bytes of HASH. -/
def State.hashInt (s : State) : Int :=
  bigE (s.hash.toList.take (min s.hashLen.toNat s.curveSize.toNat))

end Sys2Proof.Machine
end

