-- ==== Sys2Proof/Machine/Ops.lean ====
section
/-! DEFINITION. The shared operations that change the state: register and point writes (R14, R15), acceptance (R131),
the two commits (R136, R137) and reset (R320). The block has no exceptions; `commitErr` is the spec's counterpart of
taking one (R287) and nothing returns from it (R288). -/

namespace Sys2Proof.Machine

/-! ## Register writes -/

/-- `x[d] <- v` (R14). -/
def State.setReg (s : State) (d : Reg) (v : Int) : State :=
  { s with regs := s.regs.set d (pat v) }

/-- PTAG with bit `k` set to `b`. -/
def tagWith (tags : BitVec 8) (k : PReg) (b : Bool) : BitVec 8 :=
  if b then tags ||| BitVec.twoPow 8 k else tags &&& ~~~(BitVec.twoPow 8 k)

/-- `pt[2k] <- P` (R15): the identity zeroes both registers and sets the tag, an affine point clears the tag. -/
def State.setPoint (s : State) (k : PReg) : Point → State
  | .identity =>
    { s with regs := (s.regs.set k.xReg 0).set k.yReg 0, ptag := tagWith s.ptag k true }
  | .affine x y =>
    { s with regs := (s.regs.set k.xReg (pat x)).set k.yReg (pat y), ptag := tagWith s.ptag k false }

/-! ## Command outcomes -/

/-- The error codes a command can end with (R280). -/
inductive ErrCode where
  | illegalCmd
  | badModulus
  | noInverse
  | notResidue
  | negOperand
  | badCurve
  | sigRange
  deriving DecidableEq, Repr

/-- The number ERRCODE holds for each code (R280). -/
def ErrCode.code : ErrCode → BitVec 8
  | .illegalCmd => 1
  | .badModulus => 2
  | .noInverse => 3
  | .notResidue => 4
  | .negOperand => 5
  | .badCurve => 6
  | .sigRange => 7

/-- What a successful command writes beside RESULT: one register or one point register (R136). -/
inductive Update where
  | reg (d : Reg) (v : Int)
  | point (k : PReg) (P : Point)
  deriving DecidableEq, Repr

/-- The outcome of a command (R132): `Ok(writes, res)` or `Err(code)`. -/
inductive Result where
  | ok (writes : Option Update) (res : Option Bool)
  | err (code : ErrCode)
  deriving DecidableEq, Repr

/-- Apply the `writes` of an outcome (R136). -/
def State.applyUpdate (s : State) : Option Update → State
  | none => s
  | some (.reg d v) => s.setReg d v
  | some (.point k P) => s.setPoint k P

/-- `if res is present: RESULT <- res` (R136). -/
def State.setResult (s : State) : Option Bool → State
  | none => s
  | some b => { s with result := b }

/-- The end of both commits: ERRCODE, `phase <- IDLE`, `pending <- none` and `DONE <- 1` (R136, R137). -/
def State.retire (s : State) (code : BitVec 8) : State :=
  { s with errcode := code, engine := .idle, done := true }

/-- `commit_ok` (R136). -/
def State.commitOk (s : State) (writes : Option Update) (res : Option Bool) : State :=
  ((s.applyUpdate writes).setResult res).retire 0

/-- `commit_err` (R137): nothing but ERRCODE, the phase and DONE. -/
def State.commitErr (s : State) (code : ErrCode) : State := s.retire code.code

/-- The commit of a command's outcome. -/
def State.commit (s : State) : Result → State
  | .ok writes res => s.commitOk writes res
  | .err code => s.commitErr code

/-! ## Acceptance and reset -/

/-- `accept(v)` (R131). Any word is accepted, legal or not. -/
def State.accept (s : State) (v : Word) : State :=
  { s with cmd := v, engine := .busy v, errcode := 0 }

/-- The RESET event (R320): every piece of the block's state takes its value of R51, and a command in flight is dropped.
The turns the environment has still to take stay. -/
def State.resetEvent (s : State) : State := { State.reset with schedule := s.schedule }

end Sys2Proof.Machine
end

