-- ==== Sys2Proof/Machine/Bus.lean ====
section
/-! DEFINITION. The register window (R70 to R95): what each offset names (R80), reads (R84), writes (R85) and the HOST's
accesses. The window is the block's one address space and a view of its registers; there is no other memory (R70). -/

namespace Sys2Proof.Machine

/-! ## Words of the wide registers and of HASH -/

/-- R73: word `j` of a W-bit register, bits `[32j+31:32j]`. -/
def wideWord (r : Wide) (j : Fin 18) : Word := r.extractLsb' (32 * j.val) 32

/-- R87: a W-bit register with word `j` replaced and the other 544 bits kept. -/
def setWideWord (r : Wide) (j : Fin 18) (v : Word) : Wide :=
  (r &&& ~~~((BitVec.allOnes 32).zeroExtend 576 <<< (32 * j.val))) ||| (v.zeroExtend 576 <<< (32 * j.val))

/-- R72: byte lane `k` of a bus word, bits `[8k+7:8k]`. -/
def lane (v : Word) (k : Nat) : Byte := v.extractLsb' (8 * k) 8

/-- R74: word `j` of the hash buffer, `{HASH[4j+3], HASH[4j+2], HASH[4j+1], HASH[4j]}`. -/
def hashWord (h : Vector Byte 72) (j : Fin 18) : Word :=
  h[4 * j.val + 3] ++ h[4 * j.val + 2] ++ h[4 * j.val + 1] ++ h[4 * j.val]

/-- R85: the hash buffer with the four bytes of word `j` written. -/
def setHashWord (h : Vector Byte 72) (j : Fin 18) (v : Word) : Vector Byte 72 :=
  (((h.set (4 * j.val) (lane v 0)).set (4 * j.val + 1) (lane v 1)).set (4 * j.val + 2) (lane v 2)).set
    (4 * j.val + 3) (lane v 3)

/-! ## The address map -/

/-- The W-bit curve registers in the order of their slots (R80). -/
inductive CurveReg where
  | p
  | a
  | b
  | gx
  | gy
  | n
  | h
  deriving DecidableEq, Repr

/-- The contents of a W-bit curve register. -/
def CurveRegs.get (c : CurveRegs) : CurveReg → Wide
  | .p => c.p
  | .a => c.a
  | .b => c.b
  | .gx => c.gx
  | .gy => c.gy
  | .n => c.n
  | .h => c.h

/-- The curve registers with one of them replaced. -/
def CurveRegs.put (c : CurveRegs) (v : Wide) : CurveReg → CurveRegs
  | .p => { c with p := v }
  | .a => { c with a := v }
  | .b => { c with b := v }
  | .gx => { c with gx := v }
  | .gy => { c with gy := v }
  | .n => { c with n := v }
  | .h => { c with h := v }

/-- What a word of the window is (R80). -/
inductive Loc where
  | id
  | cmd
  | status
  | errcode
  | intrState
  | intrEnable
  | ptag
  | hashLen
  | curveSize
  /-- Word `j` of a W-bit curve register. -/
  | curve (c : CurveReg) (j : Fin 18)
  /-- Word `j` of HASH. -/
  | hash (j : Fin 18)
  /-- Word `j` of an operand register. -/
  | reg (i : Reg) (j : Fin 18)
  | reserved
  deriving DecidableEq, Repr

/-- The control registers at 0x000 to 0x020 (R80), by word number. -/
def controlLoc : Nat → Loc
  | 0 => .id
  | 1 => .cmd
  | 2 => .status
  | 3 => .errcode
  | 4 => .intrState
  | 5 => .intrEnable
  | 6 => .ptag
  | 7 => .hashLen
  | 8 => .curveSize
  | _ => .reserved

/-- The curve register of slot `0x080 + 0x80 * c` (R80). -/
def curveSlot : Nat → CurveReg
  | 0 => .p
  | 1 => .a
  | 2 => .b
  | 3 => .gx
  | 4 => .gy
  | 5 => .n
  | _ => .h

/-- The word at `base + 4j` of an 18-word register, reserved from `j = 18` on (R80). -/
def slotWord (j : Nat) (f : Fin 18 → Loc) : Loc := if h : j < 18 then f ⟨j, h⟩ else .reserved

/-- The map of R80, for a 4-aligned offset below 0x1000. -/
def locate (off : Nat) : Loc :=
  if off < 0x080 then controlLoc (off / 4)
  else if off < 0x400 then slotWord (off % 0x80 / 4) (.curve (curveSlot ((off - 0x080) / 0x80)))
  else if off < 0x800 then slotWord ((off - 0x400) / 4) .hash
  else slotWord (off % 0x80 / 4) (.reg (Fin.ofNat 16 ((off - 0x800) / 0x80)))

/-- R85: the words whose write is gated while BUSY. -/
def Loc.gated : Loc → Bool
  | .cmd | .ptag | .hashLen | .curveSize | .curve _ _ | .hash _ | .reg _ _ => true
  | .id | .status | .errcode | .intrState | .intrEnable | .reserved => false

/-! ## Reads and writes of a word -/

/-- The word a legal read returns (R80, R84): bits a register does not use, and reserved words (R81), read 0. -/
def State.readLoc (s : State) : Loc → Word
  | .id => Config.idValue
  | .cmd => s.cmd
  | .status => s.statusWord
  | .errcode => s.errcode.zeroExtend 32
  | .intrState => boolWord s.done
  | .intrEnable => boolWord s.doneEn
  | .ptag => s.ptag.zeroExtend 32
  | .hashLen => s.hashLen
  | .curveSize => s.curveSize.zeroExtend 32
  | .curve c j => wideWord (s.curve.get c) j
  | .hash j => hashWord s.hash j
  | .reg i j => wideWord s.regs[i] j
  | .reserved => 0

/-- What a write to a gated word does while IDLE (R85): CMD accepts a command, every other word stores its bits. -/
def State.store (s : State) (v : Word) : Loc → State
  | .cmd => s.accept v
  | .ptag => { s with ptag := v.extractLsb' 0 8 }
  | .hashLen => { s with hashLen := v }
  | .curveSize => { s with curveSize := v.extractLsb' 0 8 }
  | .curve c j => { s with curve := s.curve.put (setWideWord (s.curve.get c) j v) c }
  | .hash j => { s with hash := setHashWord s.hash j v }
  | .reg i j => { s with regs := s.regs.set i (setWideWord s.regs[i] j v) }
  | .id | .status | .errcode | .intrState | .intrEnable | .reserved => s

/-- What a legal write does (R85): STATUS bit 3 clears WIGN, INTR_STATE bit 0 clears DONE, INTR_ENABLE bit 0 is DONE_EN,
read-only and reserved words ignore it (R81, R82), and a gated write while BUSY only sets WIGN. -/
def State.writeLoc (s : State) (v : Word) (l : Loc) : State :=
  match l with
  | .id | .errcode | .reserved => s
  | .status => if v.getLsbD 3 then { s with wign := false } else s
  | .intrState => if v.getLsbD 0 then { s with done := false } else s
  | .intrEnable => { s with doneEn := v.getLsbD 0 }
  | .cmd | .ptag | .hashLen | .curveSize | .curve _ _ | .hash _ | .reg _ _ =>
    if s.busy then { s with wign := true } else s.store v l

/-! ## Bus accesses -/

/-- R76: the only legal access is 32 bits wide at a multiple of 4. -/
def legalAccess (off : Nat) (width : Width) : Bool := width == .w32 && off % 4 == 0

/-- R17 `MemRead`: the answer to a read at an offset of the window. No read changes the state (R79). -/
def State.memRead (s : State) (off : Nat) (width : Width) : Response :=
  if legalAccess off width then .readOk (s.readLoc (locate off)) else .readError 0

/-- R17, R85 `MemWrite`: the state after a write at an offset of the window, and the answer. -/
def State.memWrite (s : State) (off : Nat) (width : Width) (v : Word) : State × Response :=
  if legalAccess off width then (s.writeLoc v (locate off), .writeOk) else (s, .writeError)

/-- R71: the offset of a bus address in the window; `none` for an address the block does not answer. -/
def windowOffset (addr : Nat) : Option Nat :=
  if Config.base ≤ addr ∧ addr < Config.base + Config.window then some (addr - Config.base) else none

/-- One access of the HOST (R140). An access outside the window is neither seen nor answered (R71). -/
def State.hostAccess (s : State) : Access → State
  | .read addr width =>
    match windowOffset addr with
    | none => { s with response := none }
    | some off => { s with response := some (s.memRead off width) }
  | .write addr width v =>
    match windowOffset addr with
    | none => { s with response := none }
    | some off => { (s.memWrite off width v).1 with response := some (s.memWrite off width v).2 }

/-- Byte `off` of the window: the lane of the word at the offset below (R72). -/
def State.windowByte (s : State) (off : Nat) : Byte :=
  lane (s.readLoc (locate (off / 4 * 4))) (off % 4)

end Sys2Proof.Machine
end

