-- ==== Sys2Proof/Machine/Control.lean ====
section
/-! DEFINITION. The control command: NOP (R139). -/

namespace Sys2Proof.Machine

/-- The outcome of NOP (R139): `Ok({}, none)`. -/
def nopResult : Result := .ok none none

/-- NOP (R139). -/
def execNop (s : State) : Host.Outcome State Fault Refusal := .next (s.commit nopResult)

end Sys2Proof.Machine
end

