-- ==== Sys2Proof/Machine/Arith.lean ====
section
/-! DEFINITION. Exact modular arithmetic over the integers (R13): the helpers of the field arithmetic commands. Each loop of
the spec is structural recursion on fuel; the fuel given is enough for the loop to end by itself. -/

namespace Sys2Proof.Machine

/-- R153 `emod`: the Euclidean residue. Lean's `%` on `Int` is the non-negative one. -/
def emod (x m : Int) : Int := x % m

/-! ## Inverse -/

/-- The loop of R160 on `(r0, r1, s0, s1)`: the pair `(r0, s0)` when `r1` has reached 0. -/
def invLoop : Nat → Int → Int → Int → Int → Int × Int
  | 0, r0, _, s0, _ => (r0, s0)
  | fuel + 1, r0, r1, s0, s1 =>
    if r1 = 0 then (r0, s0)
    else invLoop fuel r1 (r0 - r0 / r1 * r1) s1 (s0 - r0 / r1 * s1)

/-- R160 `inv`: the inverse of `a` modulo `m > 0` in `[0, m)`, or `none` for NO_INVERSE. -/
def inv (a m : Int) : Option Int :=
  let (g, s) := invLoop (emod a m).toNat m (emod a m) 0 1
  if g = 1 then some (emod s m) else none

/-! ## Exponentiation -/

/-- The loop of R165 on `(y, acc, base)`. -/
def powLoop (m : Int) : Nat → Nat → Int → Int → Int
  | 0, _, acc, _ => acc
  | fuel + 1, y, acc, base =>
    if y = 0 then acc
    else powLoop m fuel (y / 2) (if y % 2 = 1 then emod (acc * base) m else acc) (emod (base * base) m)

/-- R165 `powmod`, for `m > 0` and `y >= 0`. -/
def powmod (x y m : Int) : Int := powLoop m y.toNat y.toNat (emod 1 m) (emod x m)

/-! ## Square root -/

/-- `while q even: (q, s) := (q/2, s+1)` (R170). -/
def splitLoop : Nat → Int → Nat → Int × Nat
  | 0, q, s => (q, s)
  | fuel + 1, q, s => if emod q 2 = 0 then splitLoop fuel (q / 2) (s + 1) else (q, s)

/-- The search for `z` in R170: from `z` up, the first value that is not below `p` or is a non-residue by Euler's
criterion. -/
def nonResidueLoop (p : Int) : Nat → Int → Int
  | 0, z => z
  | fuel + 1, z =>
    if z < p ∧ powmod z ((p - 1) / 2) p ≠ p - 1 then nonResidueLoop p fuel (z + 1) else z

/-- R170: the least `i` with `1 <= i <= M-1` and `T^(2^i) = 1` modulo `p`. -/
def leastSquaring (p T : Int) (M : Nat) : Option Nat :=
  (List.range' 1 (M - 1)).find? fun i => powmod T (2 ^ i) p = 1

/-- The main loop of R170 on `(M, C, T, R)`; `none` when the inner search finds no exponent. -/
def sqrtLoop (p : Int) : Nat → Nat → Int → Int → Int → Option Int
  | 0, _, _, T, R => if T = 1 then some R else none
  | fuel + 1, M, C, T, R =>
    if T = 1 then some R
    else
      match leastSquaring p T M with
      | none => none
      | some i =>
        let b := powmod C (2 ^ (M - i - 1)) p
        let C' := emod (b * b) p
        sqrtLoop p fuel i C' (emod (T * C') p) (emod (R * b) p)

/-- R170 `sqrt` for odd `p >= 3`; `none` is NOT_RESIDUE. -/
def sqrtMod (n p : Int) : Option Int :=
  let n := emod n p
  if n = 0 then some 0
  else if emod p 4 = 3 then
    let r := powmod n ((p + 1) / 4) p
    if emod (r * r) p ≠ n then none else some r
  else if powmod n ((p - 1) / 2) p ≠ 1 then none
  else
    let (q, s) := splitLoop (p - 1).toNat (p - 1) 0
    let z := nonResidueLoop p p.toNat 2
    if z = p then none
    else sqrtLoop p s s (powmod z q p) (powmod n q p) (powmod n ((q + 1) / 2) p)

/-! ## Montgomery product -/

/-- R175 `montprod`, for odd `m > 0`. `R_MONT` then has an inverse, so the default is never taken. -/
def montprod (a b m : Int) : Int := emod (a * b * (inv Config.rMont m).getD 0) m

end Sys2Proof.Machine
end

