-- ==== Sys2Proof/Machine/Jacobian.lean ====
section
/-! DEFINITION. The curve group law: validity (R201), the Jacobian helpers (R204 to R208) and the on-curve test (R212). -/

namespace Sys2Proof.Machine

/-- R201 `group_ok`. -/
def Curve.groupOk (c : Curve) : Bool := 3 ≤ c.p && emod c.p 2 == 1

/-- R202 `a'`. -/
def Curve.a' (c : Curve) : Int := emod c.a c.p

/-- R202 `b'`. -/
def Curve.b' (c : Curve) : Int := emod c.b c.p

/-- R204: a Jacobian triple. -/
structure Jac where
  X : Int
  Y : Int
  Z : Int
  deriving DecidableEq, Repr

/-- R204 `JID`, the canonical identity. -/
def Jac.id : Jac := ⟨0, 1, 0⟩

/-- R204 `fromAffine`. -/
def fromAffine (c : Curve) : Point → Jac
  | .identity => Jac.id
  | .affine x y => ⟨emod x c.p, emod y c.p, 1⟩

/-- R205 `toAffine`; `none` when `Z` has no inverse modulo `p`. -/
def toAffine (c : Curve) (J : Jac) : Option Point :=
  if J.Z = 0 then some .identity
  else
    match inv J.Z c.p with
    | none => none
    | some zi => some (.affine (emod (J.X * zi * zi) c.p) (emod (J.Y * zi * zi * zi) c.p))

/-- R206 `jdouble`. -/
def jdouble (c : Curve) (J : Jac) : Jac :=
  if J.Z = 0 then Jac.id
  else if J.Y = 0 then Jac.id
  else
    let S := emod (4 * J.X * J.Y ^ 2) c.p
    let M := emod (3 * J.X ^ 2 + c.a' * J.Z ^ 4) c.p
    let X3 := emod (M ^ 2 - 2 * S) c.p
    let Y3 := emod (M * (S - X3) - 8 * J.Y ^ 4) c.p
    let Z3 := emod (2 * J.Y * J.Z) c.p
    ⟨X3, Y3, Z3⟩

/-- R207 `jadd`. -/
def jadd (c : Curve) (J K : Jac) : Jac :=
  if J.Z = 0 then K
  else if K.Z = 0 then J
  else
    let U1 := emod (J.X * K.Z ^ 2) c.p
    let U2 := emod (K.X * J.Z ^ 2) c.p
    let S1 := emod (J.Y * K.Z ^ 3) c.p
    let S2 := emod (K.Y * J.Z ^ 3) c.p
    if U1 = U2 then
      if S1 ≠ S2 then Jac.id else jdouble c J
    else
      let H := emod (U2 - U1) c.p
      let Rr := emod (S2 - S1) c.p
      let X3 := emod (Rr ^ 2 - H ^ 3 - 2 * U1 * H ^ 2) c.p
      let Y3 := emod (Rr * (U1 * H ^ 2 - X3) - S1 * H ^ 3) c.p
      let Z3 := emod (J.Z * K.Z * H) c.p
      ⟨X3, Y3, Z3⟩

/-- The loop of R208 on `(k, Racc, Q)`; fuel `k` is enough, since each pass halves `k`. -/
def jmulLoop (c : Curve) : Nat → Nat → Jac → Jac → Jac
  | 0, _, acc, _ => acc
  | fuel + 1, k, acc, Q =>
    if k = 0 then acc
    else jmulLoop c fuel (k / 2) (if k % 2 = 1 then jadd c acc Q else acc) (jdouble c Q)

/-- R208 `jmul`, for `k >= 0`. -/
def jmul (c : Curve) (k : Int) (J : Jac) : Jac := jmulLoop c k.toNat k.toNat Jac.id J

/-- R212 `onCurveCore`. -/
def onCurveCore (c : Curve) : Point → Bool
  | .identity => false
  | .affine px py =>
    let x := emod px c.p
    let y := emod py c.p
    if emod (y ^ 2 - (x ^ 3 + c.a' * x + c.b')) c.p ≠ 0 then false
    else if c.h ≠ 1 ∧ (jmul c c.n (fromAffine c (.affine px py))).Z ≠ 0 then false
    else true

end Sys2Proof.Machine
end

