-- ==== Sys2Proof/Machine/CurveGroup.lean ====
section
/-! DEFINITION. The curve group commands (R200 to R216). -/

namespace Sys2Proof.Machine

/-- The end of PADD, PDBL and PMUL: convert the Jacobian result and write it, or NO_INVERSE (R205). -/
def pointResult (c : Curve) (d : PReg) (J : Jac) : Result :=
  match toAffine c J with
  | none => .err .noInverse
  | some P => .ok (some (.point d P)) none

/-- The outcome of PADD (R209). -/
def paddResult (d ps pt : PReg) (s : State) : Result :=
  let c := s.curve.values
  if !c.groupOk then .err .badCurve
  else pointResult c d (jadd c (fromAffine c (s.pt ps)) (fromAffine c (s.pt pt)))

/-- PADD (R209). -/
def execPadd (d ps pt : PReg) (s : State) : Host.Outcome State Fault Refusal :=
  .next (s.commit (paddResult d ps pt s))

/-- The outcome of PDBL (R210). -/
def pdblResult (d ps : PReg) (s : State) : Result :=
  let c := s.curve.values
  if !c.groupOk then .err .badCurve
  else pointResult c d (jdouble c (fromAffine c (s.pt ps)))

/-- PDBL (R210). -/
def execPdbl (d ps : PReg) (s : State) : Host.Outcome State Fault Refusal :=
  .next (s.commit (pdblResult d ps s))

/-- The outcome of PMUL (R211): the scalar is a plain register and is not reduced. -/
def pmulResult (d : PReg) (k : Reg) (ps : PReg) (s : State) : Result :=
  let c := s.curve.values
  if !c.groupOk then .err .badCurve
  else if s.x k < 0 then .err .negOperand
  else pointResult c d (jmul c (s.x k) (fromAffine c (s.pt ps)))

/-- PMUL (R211). -/
def execPmul (d : PReg) (k : Reg) (ps : PReg) (s : State) : Host.Outcome State Fault Refusal :=
  .next (s.commit (pmulResult d k ps s))

/-- The outcome of ONCURVE (R213). -/
def oncurveResult (ps : PReg) (s : State) : Result :=
  let c := s.curve.values
  if !c.groupOk then .err .badCurve
  else if c.h ≠ 1 ∧ c.n < 2 then .err .badCurve
  else .ok none (some (onCurveCore c (s.pt ps)))

/-- ONCURVE (R213). -/
def execOncurve (ps : PReg) (s : State) : Host.Outcome State Fault Refusal :=
  .next (s.commit (oncurveResult ps s))

end Sys2Proof.Machine
end

