-- ==== Sys2Proof/Machine/Ecdsa.lean ====
section
/-! DEFINITION. ECDSA verification: ECDSAV (R250 to R266). -/

namespace Sys2Proof.Machine

/-- Steps 6 to 9 of R263, from the two scalars: `false` when a product or the sum is the identity, or the last conversion
finds no inverse, else the congruence of step 9. -/
def verifyPoints (c : Curve) (Q : Point) (r u1 u2 : Int) : Bool :=
  let J1 := jmul c u1 (fromAffine c (.affine c.gx c.gy))
  if J1.Z = 0 then false
  else
    let J2 := jmul c u2 (fromAffine c Q)
    if J2.Z = 0 then false
    else
      let J := jadd c J1 J2
      if J.Z = 0 then false
      else
        match toAffine c J with
        | some (.affine rx _) => emod (r - rx) c.n == 0
        | _ => false

/-- `verify(Q, r, s)` of R263, with the hash integer `e` of step 3. -/
def verify (c : Curve) (e : Int) (Q : Point) (r s : Int) : Bool :=
  if !onCurveCore c Q then false
  else if (jmul c c.n (fromAffine c Q)).Z ≠ 0 then false
  else
    match inv s c.n with
    | none => false
    | some w => verifyPoints c Q r (emod (e * w) c.n) (emod (r * w) c.n)

/-- The configuration check of R251. -/
def State.ecdsaOk (s : State) : Bool :=
  let c := s.curve.values
  c.groupOk && decide (2 ≤ c.n) && decide (1 ≤ s.curveSize.toNat) && decide (s.curveSize.toNat ≤ Config.sizeMax)

/-- The outcome of ECDSAV (R263). -/
def ecdsavResult (q : PReg) (r sg : Reg) (s : State) : Result :=
  if !s.ecdsaOk then .err .badCurve
  else if s.x r < 1 ∨ s.x sg < 1 then .err .sigRange
  else .ok none (some (verify s.curve.values s.hashInt (s.pt q) (s.x r) (s.x sg)))

/-- ECDSAV (R263). -/
def execEcdsav (q : PReg) (r sg : Reg) (s : State) : Host.Outcome State Fault Refusal :=
  .next (s.commit (ecdsavResult q r sg s))

end Sys2Proof.Machine
end

