-- ==== Sys2Proof/Machine/FieldArith.lean ====
section
/-! DEFINITION. The field arithmetic commands (R150 to R180). Each command has its outcome, the pure function `Exec` of R132,
and its meaning, the commit of that outcome. -/

namespace Sys2Proof.Machine

/-- The outcome of MODRED (R154). -/
def modredResult (d x m : Reg) (s : State) : Result :=
  if s.x m ≤ 0 then .err .badModulus
  else .ok (some (.reg d (emod (s.x x) (s.x m)))) none

/-- MODRED (R154). -/
def execModred (d x m : Reg) (s : State) : Host.Outcome State Fault Refusal :=
  .next (s.commit (modredResult d x m s))

/-- The outcome of MODINV (R161): the modulus is `|n|`. -/
def modinvResult (d a m : Reg) (s : State) : Result :=
  if s.x m = 0 then .err .badModulus
  else
    match inv (s.x a) |s.x m| with
    | none => .err .noInverse
    | some v => .ok (some (.reg d v)) none

/-- MODINV (R161). -/
def execModinv (d a m : Reg) (s : State) : Host.Outcome State Fault Refusal :=
  .next (s.commit (modinvResult d a m s))

/-- The outcome of MODEXP (R166): the modulus check comes before the exponent check. -/
def modexpResult (d x y m : Reg) (s : State) : Result :=
  if s.x m ≤ 0 then .err .badModulus
  else if s.x y < 0 then .err .negOperand
  else .ok (some (.reg d (powmod (s.x x) (s.x y) (s.x m)))) none

/-- MODEXP (R166). -/
def execModexp (d x y m : Reg) (s : State) : Host.Outcome State Fault Refusal :=
  .next (s.commit (modexpResult d x y m s))

/-- The outcome of MODSQRT (R171). -/
def modsqrtResult (d n p : Reg) (s : State) : Result :=
  if s.x p < 3 ∨ emod (s.x p) 2 = 0 then .err .badModulus
  else
    match sqrtMod (s.x n) (s.x p) with
    | none => .err .notResidue
    | some r => .ok (some (.reg d r)) none

/-- MODSQRT (R171). -/
def execModsqrt (d n p : Reg) (s : State) : Host.Outcome State Fault Refusal :=
  .next (s.commit (modsqrtResult d n p s))

/-- The outcome of MONTMUL (R176). -/
def montmulResult (d a b m : Reg) (s : State) : Result :=
  if s.x m ≤ 0 ∨ emod (s.x m) 2 = 0 then .err .badModulus
  else .ok (some (.reg d (montprod (s.x a) (s.x b) (s.x m)))) none

/-- MONTMUL (R176). -/
def execMontmul (d a b m : Reg) (s : State) : Host.Outcome State Fault Refusal :=
  .next (s.commit (montmulResult d a b m s))

/-- The outcome of MODMUL (R177). -/
def modmulResult (d a b m : Reg) (s : State) : Result :=
  if s.x m ≤ 0 then .err .badModulus
  else .ok (some (.reg d (emod (s.x a * s.x b) (s.x m)))) none

/-- MODMUL (R177). -/
def execModmul (d a b m : Reg) (s : State) : Host.Outcome State Fault Refusal :=
  .next (s.commit (modmulResult d a b m s))

end Sys2Proof.Machine
end

