-- ==== Sys2Proof/Machine/Dispatch.lean ====
section
/-! DEFINITION. One arm per command: each calls its meaning. -/

namespace Sys2Proof.Machine

/-- The ENGINE's commit of a legal command (R140). -/
def exec (i : Instr) (s : State) : Host.Outcome State Fault Refusal :=
  match i with
  | .nop => Sys2Proof.Machine.execNop s
  | .modred d x m => Sys2Proof.Machine.execModred d x m s
  | .modinv d a m => Sys2Proof.Machine.execModinv d a m s
  | .modexp d x y m => Sys2Proof.Machine.execModexp d x y m s
  | .modsqrt d n p => Sys2Proof.Machine.execModsqrt d n p s
  | .montmul d a b m => Sys2Proof.Machine.execMontmul d a b m s
  | .modmul d a b m => Sys2Proof.Machine.execModmul d a b m s
  | .padd d ps pt => Sys2Proof.Machine.execPadd d ps pt s
  | .pdbl d ps => Sys2Proof.Machine.execPdbl d ps s
  | .pmul d k ps => Sys2Proof.Machine.execPmul d k ps s
  | .oncurve ps => Sys2Proof.Machine.execOncurve ps s
  | .ecdsav q r sg => Sys2Proof.Machine.execEcdsav q r sg s

end Sys2Proof.Machine
end

