-- ==== Sys2Proof/Machine/Engine.lean ====
section
/-! DEFINITION. The step relation of R140 as one function: the ENGINE's step, and the turn that the schedule names. -/

namespace Sys2Proof.Machine

/-- The outcome of a command as a pure function of the state at acceptance (R132), for the commands that decode. -/
def resultOf (i : Instr) (s : State) : Result :=
  match i with
  | .nop => nopResult
  | .modred d x m => modredResult d x m s
  | .modinv d a m => modinvResult d a m s
  | .modexp d x y m => modexpResult d x y m s
  | .modsqrt d n p => modsqrtResult d n p s
  | .montmul d a b m => montmulResult d a b m s
  | .modmul d a b m => modmulResult d a b m s
  | .padd d ps pt => paddResult d ps pt s
  | .pdbl d ps => pdblResult d ps s
  | .pmul d k ps => pmulResult d k ps s
  | .oncurve ps => oncurveResult ps s
  | .ecdsav q r sg => ecdsavResult q r sg s

/-- `Exec(S, v)` (R132, R134): a word that matches no row ends in ILLEGAL_CMD and nothing else is evaluated. -/
def State.execWord (s : State) (v : Word) : Result :=
  match decode v with
  | none => .err .illegalCmd
  | some i => resultOf i s

/-- The commit of a pending command word (R133): a legal command is `exec`, any other word is ILLEGAL_CMD. -/
def commitWord (v : Word) (s : State) : Host.Outcome State Fault Refusal :=
  match decode v with
  | none => .next (s.commitErr .illegalCmd)
  | some i => exec i s

/-- The ENGINE's turn (R133, R140): it commits exactly when BUSY; when IDLE it does nothing (R298). -/
def engineTurn (s : State) : Host.Outcome State Fault Refusal :=
  match s.engine with
  | .idle => .next s
  | .busy v => commitWord v s

/-- One step of R140: the turn at the head of the schedule. When the schedule is empty the HOST makes no more accesses,
and the ENGINE has the turn: a command in flight completes (the fairness of R133). -/
def turnStep (s : State) : Host.Outcome State Fault Refusal :=
  match s.schedule with
  | [] => engineTurn s
  | .engine :: rest => engineTurn { s with schedule := rest }
  | .host access :: rest => .next ({ s with schedule := rest }.hostAccess access)
  | .reset :: rest => .next ({ s with schedule := rest }.resetEvent)

/-- `s` with the command word accepted (R131) and the engine's turn next. -/
def State.withCommand (s : State) (v : Word) : State :=
  { s.accept v with schedule := .engine :: s.schedule }

end Sys2Proof.Machine
end

