-- ==== Sys2Proof/Machine/Step.lean ====
section
/-! DEFINITION. One step, and how a command word comes to be the next one to run. The block fetches nothing (R33): a command
runs because the HOST wrote its word to CMD. -/

namespace Sys2Proof.Machine

/-- One step of the transition system of R140. -/
def step (s : State) : Host.Outcome State Fault Refusal := turnStep s

/-- `s` right after the HOST's write of the command word to CMD was accepted, with the ENGINE's turn next, so that the next
step commits that command (notes/assumptions/4.md). -/
def State.withFetchWord (s : State) (nbits w : Nat) : State := s.withCommand (tableWord nbits w)

end Sys2Proof.Machine
end

