-- ==== Sys2Proof/Machine/HostProgram.lean ====
section
/-! DEFINITION. The host program notation of R127, as turns of the schedule. `wait` is a loop of host software; here it is
the engine's turn followed by one read of STATUS. -/

namespace Sys2Proof.Machine

/-- `wr OFF, V` (R127). -/
def wr (off : Nat) (v : Word) : Turn := .host (.write (Config.base + off) .w32 v)

/-- `rd OFF` (R127). -/
def rd (off : Nat) : Turn := .host (.read (Config.base + off) .w32)

/-- The base offset of operand register `Ri` (R80). -/
def regBase (i : Reg) : Nat := 0x800 + 0x80 * i.val

/-- The base offset of a W-bit curve register (R80). -/
def curveBase : CurveReg → Nat
  | .p => 0x080
  | .a => 0x100
  | .b => 0x180
  | .gx => 0x200
  | .gy => 0x280
  | .n => 0x300
  | .h => 0x380

/-- `ld X, v` (R127): the 18 writes of `pat(v)` from the register's base offset. -/
def ld (at_ : Nat) (v : Int) : List Turn :=
  (List.finRange 18).map fun j => wr (at_ + 4 * j.val) (wideWord (pat v) j)

/-- `issue <command>` (R127). -/
def issue (i : Instr) : Turn := wr 0x004 (encode i)

/-- `wait` (R127), with the engine's turn before the read that sees BUSY = 0. -/
def wait : List Turn := [.engine, rd 0x008]

/-- The bus words that hold a byte string in HASH, four bytes a word, the last one filled with zeros (R74). -/
def packBytes : List Byte → List Word
  | [] => []
  | [b0] => [0#24 ++ b0]
  | [b0, b1] => [0#16 ++ b1 ++ b0]
  | [b0, b1, b2] => [0#8 ++ b2 ++ b1 ++ b0]
  | b0 :: b1 :: b2 :: b3 :: rest => (b3 ++ b2 ++ b1 ++ b0) :: packBytes rest

/-- `ldhash b0 b1 ...` (R127). -/
def ldhash (bytes : List Byte) : List Turn :=
  (packBytes bytes).zipIdx.map fun (w, j) => wr (0x400 + 4 * j) w

end Sys2Proof.Machine
end

