-- ==== Sys2Proof/Safety.lean ====
section
/-! DEFINITION. The terms the claims use: a consistent state, a completed run, the states a command ends in written field by
field, and the elliptic curve of R214. -/

namespace Sys2Proof.Machine

/-- What every state a run reaches satisfies: while a command is in flight CMD holds its word (R131, R42) and ERRCODE is 0
(R45), and ERRCODE never holds a code above 7 (R280). -/
structure State.Inv (s : State) : Prop where
  /-- While BUSY, CMD is the pending word. -/
  pending_is_cmd : ∀ v, s.engine = .busy v → s.cmd = v
  /-- While BUSY, ERRCODE reads 0. -/
  busy_errcode_zero : s.busy = true → s.errcode = 0
  /-- Codes 8 to 255 are never produced. -/
  errcode_le_seven : s.errcode.toNat ≤ 7

/-! ## The states a command ends in -/

/-- The end of a successful integer command: `x[d] <- r`, ERRCODE 0, idle, DONE (R150, R136). -/
def State.endReg (s : State) (d : Reg) (r : Int) : State :=
  { s with regs := s.regs.set d (pat r), errcode := 0, engine := .idle, done := true }

/-- The end of a point command whose result is the identity (R15, R136). -/
def State.endIdentity (s : State) (d : PReg) : State :=
  { s with
    regs := (s.regs.set d.xReg 0).set d.yReg 0
    ptag := s.ptag ||| (1#8 <<< d.val)
    errcode := 0, engine := .idle, done := true }

/-- The end of a point command whose result is affine (R15, R136). -/
def State.endAffine (s : State) (d : PReg) (x y : Int) : State :=
  { s with
    regs := (s.regs.set d.xReg (pat x)).set d.yReg (pat y)
    ptag := s.ptag &&& ~~~(1#8 <<< d.val)
    errcode := 0, engine := .idle, done := true }

/-- The end of a point command with result `P`. -/
def State.endPoint (s : State) (d : PReg) : Point → State
  | .identity => s.endIdentity d
  | .affine x y => s.endAffine d x y

/-- The end of a successful ONCURVE or ECDSAV: `RESULT <- b` (R44, R136). -/
def State.endFlag (s : State) (b : Bool) : State :=
  { s with result := b, errcode := 0, engine := .idle, done := true }

/-- The end of a command that fails with an error code: nothing else changes (R137). -/
def State.endError (s : State) (code : BitVec 8) : State :=
  { s with errcode := code, engine := .idle, done := true }

/-! ## What a command names -/

/-- The destination register of an integer command (R150). -/
def integerDest : Instr → Option Reg
  | .modred d _ _ => some d
  | .modinv d _ _ => some d
  | .modexp d _ _ _ => some d
  | .modsqrt d _ _ => some d
  | .montmul d _ _ _ => some d
  | .modmul d _ _ _ => some d
  | .nop => none
  | .padd _ _ _ => none
  | .pdbl _ _ => none
  | .pmul _ _ _ => none
  | .oncurve _ => none
  | .ecdsav _ _ _ => none

/-- The modulus register of an integer command (R151). -/
def modulusReg : Instr → Option Reg
  | .modred _ _ m => some m
  | .modinv _ _ m => some m
  | .modexp _ _ _ m => some m
  | .modsqrt _ _ p => some p
  | .montmul _ _ _ m => some m
  | .modmul _ _ _ m => some m
  | .nop => none
  | .padd _ _ _ => none
  | .pdbl _ _ => none
  | .pmul _ _ _ => none
  | .oncurve _ => none
  | .ecdsav _ _ _ => none

/-- The destination of a point command (R200). -/
def pointDest : Instr → Option PReg
  | .padd d _ _ => some d
  | .pdbl d _ => some d
  | .pmul d _ _ => some d
  | .nop => none
  | .modred _ _ _ => none
  | .modinv _ _ _ => none
  | .modexp _ _ _ _ => none
  | .modsqrt _ _ _ => none
  | .montmul _ _ _ _ => none
  | .modmul _ _ _ _ => none
  | .oncurve _ => none
  | .ecdsav _ _ _ => none

/-- The codes a legal command can leave in ERRCODE: the columns of R282 but ILLEGAL_CMD. -/
def errorCodes : Instr → List (BitVec 8)
  | .nop => [0]
  | .modred _ _ _ => [0, 2]
  | .modinv _ _ _ => [0, 2, 3]
  | .modexp _ _ _ _ => [0, 2, 5]
  | .modsqrt _ _ _ => [0, 2, 4]
  | .montmul _ _ _ _ => [0, 2]
  | .modmul _ _ _ _ => [0, 2]
  | .padd _ _ _ => [0, 3, 6]
  | .pdbl _ _ => [0, 3, 6]
  | .pmul _ _ _ => [0, 3, 5, 6]
  | .oncurve _ => [0, 6]
  | .ecdsav _ _ _ => [0, 6, 7]

/-! ## Runs -/

/-- `k` steps from `s` all answer a next state, and the last is `t`. -/
def runsTo (k : Nat) (s t : State) : Prop := Sys2Proof.core.run k s = .next t

/-- R143: a host program has finished when the host has made its last access and the engine is idle. -/
def State.finished (s : State) : Prop := s.schedule = [] ∧ s.engine = .idle

/-! ## The elliptic curve of R214 -/

/-- The curve `y^2 = x^3 + ax + b` over the integers modulo `p` (R37, R201). -/
def Curve.over (c : Curve) (p : Nat) : WeierstrassCurve.Affine (ZMod p) := ⟨0, 0, 0, (c.a : ZMod p), (c.b : ZMod p)⟩

/-- A point operand stands for a point of the curve: the tag for the neutral element, a pair for the point with those
residues, which is on the curve (R202, R214). -/
def Represents (c : Curve) (p : Nat) [Fact p.Prime] : Point → (c.over p).Point → Prop
  | .identity, A => A = 0
  | .affine x y, A => ∃ h, A = .some (x : ZMod p) (y : ZMod p) h

end Sys2Proof.Machine
end

