-- ==== Sys2Proof/Certificates/Slice0/Obligations.lean ====
section
/-! DEFINITION. The statements about the block, in the order of the spec's files. -/

open Sys2Proof Sys2Proof.Machine Host

/-! ## Encoding (spec/30_encoding.md) -/

/-- R101, R110: every command, with every operand, is what its own word decodes to. -/
def Obligations.DecodeOfEncode : Prop := ∀ i : Instr, decode (encode i) = some i

/-- R122: a word has one meaning; the command it decodes to encodes to that word and no other. -/
def Obligations.EncodeOfDecode : Prop := ∀ (w : Word) (i : Instr), decode w = some i → encode i = w

/-- R111: a word encodes a legal command exactly when it matches a row of the table; at most one row matches, because every
mask holds bits 7:0 and the OPC bytes differ; and the row is the command's own. -/
def Obligations.LegalWordsMatchOneTableRow : Prop :=
  (∀ r ∈ opcodeTable, r.mask.extractLsb' 0 8 = 0xFF#8) ∧
  opcodeTable.Pairwise (fun r r' => r.value.extractLsb' 0 8 ≠ r'.value.extractLsb' 0 8) ∧
  ∀ w : Word,
    ((∃ i, decode w = some i) ↔ ∃ r ∈ opcodeTable, r.accepts w = true) ∧
    (∀ r ∈ opcodeTable, ∀ r' ∈ opcodeTable, r.accepts w = true → r'.accepts w = true → r = r') ∧
    ∀ i, decode w = some i → ∃ r ∈ opcodeTable, r.accepts w = true ∧ r.mnemonic = i.mnemonic

/-- R120: a word is illegal exactly when one of the four items holds, equivalently when no row of R111 matches; it is accepted
like any other, and its commit writes nothing but ERRCODE, whatever the state: the commit of the word itself, and so the
ENGINE's step while the word is in flight. -/
def Obligations.IllegalWordCommitsOnlyItsCode : Prop :=
  ((List.range 256).filter fun n => (formsOf (BitVec.ofNat 8 n)).isNone).length = 244 ∧
  ∀ w : Word,
    (decode w = none ↔
      (Fields.ofWord w).opcAssigned = false ∨ (Fields.ofWord w).rsvZero = false ∨
        (Fields.ofWord w).unusedFieldsZero = false ∨ (Fields.ofWord w).pointFieldsEven = false) ∧
    (decode w = none ↔ ∀ r ∈ opcodeTable, r.accepts w = false) ∧
    ∀ s : State,
      (s.engine = .idle →
        (s.memWrite 0x004 .w32 w).1.busy = true ∧ (s.memWrite 0x004 .w32 w).1.readLoc .cmd = w) ∧
      (decode w = none →
        commitWord w s = .next (s.endError 1) ∧ (s.engine = .busy w → engineTurn s = .next (s.endError 1)))

/-- The decoded words of spec/95_test_vectors.md section 5, bit by bit from R111. -/
def Obligations.ListedWordsDecode : Prop :=
  decode 0x00021301#32 = some (.modred 3 1 2) ∧ decode 0x00002410#32 = some (.padd 2 1 0) ∧
  decode 0x0000F612#32 = some (.pmul 3 15 0) ∧ decode 0x00000000#32 = some .nop ∧
  decode 0x00542020#32 = some (.ecdsav 1 4 5) ∧ decode 0x00004013#32 = some (.oncurve 2) ∧
  decode 0x01000001#32 = none ∧ decode 0x00300001#32 = none ∧ decode 0x00000007#32 = none ∧
  decode 0x00000100#32 = none ∧ decode 0x00000111#32 = none ∧ decode 0x00001013#32 = none ∧
  decode 0x00F00010#32 = none ∧ decode 0x00100012#32 = none ∧ decode 0x000F0011#32 = none ∧
  decode 0x00002310#32 = none

/-! ## Steps and runs (spec/40_command.md, spec/70_reset_and_hazards.md) -/

/-- R134, R140: when the pending word decodes to a command, the engine's turn is `exec` of that command, and when it decodes to
none it is the commit of ILLEGAL_CMD (R120). The model's choices: that the turn to be taken is the head of a list in the state
(notes/assumptions/1.md), that an empty list gives the engine the turn (notes/assumptions/3.md), and `withFetchWord`, which
accepts the word even over a busy state, where R85 ignores a CMD write (notes/assumptions/4.md). -/
def Obligations.StepRunsDecodedCommand : Prop :=
  (∀ (s : State) (w : Word) (i : Instr), s.engine = .busy w → decode w = some i →
    (s.schedule = [] → step s = exec i s) ∧
    ∀ rest, s.schedule = .engine :: rest → step s = exec i { s with schedule := rest }) ∧
  (∀ (s : State) (w : Word), s.engine = .busy w → decode w = none →
    (s.schedule = [] → step s = .next (s.endError 1)) ∧
    ∀ rest, s.schedule = .engine :: rest → step s = .next ({ s with schedule := rest }.endError 1)) ∧
  ∀ (s : State) (nbits w : Nat) (i : Instr), decodeTableWord nbits w = some i →
    step (s.withFetchWord nbits w) =
      exec i { s with cmd := tableWord nbits w, engine := .busy (tableWord nbits w), errcode := 0 }

/-- R140: the other turns. A host access and a reset take effect whatever the phase; the engine has no step while IDLE. The
model's choices: the list of turns (notes/assumptions/1.md), and that an idle block with an empty list stays as it is
(notes/assumptions/3.md). -/
def Obligations.StepTakesTheScheduledTurn : Prop :=
  ∀ s : State,
    (∀ a rest, s.schedule = .host a :: rest → step s = .next ({ s with schedule := rest }.hostAccess a)) ∧
    (∀ rest, s.schedule = .reset :: rest → step s = .next { State.reset with schedule := rest }) ∧
    (s.engine = .idle → ∀ rest, s.schedule = .engine :: rest → step s = .next { s with schedule := rest }) ∧
    (s.engine = .idle → s.schedule = [] → step s = .next s)

/-- R287, R122: no state stops the block; every step answers a next state. -/
def Obligations.EveryStepCompletes : Prop := ∀ s : State, ∃ t, step s = .next t

/-- R51: the state after reset, and that every curve command then ends in BAD_CURVE until a curve is loaded. -/
def Obligations.ResetValues : Prop :=
  (∀ i : Reg, State.reset.regs[i] = 0) ∧ State.reset.ptag = 0 ∧
  (∀ c : CurveReg, State.reset.curve.get c = 0) ∧ State.reset.curveSize = 0 ∧
  (∀ i : Fin 72, State.reset.hash[i] = 0) ∧ State.reset.hashLen = 0 ∧
  State.reset.readLoc .id = 0x45434456#32 ∧ State.reset.cmd = 0 ∧
  State.reset.busy = false ∧ State.reset.result = false ∧ State.reset.wign = false ∧ State.reset.err = false ∧
  State.reset.errcode = 0 ∧ State.reset.done = false ∧ State.reset.doneEn = false ∧ State.reset.irq = false ∧
  State.reset.engine = .idle ∧
  ∀ s : State, s.curve.p = 0 →
    (∀ d a b, exec (.padd d a b) s = .next (s.endError 6)) ∧ (∀ d a, exec (.pdbl d a) s = .next (s.endError 6)) ∧
    (∀ d k a, exec (.pmul d k a) s = .next (s.endError 6)) ∧ (∀ a, exec (.oncurve a) s = .next (s.endError 6)) ∧
    ∀ q r sg, exec (.ecdsav q r sg) s = .next (s.endError 6)

/-- R320: one step of reset from any state gives the state of R51, with nothing of a command in flight committed, DONE clear
and irq 0; and nothing but the commit and reset ends a command: a host access leaves it in flight. -/
def Obligations.ResetAbandonsCommand : Prop :=
  (∀ (s : State) (rest : List Turn), s.schedule = .reset :: rest →
    ∃ t, step s = .next t ∧ t = { State.reset with schedule := rest } ∧ t.irq = false ∧ t.done = false ∧
      t.engine = .idle) ∧
  ∀ (s : State) (v : Word) (a : Access) (rest : List Turn), s.engine = .busy v → s.schedule = .host a :: rest →
    ∃ t, step s = .next t ∧ t.engine = .busy v

/-- The reset state meets the invariant of `StepKeepsInvariant`. -/
def Obligations.ResetMeetsInvariant : Prop := State.reset.Inv

/-- R42, R45, R131, R280: from every state that meets it, every step keeps: while a command is in flight CMD holds its word
and ERRCODE is 0, and ERRCODE never exceeds 7. -/
def Obligations.StepKeepsInvariant : Prop := ∀ s t : State, s.Inv → step s = .next t → t.Inv

/-- R85, R92: while BUSY no host access changes anything a command reads or anything its commit writes but DONE, so the
outcome of every word stays the same. -/
def Obligations.BusyFreezesCommandInputs : Prop :=
  ∀ (s : State) (a : Access), s.busy = true →
    s.hostAccess a = { s with
      wign := (s.hostAccess a).wign
      done := (s.hostAccess a).done
      doneEn := (s.hostAccess a).doneEn
      response := (s.hostAccess a).response } ∧
    ∀ v : Word, (s.hostAccess a).execWord v = s.execWord v

/-- R132, R136, R137: a command is atomic. Write any word to CMD while IDLE, make any accesses, and let the engine commit: the
registers, tags, RESULT and ERRCODE are those of the commit of `Exec` of the state at acceptance. -/
def Obligations.CommandIsAtomic : Prop :=
  ∀ (s : State) (w : Word) (accesses : List Access) (rest : List Turn), s.engine = .idle →
    s.schedule = wr 0x004 w :: (accesses.map Turn.host ++ Turn.engine :: rest) →
    ∃ t, runsTo (accesses.length + 2) s t ∧ t.schedule = rest ∧ t.engine = .idle ∧ t.done = true ∧ t.cmd = w ∧
      t.regs = (s.commit (s.execWord w)).regs ∧ t.ptag = (s.commit (s.execWord w)).ptag ∧
      t.result = (s.commit (s.execWord w)).result ∧ t.errcode = (s.commit (s.execWord w)).errcode ∧
      t.curve = s.curve ∧ t.curveSize = s.curveSize ∧ t.hash = s.hash ∧ t.hashLen = s.hashLen

/-- R133: a command in flight is no longer so at the latest one step after the environment's last turn. That the
engine has the turn when the list is empty is the model's choice, for the fairness of R133 (notes/assumptions/3.md). -/
def Obligations.CommandsComplete : Prop :=
  ∀ (s : State) (v : Word), s.engine = .busy v →
    ∃ k t, k ≤ s.schedule.length + 1 ∧ runsTo k s t ∧ t.engine = .idle

/-- R131: acceptance sets CMD, the pending word, the phase and ERRCODE, and changes nothing else; every word is accepted. -/
def Obligations.AcceptSetsCommandAndPhase : Prop :=
  ∀ (s : State) (v : Word), s.engine = .idle →
    s.memWrite 0x004 .w32 v = ({ s with cmd := v, engine := .busy v, errcode := 0 }, .writeOk) ∧
    (s.memWrite 0x004 .w32 v).1.busy = true ∧ (s.memWrite 0x004 .w32 v).1.err = false

/-! ## What every command has in common -/

/-- R137: the commit of an error writes ERRCODE, the phase and DONE; a command that leaves an error code has changed nothing
else. -/
def Obligations.ErrorsArePrecise : Prop :=
  (∀ (s : State) (e : ErrCode), s.commitErr e = s.endError e.code) ∧
  ∀ (i : Instr) (s t : State), exec i s = .next t → t.errcode ≠ 0 → t = s.endError t.errcode

/-- R282, R253: the codes a legal command can end with. -/
def Obligations.ErrorCodesPerCommand : Prop :=
  ∀ (i : Instr) (s t : State), exec i s = .next t → t.errcode ∈ errorCodes i

/-- R132: the outcome of a command depends on nothing but R0 to R15, PTAG, the curve registers and CURVE_SIZE, HASH and
HASH_LEN. -/
def Obligations.OutcomeReadsOnlyItsInputs : Prop :=
  ∀ (i : Instr) (s t : State), s.regs = t.regs → s.ptag = t.ptag → s.curve = t.curve → s.curveSize = t.curveSize →
    s.hash = t.hash → s.hashLen = t.hashLen →
    ∃ r : Result, exec i s = .next (s.commit r) ∧ exec i t = .next (t.commit r)

/-- R36: integer commands never change PTAG, whatever their destination, and neither does a host write to a word of a
register. -/
def Obligations.IntegerWritesKeepTags : Prop :=
  (∀ (i : Instr) (s t : State) (d : Reg), integerDest i = some d → exec i s = .next t → t.ptag = s.ptag) ∧
  ∀ (s : State) (i : Reg) (j : Fin 18) (v : Word), (s.memWrite (regBase i + 4 * j.val) .w32 v).1.ptag = s.ptag

/-- R44: only ONCURVE and ECDSAV that end without error write RESULT; reset clears it; no host access changes it; STATUS shows
it in bit 1; and no command reads it. -/
def Obligations.ResultFlagRule : Prop :=
  (∀ (i : Instr) (s t : State), exec i s = .next t → t.result ≠ s.result →
    t.errcode = 0 ∧ ((∃ k, i = .oncurve k) ∨ ∃ q r sg, i = .ecdsav q r sg)) ∧
  (∀ (s t : State) (k : PReg), exec (.oncurve k) s = .next t → t.errcode = 0 →
    t.result = onCurveCore s.curve.values (s.pt k)) ∧
  (∀ (s t : State) (q : PReg) (r sg : Reg), exec (.ecdsav q r sg) s = .next t → t.errcode = 0 →
    t.result = verify s.curve.values s.hashInt (s.pt q) (s.x r) (s.x sg)) ∧
  (∀ s : State, s.resetEvent.result = false) ∧
  (∀ (s : State) (a : Access), (s.hostAccess a).result = s.result) ∧
  (∀ s : State, (s.readLoc .status).getLsbD 1 = s.result) ∧
  ∀ (i : Instr) (s : State) (b : Bool), ∃ r : Result,
    exec i s = .next (s.commit r) ∧ exec i { s with result := b } = .next ({ s with result := b }.commit r)

/-- R150, R136: what an integer command leaves unchanged: every register but its destination, PTAG, RESULT, WIGN, DONE_EN, CMD,
the curve and the hash, and every byte of the window outside the destination, STATUS, ERRCODE and INTR_STATE. -/
def Obligations.IntegerCommandFrame : Prop :=
  ∀ (i : Instr) (s t : State) (d : Reg), integerDest i = some d → exec i s = .next t →
    (∀ j : Reg, j ≠ d → t.regs[j] = s.regs[j]) ∧ t.ptag = s.ptag ∧ t.curve = s.curve ∧ t.curveSize = s.curveSize ∧
    t.hash = s.hash ∧ t.hashLen = s.hashLen ∧ t.cmd = s.cmd ∧ t.result = s.result ∧ t.wign = s.wign ∧
    t.doneEn = s.doneEn ∧ t.schedule = s.schedule ∧ t.response = s.response ∧
    ∀ off, off < 4096 → (off < 0x008 ∨ 0x014 ≤ off) → (off < regBase d ∨ regBase d + 72 ≤ off) →
      t.windowByte off = s.windowByte off

/-- R200, R34, R136: what PADD, PDBL and PMUL leave unchanged: every register outside the destination pair, every other tag
bit, RESULT, WIGN, DONE_EN, CMD, the curve and the hash, and every byte of the window outside the pair, PTAG, STATUS, ERRCODE
and INTR_STATE. -/
def Obligations.PointCommandFrame : Prop :=
  ∀ (i : Instr) (s t : State) (d : PReg), pointDest i = some d → exec i s = .next t →
    (∀ j : Reg, j ≠ d.xReg → j ≠ d.yReg → t.regs[j] = s.regs[j]) ∧
    (∀ k : PReg, k ≠ d → t.ptag.getLsbD k = s.ptag.getLsbD k) ∧ t.curve = s.curve ∧ t.curveSize = s.curveSize ∧
    t.hash = s.hash ∧ t.hashLen = s.hashLen ∧ t.cmd = s.cmd ∧ t.result = s.result ∧ t.wign = s.wign ∧
    t.doneEn = s.doneEn ∧ t.schedule = s.schedule ∧ t.response = s.response ∧
    ∀ off, off < 4096 → (off < 0x008 ∨ 0x014 ≤ off) → (off < 0x018 ∨ 0x01C ≤ off) →
      (off < regBase d.xReg ∨ regBase d.xReg + 72 ≤ off) → (off < regBase d.yReg ∨ regBase d.yReg + 72 ≤ off) →
      t.windowByte off = s.windowByte off

/-- R139, R200, R263: what NOP, ONCURVE and ECDSAV leave unchanged: every register, PTAG, WIGN, DONE_EN, CMD, the curve and the
hash, every byte of the window outside STATUS, ERRCODE and INTR_STATE, and, for NOP, RESULT. -/
def Obligations.FlagCommandFrame : Prop :=
  ∀ (i : Instr) (s t : State), integerDest i = none → pointDest i = none → exec i s = .next t →
    t.regs = s.regs ∧ t.ptag = s.ptag ∧ t.curve = s.curve ∧ t.curveSize = s.curveSize ∧ t.hash = s.hash ∧
    t.hashLen = s.hashLen ∧ t.cmd = s.cmd ∧ t.wign = s.wign ∧ t.doneEn = s.doneEn ∧ t.schedule = s.schedule ∧
    t.response = s.response ∧ (i = .nop → t.result = s.result) ∧
    ∀ off, off < 4096 → (off < 0x008 ∨ 0x014 ≤ off) → t.windowByte off = s.windowByte off

/-! ## Integer commands (spec/40_command.md, spec/41_field_arithmetic.md) -/

/-- R139: NOP is the word 0 alone; it clears ERRCODE, sets DONE and changes nothing else. -/
def Obligations.NopResult : Prop :=
  encode .nop = 0#32 ∧ (∀ w : Word, w.extractLsb' 0 8 = 0#8 → w ≠ 0#32 → decode w = none) ∧
  ∀ s : State, exec .nop s = .next { s with errcode := 0, engine := .idle, done := true }

/-- R154: MODRED writes the residue of `x[A]` modulo `x[B]`, or ends in BAD_MODULUS when `x[B] <= 0`. -/
def Obligations.ModredResult : Prop :=
  ∀ (d x m : Reg), encode (.modred d x m) = BitVec.ofNat 32 (0x01 + d.val * 2 ^ 8 + x.val * 2 ^ 12 + m.val * 2 ^ 16) ∧
    ∀ s : State,
      (s.x m ≤ 0 → exec (.modred d x m) s = .next (s.endError 2)) ∧
      (0 < s.x m → ∃ r : Int, 0 ≤ r ∧ r < s.x m ∧ s.x m ∣ s.x x - r ∧
        exec (.modred d x m) s = .next (s.endReg d r))

/-- R161, R160: MODINV writes the one inverse of `x[A]` in `[0, m)`, `m = |x[B]|`, or ends in BAD_MODULUS when `x[B] = 0` and in
NO_INVERSE when `gcd != 1`. -/
def Obligations.ModinvResult : Prop :=
  ∀ (d a m : Reg), encode (.modinv d a m) = BitVec.ofNat 32 (0x02 + d.val * 2 ^ 8 + a.val * 2 ^ 12 + m.val * 2 ^ 16) ∧
    ∀ s : State,
      (s.x m = 0 → exec (.modinv d a m) s = .next (s.endError 2)) ∧
      (s.x m ≠ 0 → Int.gcd (s.x a % |s.x m|) |s.x m| ≠ 1 → exec (.modinv d a m) s = .next (s.endError 3)) ∧
      (s.x m ≠ 0 → Int.gcd (s.x a % |s.x m|) |s.x m| = 1 →
        ∃ r : Int, 0 ≤ r ∧ r < |s.x m| ∧ (s.x a * r) % |s.x m| = 1 % |s.x m| ∧
          (∀ r' : Int, 0 ≤ r' → r' < |s.x m| → (s.x a * r') % |s.x m| = 1 % |s.x m| → r' = r) ∧
          exec (.modinv d a m) s = .next (s.endReg d r))

/-- R166, R165: MODEXP writes `x[A]^x[B]` modulo `x[C]`; a modulus that is not positive is reported before a negative
exponent. -/
def Obligations.ModexpResult : Prop :=
  ∀ (d x y m : Reg),
    encode (.modexp d x y m) =
      BitVec.ofNat 32 (0x03 + d.val * 2 ^ 8 + x.val * 2 ^ 12 + y.val * 2 ^ 16 + m.val * 2 ^ 20) ∧
    ∀ s : State,
      (s.x m ≤ 0 → exec (.modexp d x y m) s = .next (s.endError 2)) ∧
      (0 < s.x m → s.x y < 0 → exec (.modexp d x y m) s = .next (s.endError 5)) ∧
      (0 < s.x m → 0 ≤ s.x y →
        exec (.modexp d x y m) s = .next (s.endReg d ((s.x x) ^ (s.x y).toNat % s.x m)))

/-- R171, R172 (first sentence), R170 (zero case and fast path): MODSQRT ends in BAD_MODULUS when `p < 3` or `p` is even; else it
writes a root of `x[A]` in `[0, p)`, for every odd `p`, prime or not, or ends in NOT_RESIDUE; the root of 0 is 0; and for
`p ≡ 3 (mod 4)` it is `n^((p+1)/4)`, reported NOT_RESIDUE when that is no root. -/
def Obligations.ModsqrtReturnsARoot : Prop :=
  ∀ (d n p : Reg), encode (.modsqrt d n p) = BitVec.ofNat 32 (0x04 + d.val * 2 ^ 8 + n.val * 2 ^ 12 + p.val * 2 ^ 16) ∧
    ∀ s : State,
      ((s.x p < 3 ∨ s.x p % 2 = 0) → exec (.modsqrt d n p) s = .next (s.endError 2)) ∧
      (3 ≤ s.x p → s.x p % 2 = 1 →
        (exec (.modsqrt d n p) s = .next (s.endError 4) ∨
          ∃ r : Int, 0 ≤ r ∧ r < s.x p ∧ (r * r - s.x n) % s.x p = 0 ∧
            exec (.modsqrt d n p) s = .next (s.endReg d r)) ∧
        (s.x n % s.x p = 0 → exec (.modsqrt d n p) s = .next (s.endReg d 0)) ∧
        (s.x n % s.x p ≠ 0 → s.x p % 4 = 3 →
          let r := (s.x n) ^ ((s.x p + 1) / 4).toNat % s.x p
          exec (.modsqrt d n p) s = .next (if (r * r - s.x n) % s.x p = 0 then s.endReg d r else s.endError 4)))

/-- R171, R172, R170: for an odd prime `p`, MODSQRT reports NOT_RESIDUE exactly when `n` is a non-zero non-residue; and when
`n ≡ x^2` it writes the residue of `x` or `p` minus it (0 for `x ≡ 0`). -/
def Obligations.ModsqrtModuloAPrime : Prop :=
  ∀ (d n pr : Reg) (s : State) (p : Nat), p.Prime → p ≠ 2 → s.x pr = p →
    ((¬ ∃ x : Int, (x * x - s.x n) % p = 0) → exec (.modsqrt d n pr) s = .next (s.endError 4)) ∧
    ∀ x : Int, (x * x - s.x n) % p = 0 →
      (x % p = 0 → exec (.modsqrt d n pr) s = .next (s.endReg d 0)) ∧
      (x % p ≠ 0 → exec (.modsqrt d n pr) s = .next (s.endReg d (x % p)) ∨
        exec (.modsqrt d n pr) s = .next (s.endReg d (p - x % p)))

/-- R170, R171, and I15 of 93_implementation_defined.md: which root the general path returns. For a prime `p ≡ 1 (mod 4)`,
`p - 1 = q * 2^e` with `q` odd, `z` the least value from 2 up that Euler's criterion shows to be a non-residue, and `n` a
non-zero residue, it is `n^((q+1)/2) * z^(q*k)` for the one `k < 2^(e-1)` with `n^q * z^(2*q*k) ≡ 1`. -/
def Obligations.ModsqrtPicksItsRoot : Prop :=
  ∀ (d n pr : Reg) (s : State) (p q e : Nat) (z : Int), p.Prime → s.x pr = p → p % 4 = 1 → p - 1 = q * 2 ^ e →
    q % 2 = 1 → 2 ≤ z → z < p → z ^ ((p - 1) / 2) % p = p - 1 →
    (∀ y : Int, 2 ≤ y → y < z → y ^ ((p - 1) / 2) % p ≠ p - 1) →
    s.x n % p ≠ 0 → (∃ x : Int, (x * x - s.x n) % p = 0) →
    ∃ k : Nat, k < 2 ^ (e - 1) ∧ ((s.x n) ^ q * z ^ (2 * q * k)) % p = 1 ∧
      (∀ j : Nat, j < 2 ^ (e - 1) → ((s.x n) ^ q * z ^ (2 * q * j)) % p = 1 → j = k) ∧
      exec (.modsqrt d n pr) s = .next (s.endReg d (((s.x n) ^ ((q + 1) / 2) * z ^ (q * k)) % p))

/-- R176, R175: MONTMUL writes the one value in `[0, m)` that times 2^576 is the product of the factors modulo `m`, or ends in
BAD_MODULUS when `m <= 0` or `m` is even. -/
def Obligations.MontmulResult : Prop :=
  ∀ (d a b m : Reg),
    encode (.montmul d a b m) =
      BitVec.ofNat 32 (0x05 + d.val * 2 ^ 8 + a.val * 2 ^ 12 + b.val * 2 ^ 16 + m.val * 2 ^ 20) ∧
    ∀ s : State,
      ((s.x m ≤ 0 ∨ s.x m % 2 = 0) → exec (.montmul d a b m) s = .next (s.endError 2)) ∧
      (0 < s.x m → s.x m % 2 = 1 →
        ∃ r : Int, 0 ≤ r ∧ r < s.x m ∧ (r * 2 ^ 576 - s.x a * s.x b) % s.x m = 0 ∧
          exec (.montmul d a b m) s = .next (s.endReg d r))

/-- R178: the three domain identities, for odd `m > 0`. -/
def Obligations.MontgomeryDomainIdentities : Prop :=
  ∀ a b m : Int, 0 < m → m % 2 = 1 →
    let rm := (2 ^ 576 : Int) % m
    montprod a (rm * rm % m) m = a * rm % m ∧
    (∃ ri : Int, inv (2 ^ 576) m = some ri ∧ montprod a 1 m = a * ri % m) ∧
    montprod (a * rm % m) (b * rm % m) m = a * b * rm % m

/-- R177: MODMUL writes the residue of the exact product modulo `m`, even or odd, or ends in BAD_MODULUS when `m <= 0`. -/
def Obligations.ModmulResult : Prop :=
  ∀ (d a b m : Reg),
    encode (.modmul d a b m) =
      BitVec.ofNat 32 (0x06 + d.val * 2 ^ 8 + a.val * 2 ^ 12 + b.val * 2 ^ 16 + m.val * 2 ^ 20) ∧
    ∀ s : State,
      (s.x m ≤ 0 → exec (.modmul d a b m) s = .next (s.endError 2)) ∧
      (0 < s.x m → ∃ r : Int, 0 ≤ r ∧ r < s.x m ∧ s.x m ∣ s.x a * s.x b - r ∧
        exec (.modmul d a b m) s = .next (s.endReg d r))

/-- R151: the result of a successful integer command, read back, lies in `[0, |m|)` and in `[0, 2^575)`, bit 575 is 0, and
`0 < |m| <= 2^575`, reached only by MODINV. -/
def Obligations.IntegerResultsNeedNoTruncation : Prop :=
  ∀ (i : Instr) (s t : State) (d m : Reg), integerDest i = some d → modulusReg i = some m → exec i s = .next t →
    t.errcode = 0 →
    0 ≤ t.x d ∧ t.x d < |s.x m| ∧ t.x d < 2 ^ 575 ∧ t.regs[d].getLsbD 575 = false ∧ 0 < |s.x m| ∧ |s.x m| ≤ 2 ^ 575 ∧
    (|s.x m| = 2 ^ 575 → ∃ a, i = .modinv d a m ∧ s.x m = -2 ^ 575)

/-! ## Curve commands (spec/42_curve_group.md) -/

/-- R201: `group_ok` is `p >= 3` and `p` odd; when it fails all five curve commands end in BAD_CURVE, as they do after reset;
when it holds PADD, PDBL and PMUL do not, whatever else the curve is. -/
def Obligations.CurveCommandsCheckTheModulus : Prop :=
  ∀ s : State,
    (s.curve.values.groupOk = true ↔ 3 ≤ sval s.curve.p ∧ sval s.curve.p % 2 = 1) ∧
    (s.curve.values.groupOk = false →
      (∀ d a b, exec (.padd d a b) s = .next (s.endError 6)) ∧ (∀ d a, exec (.pdbl d a) s = .next (s.endError 6)) ∧
      (∀ d k a, exec (.pmul d k a) s = .next (s.endError 6)) ∧ (∀ a, exec (.oncurve a) s = .next (s.endError 6)) ∧
      ∀ q r sg, exec (.ecdsav q r sg) s = .next (s.endError 6)) ∧
    (s.curve.values.groupOk = true →
      ∀ (i : Instr) (d : PReg) (t : State), pointDest i = some d → exec i s = .next t → t.errcode ≠ 6) ∧
    State.reset.curve.values.groupOk = false

/-- R209: PADD writes the affine form of the Jacobian sum, clears or sets the tag, or ends in BAD_CURVE or NO_INVERSE, the
latter for composite `p` only. R207 and R203: what the Jacobian sum of any two triples is, and, for two affine operands on the
curve or off it whose `x' - x` has an inverse `zi` modulo `p`, the point PADD writes, with `l = (y' - y) * zi`. -/
def Obligations.PaddResult : Prop :=
  ∀ (d a b : PReg),
    encode (.padd d a b) = BitVec.ofNat 32 (0x10 + d.val * 2 ^ 9 + a.val * 2 ^ 13 + b.val * 2 ^ 17) ∧
    ∀ s : State, let c := s.curve.values
      (c.groupOk = false → exec (.padd d a b) s = .next (s.endError 6)) ∧
      (c.groupOk = true →
        (∀ P, toAffine c (jadd c (fromAffine c (s.pt a)) (fromAffine c (s.pt b))) = some P →
          exec (.padd d a b) s = .next (s.endPoint d P)) ∧
        (toAffine c (jadd c (fromAffine c (s.pt a)) (fromAffine c (s.pt b))) = none →
          exec (.padd d a b) s = .next (s.endError 3) ∧ ¬ Prime c.p) ∧
        (∀ J K : Jac,
          (J.Z = 0 → jadd c J K = K) ∧ (J.Z ≠ 0 → K.Z = 0 → jadd c J K = J) ∧
          (J.Z ≠ 0 → K.Z ≠ 0 →
            let u := J.X * K.Z ^ 2
            let h := K.X * J.Z ^ 2 - u
            let v := J.Y * K.Z ^ 3
            let r := K.Y * J.Z ^ 3 - v
            (h % c.p = 0 → r % c.p = 0 → jadd c J K = jdouble c J) ∧
            (h % c.p = 0 → r % c.p ≠ 0 → jadd c J K = ⟨0, 1, 0⟩) ∧
            (h % c.p ≠ 0 →
              (jadd c J K).X = (r ^ 2 - h ^ 3 - 2 * u * h ^ 2) % c.p ∧
              (jadd c J K).Y = (r * (u * h ^ 2 - (jadd c J K).X) - v * h ^ 3) % c.p ∧
              (jadd c J K).Z = J.Z * K.Z * h % c.p))) ∧
        ∀ x y x' y' zi : Int, s.pt a = .affine x y → s.pt b = .affine x' y' → (x' - x) * zi % c.p = 1 →
          let l := (y' - y) * zi
          exec (.padd d a b) s = .next (s.endAffine d ((l ^ 2 - x - x') % c.p) ((l * (2 * x + x' - l ^ 2) - y) % c.p)))

/-- R210: PDBL writes the affine form of the Jacobian double, clears or sets the tag, or ends in BAD_CURVE or NO_INVERSE, the
latter for composite `p` only; the identity and a point with `y ≡ 0` double to the identity. R206 and R203: what the Jacobian
double of any triple is, and, for an affine operand on the curve or off it whose `2y` has an inverse `zi` modulo `p`, the point
PDBL writes, with `l = (3x^2 + a) * zi`. -/
def Obligations.PdblResult : Prop :=
  ∀ (d a : PReg),
    encode (.pdbl d a) = BitVec.ofNat 32 (0x11 + d.val * 2 ^ 9 + a.val * 2 ^ 13) ∧
    ∀ s : State, let c := s.curve.values
      (c.groupOk = false → exec (.pdbl d a) s = .next (s.endError 6)) ∧
      (c.groupOk = true →
        (∀ P, toAffine c (jdouble c (fromAffine c (s.pt a))) = some P → exec (.pdbl d a) s = .next (s.endPoint d P)) ∧
        (toAffine c (jdouble c (fromAffine c (s.pt a))) = none →
          exec (.pdbl d a) s = .next (s.endError 3) ∧ ¬ Prime c.p) ∧
        (s.pt a = .identity → exec (.pdbl d a) s = .next (s.endIdentity d)) ∧
        (∀ x y, s.pt a = .affine x y → y % c.p = 0 → exec (.pdbl d a) s = .next (s.endIdentity d)) ∧
        (∀ J : Jac,
          ((J.Z = 0 ∨ J.Y = 0) → jdouble c J = ⟨0, 1, 0⟩) ∧
          (J.Z ≠ 0 → J.Y ≠ 0 →
            let m := 3 * J.X ^ 2 + c.a * J.Z ^ 4
            (jdouble c J).X = (m ^ 2 - 8 * J.X * J.Y ^ 2) % c.p ∧
            (jdouble c J).Y = (m * (4 * J.X * J.Y ^ 2 - (jdouble c J).X) - 8 * J.Y ^ 4) % c.p ∧
            (jdouble c J).Z = 2 * J.Y * J.Z % c.p)) ∧
        ∀ x y zi : Int, s.pt a = .affine x y → 2 * y * zi % c.p = 1 →
          let l := (3 * x ^ 2 + c.a) * zi
          exec (.pdbl d a) s = .next (s.endAffine d ((l ^ 2 - 2 * x) % c.p) ((l * (3 * x - l ^ 2) - y) % c.p)))

/-- R211: PMUL writes the affine form of the Jacobian product by the plain signed scalar `x[A]`, or ends in BAD_CURVE, then
NEG_OPERAND, then NO_INVERSE, the last for composite `p` only. -/
def Obligations.PmulResult : Prop :=
  ∀ (d : PReg) (k : Reg) (a : PReg),
    encode (.pmul d k a) = BitVec.ofNat 32 (0x12 + d.val * 2 ^ 9 + k.val * 2 ^ 12 + a.val * 2 ^ 17) ∧
    ∀ s : State, let c := s.curve.values
      (c.groupOk = false → exec (.pmul d k a) s = .next (s.endError 6)) ∧
      (c.groupOk = true → s.x k < 0 → exec (.pmul d k a) s = .next (s.endError 5)) ∧
      (c.groupOk = true → 0 ≤ s.x k →
        (∀ P, toAffine c (jmul c (s.x k) (fromAffine c (s.pt a))) = some P →
          exec (.pmul d k a) s = .next (s.endPoint d P)) ∧
        (toAffine c (jmul c (s.x k) (fromAffine c (s.pt a))) = none →
          exec (.pmul d k a) s = .next (s.endError 3) ∧ ¬ Prime c.p))

/-- R214: for an odd prime `p` and operands on the curve, PADD writes the sum and PDBL the double in the group of the
elliptic curve, with coordinates in `[0, p)`. -/
def Obligations.PaddAndPdblAreTheGroupLaw : Prop :=
  ∀ (s : State) (p : Nat) [Fact p.Prime], s.curve.values.p = p → p ≠ 2 →
    ∀ (d a b : PReg) (A B : (s.curve.values.over p).Point),
      Represents s.curve.values p (s.pt a) A → Represents s.curve.values p (s.pt b) B →
      (∃ R : Point, exec (.padd d a b) s = .next (s.endPoint d R) ∧ Represents s.curve.values p R (A + B) ∧
        ∀ x y, R = .affine x y → 0 ≤ x ∧ x < p ∧ 0 ≤ y ∧ y < p) ∧
      ∃ R : Point, exec (.pdbl d a) s = .next (s.endPoint d R) ∧ Represents s.curve.values p R (A + A) ∧
        ∀ x y, R = .affine x y → 0 ≤ x ∧ x < p ∧ 0 ≤ y ∧ y < p

/-- R214, R211: for an odd prime `p`, a point on the curve and `k >= 0`, PMUL writes `k` times the point in the group of the
elliptic curve. -/
def Obligations.PmulIsTheScalarMultiple : Prop :=
  ∀ (s : State) (p : Nat) [Fact p.Prime], s.curve.values.p = p → p ≠ 2 →
    ∀ (d : PReg) (k : Reg) (a : PReg) (A : (s.curve.values.over p).Point),
      Represents s.curve.values p (s.pt a) A → 0 ≤ s.x k →
      ∃ R : Point, exec (.pmul d k a) s = .next (s.endPoint d R) ∧ Represents s.curve.values p R ((s.x k).toNat • A)

/-- R207, R126: PADD of a point register with itself is PDBL of it, on every curve and for every operand. -/
def Obligations.PaddOfEqualOperandsDoubles : Prop :=
  ∀ (d a : PReg) (s : State), exec (pdbl2 d a) s = exec (.pdbl d a) s

/-- R209 (corner cases), R207: on every curve that passes the check, the identity is neutral (the other operand is written
reduced), and two operands with the same `x` give the identity when their `y` are opposite or differ in any way (off the curve
they may be unrelated), all up to multiples of `p`. -/
def Obligations.PaddIdentityAndInverse : Prop :=
  ∀ (d a b : PReg) (s : State), s.curve.values.groupOk = true →
    (s.pt a = .identity → s.pt b = .identity → exec (.padd d a b) s = .next (s.endIdentity d)) ∧
    (∀ x y, s.pt a = .identity → s.pt b = .affine x y →
      exec (.padd d a b) s = .next (s.endAffine d (x % s.curve.values.p) (y % s.curve.values.p))) ∧
    (∀ x y, s.pt a = .affine x y → s.pt b = .identity →
      exec (.padd d a b) s = .next (s.endAffine d (x % s.curve.values.p) (y % s.curve.values.p))) ∧
    (∀ x y x' y', s.pt a = .affine x y → s.pt b = .affine x' y' → (x - x') % s.curve.values.p = 0 →
      (y + y') % s.curve.values.p = 0 → exec (.padd d a b) s = .next (s.endIdentity d)) ∧
    ∀ x y x' y', s.pt a = .affine x y → s.pt b = .affine x' y' → (x - x') % s.curve.values.p = 0 →
      (y - y') % s.curve.values.p ≠ 0 → exec (.padd d a b) s = .next (s.endIdentity d)

/-- R211 (corner cases): `k = 0` gives the identity, `k = 1` the reduced point, and the identity stays the identity. -/
def Obligations.PmulSmallScalars : Prop :=
  ∀ (d : PReg) (k : Reg) (a : PReg) (s : State), s.curve.values.groupOk = true →
    (s.x k = 0 → exec (.pmul d k a) s = .next (s.endIdentity d)) ∧
    (∀ x y, s.x k = 1 → s.pt a = .affine x y →
      exec (.pmul d k a) s = .next (s.endAffine d (x % s.curve.values.p) (y % s.curve.values.p))) ∧
    (0 ≤ s.x k → s.pt a = .identity → exec (.pmul d k a) s = .next (s.endIdentity d))

/-- R208: `jmul` scans the bits of `k` from the least significant, once for each bit of its length, adds the running double
where the bit is 1, and doubles every time. -/
def Obligations.JmulScansBitsUpwards : Prop :=
  ∀ (c : Curve) (k : Nat) (J : Jac),
    jmul c k J =
      ((List.range k.size).foldl
        (fun (acc : Jac × Jac) i => (if k.testBit i then jadd c acc.1 acc.2 else acc.1, jdouble c acc.2))
        (Jac.id, J)).1

/-- R213, R212: ONCURVE writes RESULT 1 exactly for an affine operand that satisfies the curve equation modulo `p` and, when
`h != 1`, is taken to `Z = 0` by `n`; it ends in BAD_CURVE when `group_ok` fails, or when `h != 1` and `n < 2`. -/
def Obligations.OncurveResult : Prop :=
  ∀ a : PReg, encode (.oncurve a) = BitVec.ofNat 32 (0x13 + a.val * 2 ^ 13) ∧
    ∀ s : State, let c := s.curve.values
      (c.groupOk = false → exec (.oncurve a) s = .next (s.endError 6)) ∧
      (c.groupOk = true → c.h ≠ 1 → c.n < 2 → exec (.oncurve a) s = .next (s.endError 6)) ∧
      (c.groupOk = true → (c.h = 1 ∨ 2 ≤ c.n) →
        (s.pt a = .identity → exec (.oncurve a) s = .next (s.endFlag false)) ∧
        ∀ x y, s.pt a = .affine x y →
          ∃ b : Bool, exec (.oncurve a) s = .next (s.endFlag b) ∧
            (b = true ↔ c.p ∣ y ^ 2 - (x ^ 3 + c.a * x + c.b) ∧
              (c.h = 1 ∨ (jmul c c.n (fromAffine c (.affine x y))).Z = 0)))

/-! ## ECDSA verification (spec/43_ecdsa_verify.md) -/

/-- R256, R16: the hash integer is the big-endian value of the first `L = min(HASH_LEN, CURVE_SIZE)` bytes of HASH, 0 when
`L = 0`, and no byte at or above `L` is read. -/
def Obligations.HashIntegerIsBigEndian : Prop :=
  (∀ s : State, s.curveSize.toNat ≤ 72 →
    s.hashInt =
      ∑ i : Fin 72, if i.val < min s.hashLen.toNat s.curveSize.toNat then
        ((s.hash[i]).toNat : Int) * 256 ^ (min s.hashLen.toNat s.curveSize.toNat - 1 - i.val) else 0) ∧
  (∀ s : State, min s.hashLen.toNat s.curveSize.toNat = 0 → s.hashInt = 0) ∧
  ∀ (s : State) (i : Fin 72) (b : Byte), min s.hashLen.toNat s.curveSize.toNat ≤ i.val →
    { s with hash := s.hash.set i b }.hashInt = s.hashInt

/-- R263, R250 to R253: ECDSAV ends in BAD_CURVE or SIG_RANGE by the two checks, in this order; else it never fails, and RESULT
is 1 exactly when all nine steps pass. -/
def Obligations.EcdsavResult : Prop :=
  ∀ (q : PReg) (r sg : Reg),
    encode (.ecdsav q r sg) = BitVec.ofNat 32 (0x20 + q.val * 2 ^ 13 + r.val * 2 ^ 16 + sg.val * 2 ^ 20) ∧
    ∀ s : State, let c := s.curve.values
      let ok := 3 ≤ c.p ∧ c.p % 2 = 1 ∧ 2 ≤ c.n ∧ 1 ≤ s.curveSize.toNat ∧ s.curveSize.toNat ≤ 72
      (¬ ok → exec (.ecdsav q r sg) s = .next (s.endError 6)) ∧
      (ok → (s.x r < 1 ∨ s.x sg < 1) → exec (.ecdsav q r sg) s = .next (s.endError 7)) ∧
      (ok → 1 ≤ s.x r → 1 ≤ s.x sg →
        ∃ b : Bool, exec (.ecdsav q r sg) s = .next (s.endFlag b) ∧
          (b = true ↔
            onCurveCore c (s.pt q) = true ∧ (jmul c c.n (fromAffine c (s.pt q))).Z = 0 ∧
            ∃ w u1 u2 rx ry : Int, 0 ≤ w ∧ w < c.n ∧ (s.x sg * w) % c.n = 1 ∧
              u1 = (s.hashInt * w) % c.n ∧ u2 = (s.x r * w) % c.n ∧
              (jmul c u1 (fromAffine c (.affine c.gx c.gy))).Z ≠ 0 ∧ (jmul c u2 (fromAffine c (s.pt q))).Z ≠ 0 ∧
              toAffine c (jadd c (jmul c u1 (fromAffine c (.affine c.gx c.gy))) (jmul c u2 (fromAffine c (s.pt q)))) =
                some (.affine rx ry) ∧
              (s.x r - rx) % c.n = 0))

/-- R265: adding a multiple of `n` to `r` or to `s` does not change the result of the steps; `e ≡ 0`, `r ≡ 0`, an identity key,
and a key off the curve give false. -/
def Obligations.VerifyCornerCases : Prop :=
  ∀ (c : Curve) (e r s : Int) (Q : Point), 2 ≤ c.n →
    (∀ k : Int, verify c e Q (r + k * c.n) s = verify c e Q r s ∧ verify c e Q r (s + k * c.n) = verify c e Q r s) ∧
    (e % c.n = 0 → verify c e Q r s = false) ∧ (r % c.n = 0 → verify c e Q r s = false) ∧
    (s % c.n = 0 → verify c e Q r s = false) ∧ verify c e .identity r s = false ∧
    ∀ x y, 0 < c.p → ¬ c.p ∣ y ^ 2 - (x ^ 3 + c.a * x + c.b) → verify c e (.affine x y) r s = false

/-- R254 to R262 over the group of R214: for an odd prime `p`, with key and generator on the curve, the steps accept exactly
when `n·Q` is neutral, `s` has an inverse `w` modulo `n`, `u1·G` and `u2·Q` are not neutral, and their sum is an affine point
whose `x` is congruent to `r` modulo `n`. -/
def Obligations.VerifyIsTheGroupEquation : Prop :=
  ∀ (c : Curve) (p : Nat) [Fact p.Prime], c.p = p → p ≠ 2 → 2 ≤ c.n →
    ∀ (e r s : Int) (Q : Point) (A G : (c.over p).Point), Represents c p Q A → Represents c p (.affine c.gx c.gy) G →
      (verify c e Q r s = true ↔
        c.n.toNat • A = 0 ∧ ∃ w : Int, 0 ≤ w ∧ w < c.n ∧ (s * w) % c.n = 1 ∧
          ((e * w) % c.n).toNat • G ≠ 0 ∧ ((r * w) % c.n).toNat • A ≠ 0 ∧
          ∃ x y h, ((e * w) % c.n).toNat • G + ((r * w) % c.n).toNat • A = .some x y h ∧
            (r - (x.val : Int)) % c.n = 0)

/-! ## The register window (spec/10_state.md, spec/20_memory.md, spec/60_exceptions.md) -/

/-- R71: BASE is 4096-aligned, the offset is the address less BASE, and the block neither sees nor answers an access outside
the window. -/
def Obligations.WindowLiesAtBase : Prop :=
  Config.base % 4096 = 0 ∧ (∀ off, off < 4096 → windowOffset (Config.base + off) = some off) ∧
  ∀ (addr : Nat), (addr < Config.base ∨ Config.base + 4096 ≤ addr) →
    windowOffset addr = none ∧
    ∀ (s : State) (width : Width) (v : Word),
      s.hostAccess (.read addr width) = { s with response := none } ∧
      s.hostAccess (.write addr width v) = { s with response := none }

/-- R76, R79: only a 32-bit access at a multiple of 4 is legal; any other changes nothing and gets a bus error, with data 0
for a read; no read changes the state, so it may be repeated with the same answer. -/
def Obligations.IllegalAccessesChangeNothing : Prop :=
  ∀ (s : State) (off : Nat) (width : Width) (v : Word),
    (¬ (width = .w32 ∧ off % 4 = 0) → s.memWrite off width v = (s, .writeError) ∧ s.memRead off width = .readError 0) ∧
    (width = .w32 → off % 4 = 0 → (s.memWrite off width v).2 = .writeOk ∧
      s.memRead off width = .readOk (s.readLoc (locate off))) ∧
    (off < 4096 → s.hostAccess (.read (Config.base + off) width) = { s with response := some (s.memRead off width) } ∧
      (s.hostAccess (.read (Config.base + off) width)).memRead off width = s.memRead off width)

/-- R43: what STATUS reads as, and that a write clears WIGN when bit 3 is 1 and does nothing else, busy or idle. -/
def Obligations.StatusFields : Prop :=
  ∀ s : State,
    locate 0x008 = .status ∧ State.reset.readLoc .status = 0#32 ∧
    (s.readLoc .status).getLsbD 0 = (s.engine != .idle) ∧ (s.readLoc .status).getLsbD 1 = s.result ∧
    (s.readLoc .status).getLsbD 2 = (s.errcode != 0) ∧ (s.readLoc .status).getLsbD 3 = s.wign ∧
    (∀ n, 4 ≤ n → (s.readLoc .status).getLsbD n = false) ∧
    ∀ v : Word, (s.memWrite 0x008 .w32 v).1 = { s with wign := s.wign && !v.getLsbD 3 }

/-- R47, R290: every commit, of any word, sets DONE; reset clears both bits; a write of 1 to INTR_STATE bit 0 clears it and any other write leaves it; INTR_ENABLE
bit 0 is DONE_EN; the other bits read 0; neither write is gated; irq is the AND of the two bits. -/
def Obligations.InterruptRegisters : Prop :=
  (∀ (v : Word) (s t : State), commitWord v s = .next t → t.done = true ∧ t.irq = s.doneEn) ∧
  State.reset.done = false ∧ State.reset.doneEn = false ∧
  ∀ s : State,
    s.resetEvent.irq = false ∧ s.irq = (s.done && s.doneEn) ∧
    (∀ n, (s.memRead 0x010 .w32) = .readOk (s.readLoc .intrState) ∧
      (s.readLoc .intrState).getLsbD n = (n == 0 && s.done)) ∧
    (∀ n, (s.memRead 0x014 .w32) = .readOk (s.readLoc .intrEnable) ∧
      (s.readLoc .intrEnable).getLsbD n = (n == 0 && s.doneEn)) ∧
    ∀ v : Word, (s.memWrite 0x010 .w32 v).1 = { s with done := s.done && !v.getLsbD 0 } ∧
      (s.memWrite 0x014 .w32 v).1 = { s with doneEn := v.getLsbD 0 }

/-- R46: WIGN becomes 1 exactly when the host writes a gated register while BUSY, which changes nothing else: so much of the
words of the window, and of every step, whichever turn it takes. It stays 1 until the host writes STATUS with bit 3 set, or
until reset. -/
def Obligations.WignRule : Prop :=
  (∀ (s : State) (v : Word) (l : Loc), s.busy = true → l.gated = true → s.writeLoc v l = { s with wign := true }) ∧
  (∀ (s : State) (v : Word) (l : Loc), s.wign = false → (s.writeLoc v l).wign = true → s.busy = true ∧ l.gated = true) ∧
  (∀ s t : State, step s = .next t → s.wign = false →
    (t.wign = true ↔
      s.busy = true ∧ ∃ off v rest, s.schedule = .host (.write (Config.base + off) .w32 v) :: rest ∧
        off % 4 = 0 ∧ off < 4096 ∧ (locate off).gated = true)) ∧
  (∀ (s : State) (off : Nat) (v : Word) (rest : List Turn), s.busy = true → off % 4 = 0 → off < 4096 →
    (locate off).gated = true → s.schedule = .host (.write (Config.base + off) .w32 v) :: rest →
    step s = .next { s with schedule := rest, wign := true, response := some .writeOk }) ∧
  ∀ s t : State, step s = .next t → s.wign = true → t.wign = false →
    (∃ rest, s.schedule = .reset :: rest) ∨
      ∃ v rest, s.schedule = .host (.write (Config.base + 0x008) .w32 v) :: rest ∧ v.getLsbD 3 = true

/-- R81, R82, R41: reserved words read 0 and ignore writes, busy or idle, with no bus error; ID, ERRCODE and STATUS
bits 0 to 2 ignore writes; ID always reads 0x45434456. -/
def Obligations.ReservedAndReadOnlyWords : Prop :=
  ∀ (s : State) (off : Nat) (v : Word), off % 4 = 0 →
    (locate off = .reserved → s.memRead off .w32 = .readOk 0 ∧ s.memWrite off .w32 v = (s, .writeOk)) ∧
    ((off = 0x000 ∨ off = 0x00C) → s.memWrite off .w32 v = (s, .writeOk)) ∧
    (off = 0x008 → (s.memWrite off .w32 v).2 = .writeOk ∧ (s.memWrite off .w32 v).1.engine = s.engine ∧
      (s.memWrite off .w32 v).1.result = s.result ∧ (s.memWrite off .w32 v).1.errcode = s.errcode) ∧
    s.memRead 0x000 .w32 = .readOk 0x45434456#32

/-- R85: while IDLE a write to any gated word but CMD reads back (PTAG and CURVE_SIZE keep bits 7:0), and every
other word of the window reads as before. -/
def Obligations.IdleWritesReadBack : Prop :=
  ∀ (s : State) (off : Nat) (v : Word), s.engine = .idle → off % 4 = 0 → off < 4096 → (locate off).gated = true →
    off ≠ 0x004 →
    (s.memWrite off .w32 v).1.memRead off .w32 =
      .readOk (if off = 0x018 ∨ off = 0x020 then v &&& 0xFF#32 else v) ∧
    ∀ off', off' % 4 = 0 → off' < 4096 → off' ≠ off →
      (s.memWrite off .w32 v).1.memRead off' .w32 = s.memRead off' .w32

/-- R87: a word write changes exactly bits `[32j+31:32j]` of its register; and the 18 words of `pat(v)` written to a register
leave it with the value `v`, sign-filled upper words included. -/
def Obligations.WideRegisterWordWrites : Prop :=
  (∀ (s : State) (i : Reg) (j : Fin 18) (v : Word), s.engine = .idle →
    ∀ n, (s.memWrite (regBase i + 4 * j.val) .w32 v).1.regs[i].getLsbD n =
      if 32 * j.val ≤ n ∧ n < 32 * j.val + 32 then v.getLsbD (n - 32 * j.val) else s.regs[i].getLsbD n) ∧
  (∀ (s : State) (c : CurveReg) (j : Fin 18) (v : Word), s.engine = .idle →
    ∀ n, ((s.memWrite (curveBase c + 4 * j.val) .w32 v).1.curve.get c).getLsbD n =
      if 32 * j.val ≤ n ∧ n < 32 * j.val + 32 then v.getLsbD (n - 32 * j.val) else (s.curve.get c).getLsbD n) ∧
  (∀ (s : State) (i : Reg) (v : Int), s.engine = .idle → -2 ^ 575 ≤ v → v < 2 ^ 575 →
    ((List.finRange 18).foldl (fun t j => (t.memWrite (regBase i + 4 * j.val) .w32 (wideWord (pat v) j)).1) s).x i = v) ∧
  (∀ (s : State) (c : CurveReg) (v : Int), s.engine = .idle → -2 ^ 575 ≤ v → v < 2 ^ 575 →
    sval (((List.finRange 18).foldl
      (fun t j => (t.memWrite (curveBase c + 4 * j.val) .w32 (wideWord (pat v) j)).1) s).curve.get c) = v) ∧
  wideWord (pat (-5)) 0 = 0xFFFFFFFB#32 ∧ ∀ j : Fin 18, j ≠ 0 → wideWord (pat (-5)) j = 0xFFFFFFFF#32

/-- R73, R74: word `j` of a W-bit register's slot is bits `[32j+31:32j]` of its pattern, byte `m` is bits `[8m+7:8m]`, the sign
bit is bit 31 of the word at `+0x44`, and byte `i` of the hash slot is `HASH[i]`. -/
def Obligations.WindowIsLittleEndian : Prop :=
  (∀ (s : State) (j : Fin 18),
    (∀ i : Reg, s.memRead (regBase i + 4 * j.val) .w32 = .readOk ((s.regs[i]).extractLsb' (32 * j.val) 32)) ∧
    ∀ c : CurveReg, s.memRead (curveBase c + 4 * j.val) .w32 = .readOk ((s.curve.get c).extractLsb' (32 * j.val) 32)) ∧
  (∀ (s : State) (i : Reg), (s.regs[i]).getLsbD 575 = (s.readLoc (locate (regBase i + 0x44))).getLsbD 31) ∧
  (∀ (s : State) (c : CurveReg),
    (s.curve.get c).getLsbD 575 = (s.readLoc (locate (curveBase c + 0x44))).getLsbD 31) ∧
  ∀ (s : State) (m : Fin 72),
    (∀ i : Reg, s.windowByte (regBase i + m.val) = (s.regs[i]).extractLsb' (8 * m.val) 8) ∧
    (∀ c : CurveReg, s.windowByte (curveBase c + m.val) = (s.curve.get c).extractLsb' (8 * m.val) 8) ∧
    s.windowByte (0x400 + m.val) = s.hash[m]

/-- R80: the address map. Each word has the one offset the table gives it, and every other aligned offset of the window is
reserved. -/
def Obligations.AddressMap : Prop :=
  locate 0x000 = .id ∧ locate 0x004 = .cmd ∧ locate 0x008 = .status ∧ locate 0x00C = .errcode ∧
  locate 0x010 = .intrState ∧ locate 0x014 = .intrEnable ∧ locate 0x018 = .ptag ∧ locate 0x01C = .hashLen ∧
  locate 0x020 = .curveSize ∧
  (∀ (c : CurveReg) (j : Fin 18), locate (curveBase c + 4 * j.val) = .curve c j) ∧
  (∀ j : Fin 18, locate (0x400 + 4 * j.val) = .hash j) ∧
  (∀ (i : Reg) (j : Fin 18), locate (0x800 + 0x80 * i.val + 4 * j.val) = .reg i j) ∧
  ∀ off, off % 4 = 0 → off < 4096 →
    (locate off = .reserved ↔
      (0x024 ≤ off ∧ off < 0x080) ∨ (0x080 ≤ off ∧ off < 0x400 ∧ 0x48 ≤ off % 0x80) ∨ (0x448 ≤ off ∧ off < 0x800) ∨
        (0x800 ≤ off ∧ 0x48 ≤ off % 0x80))
end

