-- ==== Sys2Proof/Laws/Arith.lean ====
section
/-! SUPPORT. What each loop of Machine/Arith.lean computes, so that no later proof unfolds a loop. -/

namespace Sys2Proof.Machine

/-! ## The residue (R153) -/

theorem emod_nonneg {m : Int} (x : Int) (hm : 0 < m) : 0 ≤ emod x m := Int.emod_nonneg x hm.ne'

theorem emod_lt {m : Int} (x : Int) (hm : 0 < m) : emod x m < m := Int.emod_lt_of_pos x hm

theorem emod_congr (x m : Int) : emod x m ≡ x [ZMOD m] := Int.mod_modEq x m

theorem emod_eq_emod_iff {x y m : Int} : emod x m = emod y m ↔ x ≡ y [ZMOD m] := Iff.rfl

@[simp] theorem emod_emod (x m : Int) : emod (emod x m) m = emod x m := Int.emod_emod_of_dvd x dvd_rfl

theorem emod_of_lt {x m : Int} (h0 : 0 ≤ x) (h1 : x < m) : emod x m = x := Int.emod_eq_of_lt h0 h1

/-- The residue as an element of `ZMod p` is the number itself. -/
theorem cast_emod (x : Int) (p : Nat) : ((emod x p : Int) : ZMod p) = (x : ZMod p) := by
  have := (ZMod.intCast_eq_intCast_iff (emod x p) x p).2 (emod_congr x p)
  exact this

/-! ## Exponentiation (R165) -/

theorem powLoop_congr (m : Int) : ∀ (fuel y : Nat) (acc base : Int), y ≤ fuel →
    powLoop m fuel y acc base ≡ acc * base ^ y [ZMOD m] := by
  intro fuel
  induction fuel with
  | zero =>
    intro y acc base h
    obtain rfl : y = 0 := by omega
    simp [powLoop, Int.ModEq.refl]
  | succ fuel ih =>
    intro y acc base h
    simp only [powLoop]
    split_ifs with h0 h1
    · subst h0; simp [Int.ModEq.refl]
    · refine (ih _ _ _ (by omega)).trans ?_
      have e : acc * base ^ y = acc * base * (base * base) ^ (y / 2) := by
        conv_lhs => rw [show y = 2 * (y / 2) + 1 by omega]
        rw [pow_succ, pow_mul]; ring
      rw [e]
      exact (emod_congr _ _).mul ((emod_congr _ _).pow _)
    · refine (ih _ _ _ (by omega)).trans ?_
      have e : acc * base ^ y = acc * (base * base) ^ (y / 2) := by
        conv_lhs => rw [show y = 2 * (y / 2) by omega]
        rw [pow_mul]; ring
      rw [e]
      exact (Int.ModEq.refl _).mul ((emod_congr _ _).pow _)

theorem powLoop_reduced (m : Int) (hm : 0 < m) : ∀ (fuel y : Nat) (acc base : Int), 0 ≤ acc → acc < m →
    0 ≤ powLoop m fuel y acc base ∧ powLoop m fuel y acc base < m := by
  intro fuel
  induction fuel with
  | zero => intro y acc base h0 h1; exact ⟨h0, h1⟩
  | succ fuel ih =>
    intro y acc base h0 h1
    simp only [powLoop]
    split_ifs
    · exact ⟨h0, h1⟩
    · exact ih _ _ _ (emod_nonneg _ hm) (emod_lt _ hm)
    · exact ih _ _ _ h0 h1

/-- `powmod` is the residue of the power (R165). -/
theorem powmod_eq (x y : Int) {m : Int} (hm : 0 < m) : powmod x y m = emod (x ^ y.toNat) m := by
  have hr := powLoop_reduced m hm y.toNat y.toNat (emod 1 m) (emod x m) (emod_nonneg _ hm) (emod_lt _ hm)
  have hc := powLoop_congr m y.toNat y.toNat (emod 1 m) (emod x m) le_rfl
  have h1 : emod 1 m * emod x m ^ y.toNat ≡ x ^ y.toNat [ZMOD m] := by
    simpa using (emod_congr 1 m).mul ((emod_congr x m).pow y.toNat)
  have := emod_eq_emod_iff.2 (hc.trans h1)
  rwa [emod_of_lt hr.1 hr.2] at this

/-! ## Inverse (R160) -/

/-- The loop of R160 ends with the greatest common divisor and keeps `r ≡ s * a`. -/
theorem invLoop_spec (a m : Int) : ∀ (fuel : Nat) (r0 r1 s0 s1 : Int), 0 ≤ r0 → 0 ≤ r1 → r1 ≤ fuel →
    r0 ≡ s0 * a [ZMOD m] → r1 ≡ s1 * a [ZMOD m] →
    (invLoop fuel r0 r1 s0 s1).1 = Int.gcd r0 r1 ∧
      (invLoop fuel r0 r1 s0 s1).1 ≡ (invLoop fuel r0 r1 s0 s1).2 * a [ZMOD m] := by
  intro fuel
  induction fuel with
  | zero =>
    intro r0 r1 s0 s1 h0 h1 hf c0 _
    obtain rfl : r1 = 0 := by simp at hf; omega
    refine ⟨?_, c0⟩
    simp [invLoop, abs_of_nonneg h0]
  | succ fuel ih =>
    intro r0 r1 s0 s1 h0 h1 hf c0 c1
    simp only [invLoop]
    split_ifs with hz
    · subst hz
      refine ⟨?_, c0⟩
      simp [abs_of_nonneg h0]
    · have hpos : 0 < r1 := by omega
      have e : r0 - r0 / r1 * r1 = r0 % r1 := by
        have := Int.mul_ediv_add_emod r0 r1
        linarith [mul_comm r1 (r0 / r1)]
      have hr : r0 % r1 < r1 := Int.emod_lt_of_pos _ hpos
      have hn : 0 ≤ r0 % r1 := Int.emod_nonneg _ hz
      have hih := ih r1 (r0 - r0 / r1 * r1) s1 (s0 - r0 / r1 * s1) h1 (by omega) (by push_cast at hf; omega) c1
        (by
          rw [show (s0 - r0 / r1 * s1) * a = s0 * a - r0 / r1 * (s1 * a) by ring]
          exact c0.sub ((Int.ModEq.refl (r0 / r1)).mul c1))
      refine ⟨?_, hih.2⟩
      rw [hih.1, e]
      rw [Int.gcd_comm r1, Int.gcd_emod]

/-- `inv` succeeds exactly when the residue is coprime to the modulus, and then its value is the inverse in `[0, m)`
(R160). -/
theorem inv_cases (a : Int) {m : Int} (hm : 0 < m) :
    (Int.gcd (emod a m) m = 1 ∧ ∃ s, inv a m = some s ∧ 0 ≤ s ∧ s < m ∧ a * s ≡ 1 [ZMOD m]) ∨
      (Int.gcd (emod a m) m ≠ 1 ∧ inv a m = none) := by
  have hn := emod_nonneg a hm
  have h := invLoop_spec (emod a m) m (emod a m).toNat m (emod a m) 0 1 hm.le hn
    (by omega) (by simp) (by simp [Int.ModEq.refl])
  unfold inv
  generalize invLoop (emod a m).toNat m (emod a m) 0 1 = gs at h
  obtain ⟨g, s⟩ := gs
  simp only at h ⊢
  rw [Int.gcd_comm] at h
  by_cases hg : Int.gcd (emod a m) m = 1
  · left
    rw [hg] at h
    obtain ⟨h1, h2⟩ := h
    rw [h1] at h2
    simp only [Nat.cast_one] at h1 h2
    refine ⟨hg, emod s m, by simp [h1], emod_nonneg _ hm, emod_lt _ hm, ?_⟩
    have e1 : a * emod s m ≡ emod a m * s [ZMOD m] := (emod_congr a m).symm.mul (emod_congr s m)
    rw [mul_comm (emod a m)] at e1
    exact e1.trans h2.symm
  · right
    refine ⟨hg, ?_⟩
    rw [if_neg]
    rw [h.1]
    exact_mod_cast hg

/-- There is only one inverse in `[0, m)` (R160). -/
theorem inverse_unique {a m s t : Int} (hs : 0 ≤ s ∧ s < m) (ht : 0 ≤ t ∧ t < m)
    (as_ : a * s ≡ 1 [ZMOD m]) (at_ : a * t ≡ 1 [ZMOD m]) : s = t := by
  have h : s ≡ t [ZMOD m] := by
    have h1 : s * (a * t) ≡ s * 1 [ZMOD m] := (Int.ModEq.refl s).mul at_
    have h2 : (a * s) * t ≡ 1 * t [ZMOD m] := as_.mul (Int.ModEq.refl t)
    have e : s * (a * t) = (a * s) * t := by ring
    rw [e] at h1
    simpa using h1.symm.trans h2
  have := emod_eq_emod_iff.2 h
  rwa [emod_of_lt hs.1 hs.2, emod_of_lt ht.1 ht.2] at this

/-- `R_MONT` is invertible modulo every odd modulus (R175). -/
theorem inv_rMont {m : Int} (hm : 0 < m) (hodd : emod m 2 = 1) :
    ∃ s, inv Config.rMont m = some s ∧ 0 ≤ s ∧ s < m ∧ Config.rMont * s ≡ 1 [ZMOD m] := by
  rcases inv_cases Config.rMont hm with ⟨_, h⟩ | ⟨h, _⟩
  · exact h
  · exfalso
    apply h
    unfold emod
    rw [Int.gcd_emod]
    have h2 : IsCoprime (2 : Int) m := by
      refine ⟨-(m / 2), 1, ?_⟩
      have := Int.mul_ediv_add_emod m 2
      unfold emod at hodd
      omega
    exact Int.isCoprime_iff_gcd_eq_one.1 (IsCoprime.pow_left (m := 576) h2)

/-! ## Square root (R170) -/

/-- `splitLoop` writes its argument as `q * 2^k` with `q` odd, for a positive argument. -/
theorem splitLoop_spec : ∀ (fuel : Nat) (q : Int) (s : Nat), 0 < q → q ≤ fuel →
    ∃ k, (splitLoop fuel q s).2 = s + k ∧ (splitLoop fuel q s).1 * 2 ^ k = q ∧
      0 < (splitLoop fuel q s).1 ∧ emod (splitLoop fuel q s).1 2 = 1 := by
  intro fuel
  induction fuel with
  | zero => intro q s h0 h1; simp at h1; omega
  | succ fuel ih =>
    intro q s h0 h1
    simp only [splitLoop]
    split_ifs with he
    · have he' : q % 2 = 0 := he
      obtain ⟨k, hk, hq, hp, ho⟩ := ih (q / 2) (s + 1) (by omega) (by push_cast at h1; omega)
      refine ⟨k + 1, by omega, ?_, hp, ho⟩
      rw [pow_succ, ← mul_assoc, hq]; omega
    · refine ⟨0, rfl, by simp, h0, ?_⟩
      unfold emod at he ⊢
      omega

/-- The inner search returns the least exponent in its range, or none is there. -/
theorem leastSquaring_cases (p T : Int) (M : Nat) :
    (∃ i, leastSquaring p T M = some i ∧ 1 ≤ i ∧ i < M ∧ powmod T (2 ^ i) p = 1 ∧
        ∀ j, 1 ≤ j → j < i → powmod T (2 ^ j) p ≠ 1) ∨
      (leastSquaring p T M = none ∧ ∀ i, 1 ≤ i → i < M → powmod T (2 ^ i) p ≠ 1) := by
  unfold leastSquaring
  cases h : (List.range' 1 (M - 1)).find? fun i => powmod T (2 ^ i) p = 1 with
  | none =>
    right
    refine ⟨rfl, fun i h1 h2 => ?_⟩
    have := List.find?_eq_none.1 h i (by simp [List.mem_range'_1]; omega)
    simpa using this
  | some i =>
    left
    obtain ⟨hp, as, bs, e, hfirst⟩ := List.find?_eq_some_iff_append.1 h
    have hmem : i ∈ List.range' 1 (M - 1) := by rw [e]; simp
    rw [List.mem_range'_1] at hmem
    refine ⟨i, rfl, hmem.1, by omega, by simpa using hp, fun j h1 h2 => ?_⟩
    have hj : j ∈ List.range' 1 (M - 1) := by rw [List.mem_range'_1]; omega
    rw [e] at hj
    have hs : List.Pairwise (· < ·) (List.range' 1 (M - 1)) := List.pairwise_lt_range'
    rw [e, List.pairwise_append] at hs
    have hlt : j ∈ as := by
      rcases List.mem_append.1 hj with hj | hj
      · exact hj
      · rcases List.mem_cons.1 hj with rfl | hj
        · omega
        · have := (List.pairwise_cons.1 hs.2.1).1 j hj
          omega
    simpa using hfirst j hlt

/-- The search for `z` ends at a non-residue below `p` by Euler's criterion, or at `p` (R170). -/
theorem nonResidueLoop_spec (p : Int) : ∀ (fuel : Nat) (z : Int), z ≤ p → p - z ≤ fuel →
    z ≤ nonResidueLoop p fuel z ∧ nonResidueLoop p fuel z ≤ p ∧
      (nonResidueLoop p fuel z < p → powmod (nonResidueLoop p fuel z) ((p - 1) / 2) p = p - 1) ∧
      ∀ y, z ≤ y → y < nonResidueLoop p fuel z → powmod y ((p - 1) / 2) p ≠ p - 1 := by
  intro fuel
  induction fuel with
  | zero =>
    intro z hz hf
    obtain rfl : z = p := by simp at hf; omega
    simp only [nonResidueLoop]
    exact ⟨le_rfl, le_rfl, fun h => absurd h (lt_irrefl _), fun y h1 h2 => by omega⟩
  | succ fuel ih =>
    intro z hz hf
    simp only [nonResidueLoop]
    split_ifs with h
    · obtain ⟨h1, h2, h3, h4⟩ := ih (z + 1) (by omega) (by push_cast at hf; omega)
      refine ⟨by omega, h2, h3, fun y hy1 hy2 => ?_⟩
      rcases eq_or_lt_of_le hy1 with rfl | hlt
      · exact h.2
      · exact h4 y (by omega) hy2
    · refine ⟨le_rfl, hz, fun hlt => ?_, fun y h1 h2 => by omega⟩
      by_contra hne
      exact h ⟨hlt, hne⟩

/-- A power modulo `p`, as an element of `ZMod p`. -/
theorem cast_powmod {p : Nat} (hp : 0 < p) (x y : Int) : ((powmod x y p : Int) : ZMod p) = (x : ZMod p) ^ y.toNat := by
  rw [powmod_eq x y (by exact_mod_cast hp), cast_emod]; push_cast; rfl

theorem reduced_cast_inj {p : Nat} {x y : Int} (hx : 0 ≤ x ∧ x < p) (hy : 0 ≤ y ∧ y < p)
    (h : (x : ZMod p) = (y : ZMod p)) : x = y := by
  have := (ZMod.intCast_eq_intCast_iff x y p).1 h
  rwa [Int.ModEq, Int.emod_eq_of_lt hx.1 hx.2, Int.emod_eq_of_lt hy.1 hy.2] at this

theorem powmod_eq_one_iff {p : Nat} (hp : 1 < p) (x : Int) (k : Nat) :
    powmod x (2 ^ k : Int) p = 1 ↔ (x : ZMod p) ^ 2 ^ k = 1 := by
  have hk : (2 ^ k : Int).toNat = 2 ^ k := by
    rw [show (2 ^ k : Int) = ((2 ^ k : Nat) : Int) by push_cast; rfl, Int.toNat_natCast]
  have hp0 : (0 : Int) < p := by omega
  constructor
  · intro h
    rw [← hk, ← cast_powmod (by omega), h]; simp
  · intro h
    refine reduced_cast_inj (p := p) ?_ ⟨by omega, by omega⟩ ?_
    · rw [powmod_eq _ _ hp0]; exact ⟨emod_nonneg _ hp0, emod_lt _ hp0⟩
    · rw [cast_powmod (by omega), hk, h]; simp

/-- The main loop of R170 over a prime field, from `C` whose `2^(M-1)`-th power is -1 and `T` whose `2^(M-1)`-th power is 1:
it ends with the one root `R * C^k`, `k` below `2^(M-1)`. -/
theorem sqrtLoop_spec {p : Nat} [Fact p.Prime] : ∀ (fuel M : Nat) (C T R : Int), 1 ≤ M → M ≤ fuel →
    (0 ≤ T ∧ T < p) → (0 ≤ R ∧ R < p) → (C : ZMod p) ^ 2 ^ (M - 1) = -1 → (T : ZMod p) ^ 2 ^ (M - 1) = 1 →
    ∃ k, k < 2 ^ (M - 1) ∧ (T : ZMod p) * (C : ZMod p) ^ (2 * k) = 1 ∧
      ∃ r, sqrtLoop p fuel M C T R = some r ∧ 0 ≤ r ∧ r < p ∧ (r : ZMod p) = (R : ZMod p) * (C : ZMod p) ^ k := by
  have hp1 : 1 < p := (Fact.out : p.Prime).one_lt
  have hpos : (0 : Int) < p := by omega
  intro fuel
  induction fuel with
  | zero => intro M C T R h1 h2; omega
  | succ fuel ih =>
    intro M C T R h1 h2 hT hR hC hT1
    simp only [sqrtLoop]
    by_cases hone : T = 1
    · simp only [hone, if_pos]
      exact ⟨0, by positivity, by simp, R, rfl, hR.1, hR.2, by simp⟩
    have hTne : (T : ZMod p) ≠ 1 := fun h => hone (reduced_cast_inj hT ⟨by omega, by omega⟩ (by simpa using h))
    rw [if_neg hone]
    have hM : 2 ≤ M := by
      by_contra hlt
      obtain rfl : M = 1 := by omega
      exact hTne (by simpa using hT1)
    obtain ⟨i, hi, hi1, hiM, hsq, hleast⟩ | ⟨-, hnone⟩ := leastSquaring_cases p T M
    swap
    · exact absurd ((powmod_eq_one_iff hp1 T (M - 1)).2 hT1) (hnone (M - 1) (by omega) (by omega))
    simp only [hi]
    rw [powmod_eq_one_iff hp1] at hsq
    have hprev : (T : ZMod p) ^ 2 ^ (i - 1) = -1 := by
      have hne : (T : ZMod p) ^ 2 ^ (i - 1) ≠ 1 := by
        rcases eq_or_lt_of_le hi1 with rfl | hlt
        · simpa using hTne
        · have := hleast (i - 1) (by omega) (by omega)
          rwa [ne_eq, powmod_eq_one_iff hp1] at this
      have hs : ((T : ZMod p) ^ 2 ^ (i - 1)) ^ 2 = 1 := by
        rw [← pow_mul, ← pow_succ, show i - 1 + 1 = i by omega, hsq]
      have : ((T : ZMod p) ^ 2 ^ (i - 1) - 1) * ((T : ZMod p) ^ 2 ^ (i - 1) + 1) = 0 := by linear_combination hs
      exact eq_neg_of_add_eq_zero_left ((mul_eq_zero.1 this).resolve_left (sub_ne_zero.2 hne))
    set b := powmod C (2 ^ (M - i - 1)) p with hb
    have hbc : (b : ZMod p) = (C : ZMod p) ^ 2 ^ (M - i - 1) := by
      rw [hb, cast_powmod (by omega), show (2 ^ (M - i - 1) : Int) = ((2 ^ (M - i - 1) : Nat) : Int) by push_cast; rfl,
        Int.toNat_natCast]
    have hCc : ((emod (b * b) p : Int) : ZMod p) = (C : ZMod p) ^ 2 ^ (M - i) := by
      rw [cast_emod]; push_cast; rw [hbc, ← pow_add]; congr 1
      rw [← two_mul, ← pow_succ', show M - i - 1 + 1 = M - i by omega]
    have hC' : ((emod (b * b) p : Int) : ZMod p) ^ 2 ^ (i - 1) = -1 := by
      rw [hCc, ← pow_mul, ← pow_add, show M - i + (i - 1) = M - 1 by omega, hC]
    obtain ⟨k, hk, hTk, r, hr, hr0, hrp, hrc⟩ := ih i (emod (b * b) p) (emod (T * emod (b * b) p) p) (emod (R * b) p) hi1
      (by omega) ⟨emod_nonneg _ hpos, emod_lt _ hpos⟩ ⟨emod_nonneg _ hpos, emod_lt _ hpos⟩ hC'
      (by rw [cast_emod]; push_cast; rw [mul_pow, hprev, hC']; ring)
    refine ⟨2 ^ (M - i - 1) + 2 ^ (M - i) * k, ?_, ?_, r, hr, hr0, hrp, ?_⟩
    · have e1 : 2 ^ (M - i) = 2 * 2 ^ (M - i - 1) := by rw [← pow_succ', show M - i - 1 + 1 = M - i by omega]
      have e2 : 2 ^ (M - 1) = 2 ^ (M - i) * 2 ^ (i - 1) := by rw [← pow_add, show M - i + (i - 1) = M - 1 by omega]
      have : 2 ^ (M - i) * (k + 1) ≤ 2 ^ (M - i) * 2 ^ (i - 1) := Nat.mul_le_mul_left _ hk
      have h0 : 0 < 2 ^ (M - i - 1) := by positivity
      rw [e2]; rw [Nat.mul_add] at this; omega
    · rw [cast_emod] at hTk; push_cast at hTk; rw [hCc] at hTk
      rw [← hTk, ← pow_mul, mul_assoc, ← pow_add]; congr 2
      rw [show 2 ^ (M - i) = 2 * 2 ^ (M - i - 1) by rw [← pow_succ', show M - i - 1 + 1 = M - i by omega]]; ring
    · rw [hrc, cast_emod]; push_cast
      rw [hCc, hbc, ← pow_mul, mul_assoc, ← pow_add]

end Sys2Proof.Machine
end

