-- ==== Sys2Proof/Laws/State.lean ====
section
/-! SUPPORT. One lemma per field for each update of the state, so that no proof unfolds a record update. -/

namespace Sys2Proof.Machine

section
variable (s : State)

/-! ## setReg -/

@[simp] theorem State.setReg_regs (d : Reg) (v : Int) : (s.setReg d v).regs = s.regs.set d (pat v) := rfl
@[simp] theorem State.setReg_ptag (d : Reg) (v : Int) : (s.setReg d v).ptag = s.ptag := rfl
@[simp] theorem State.setReg_curve (d : Reg) (v : Int) : (s.setReg d v).curve = s.curve := rfl
@[simp] theorem State.setReg_curveSize (d : Reg) (v : Int) : (s.setReg d v).curveSize = s.curveSize := rfl
@[simp] theorem State.setReg_hash (d : Reg) (v : Int) : (s.setReg d v).hash = s.hash := rfl
@[simp] theorem State.setReg_hashLen (d : Reg) (v : Int) : (s.setReg d v).hashLen = s.hashLen := rfl
@[simp] theorem State.setReg_cmd (d : Reg) (v : Int) : (s.setReg d v).cmd = s.cmd := rfl
@[simp] theorem State.setReg_result (d : Reg) (v : Int) : (s.setReg d v).result = s.result := rfl
@[simp] theorem State.setReg_wign (d : Reg) (v : Int) : (s.setReg d v).wign = s.wign := rfl
@[simp] theorem State.setReg_errcode (d : Reg) (v : Int) : (s.setReg d v).errcode = s.errcode := rfl
@[simp] theorem State.setReg_done (d : Reg) (v : Int) : (s.setReg d v).done = s.done := rfl
@[simp] theorem State.setReg_doneEn (d : Reg) (v : Int) : (s.setReg d v).doneEn = s.doneEn := rfl
@[simp] theorem State.setReg_engine (d : Reg) (v : Int) : (s.setReg d v).engine = s.engine := rfl
@[simp] theorem State.setReg_schedule (d : Reg) (v : Int) : (s.setReg d v).schedule = s.schedule := rfl
@[simp] theorem State.setReg_response (d : Reg) (v : Int) : (s.setReg d v).response = s.response := rfl

/-! ## setPoint -/

@[simp] theorem State.setPoint_curve (k : PReg) (P : Point) :
    (s.setPoint k P).curve = s.curve := by
  cases P <;> rfl
@[simp] theorem State.setPoint_curveSize (k : PReg) (P : Point) :
    (s.setPoint k P).curveSize = s.curveSize := by
  cases P <;> rfl
@[simp] theorem State.setPoint_hash (k : PReg) (P : Point) :
    (s.setPoint k P).hash = s.hash := by
  cases P <;> rfl
@[simp] theorem State.setPoint_hashLen (k : PReg) (P : Point) :
    (s.setPoint k P).hashLen = s.hashLen := by
  cases P <;> rfl
@[simp] theorem State.setPoint_cmd (k : PReg) (P : Point) :
    (s.setPoint k P).cmd = s.cmd := by
  cases P <;> rfl
@[simp] theorem State.setPoint_result (k : PReg) (P : Point) :
    (s.setPoint k P).result = s.result := by
  cases P <;> rfl
@[simp] theorem State.setPoint_wign (k : PReg) (P : Point) :
    (s.setPoint k P).wign = s.wign := by
  cases P <;> rfl
@[simp] theorem State.setPoint_errcode (k : PReg) (P : Point) :
    (s.setPoint k P).errcode = s.errcode := by
  cases P <;> rfl
@[simp] theorem State.setPoint_done (k : PReg) (P : Point) :
    (s.setPoint k P).done = s.done := by
  cases P <;> rfl
@[simp] theorem State.setPoint_doneEn (k : PReg) (P : Point) :
    (s.setPoint k P).doneEn = s.doneEn := by
  cases P <;> rfl
@[simp] theorem State.setPoint_engine (k : PReg) (P : Point) :
    (s.setPoint k P).engine = s.engine := by
  cases P <;> rfl
@[simp] theorem State.setPoint_schedule (k : PReg) (P : Point) :
    (s.setPoint k P).schedule = s.schedule := by
  cases P <;> rfl
@[simp] theorem State.setPoint_response (k : PReg) (P : Point) :
    (s.setPoint k P).response = s.response := by
  cases P <;> rfl
@[simp] theorem State.setPoint_identity_regs (k : PReg) :
    (s.setPoint k .identity).regs = (s.regs.set k.xReg 0).set k.yReg 0 := rfl
@[simp] theorem State.setPoint_identity_ptag (k : PReg) :
    (s.setPoint k .identity).ptag = tagWith s.ptag k true := rfl
@[simp] theorem State.setPoint_affine_regs (k : PReg) (x y : Int) :
    (s.setPoint k (.affine x y)).regs = (s.regs.set k.xReg (pat x)).set k.yReg (pat y) := rfl
@[simp] theorem State.setPoint_affine_ptag (k : PReg) (x y : Int) :
    (s.setPoint k (.affine x y)).ptag = tagWith s.ptag k false := rfl

/-! ## setResult -/

@[simp] theorem State.setResult_regs (r : Option Bool) :
    (s.setResult r).regs = s.regs := by
  cases r <;> rfl
@[simp] theorem State.setResult_ptag (r : Option Bool) :
    (s.setResult r).ptag = s.ptag := by
  cases r <;> rfl
@[simp] theorem State.setResult_curve (r : Option Bool) :
    (s.setResult r).curve = s.curve := by
  cases r <;> rfl
@[simp] theorem State.setResult_curveSize (r : Option Bool) :
    (s.setResult r).curveSize = s.curveSize := by
  cases r <;> rfl
@[simp] theorem State.setResult_hash (r : Option Bool) :
    (s.setResult r).hash = s.hash := by
  cases r <;> rfl
@[simp] theorem State.setResult_hashLen (r : Option Bool) :
    (s.setResult r).hashLen = s.hashLen := by
  cases r <;> rfl
@[simp] theorem State.setResult_cmd (r : Option Bool) :
    (s.setResult r).cmd = s.cmd := by
  cases r <;> rfl
@[simp] theorem State.setResult_wign (r : Option Bool) :
    (s.setResult r).wign = s.wign := by
  cases r <;> rfl
@[simp] theorem State.setResult_errcode (r : Option Bool) :
    (s.setResult r).errcode = s.errcode := by
  cases r <;> rfl
@[simp] theorem State.setResult_done (r : Option Bool) :
    (s.setResult r).done = s.done := by
  cases r <;> rfl
@[simp] theorem State.setResult_doneEn (r : Option Bool) :
    (s.setResult r).doneEn = s.doneEn := by
  cases r <;> rfl
@[simp] theorem State.setResult_engine (r : Option Bool) :
    (s.setResult r).engine = s.engine := by
  cases r <;> rfl
@[simp] theorem State.setResult_schedule (r : Option Bool) :
    (s.setResult r).schedule = s.schedule := by
  cases r <;> rfl
@[simp] theorem State.setResult_response (r : Option Bool) :
    (s.setResult r).response = s.response := by
  cases r <;> rfl
@[simp] theorem State.setResult_result (r : Option Bool) : (s.setResult r).result = r.getD s.result := by
  cases r <;> rfl

/-! ## applyUpdate -/

@[simp] theorem State.applyUpdate_curve (w : Option Update) :
    (s.applyUpdate w).curve = s.curve := by
  rcases w with _ | ⟨_, _⟩ | ⟨_, _ | _⟩ <;> rfl
@[simp] theorem State.applyUpdate_curveSize (w : Option Update) :
    (s.applyUpdate w).curveSize = s.curveSize := by
  rcases w with _ | ⟨_, _⟩ | ⟨_, _ | _⟩ <;> rfl
@[simp] theorem State.applyUpdate_hash (w : Option Update) :
    (s.applyUpdate w).hash = s.hash := by
  rcases w with _ | ⟨_, _⟩ | ⟨_, _ | _⟩ <;> rfl
@[simp] theorem State.applyUpdate_hashLen (w : Option Update) :
    (s.applyUpdate w).hashLen = s.hashLen := by
  rcases w with _ | ⟨_, _⟩ | ⟨_, _ | _⟩ <;> rfl
@[simp] theorem State.applyUpdate_cmd (w : Option Update) :
    (s.applyUpdate w).cmd = s.cmd := by
  rcases w with _ | ⟨_, _⟩ | ⟨_, _ | _⟩ <;> rfl
@[simp] theorem State.applyUpdate_result (w : Option Update) :
    (s.applyUpdate w).result = s.result := by
  rcases w with _ | ⟨_, _⟩ | ⟨_, _ | _⟩ <;> rfl
@[simp] theorem State.applyUpdate_wign (w : Option Update) :
    (s.applyUpdate w).wign = s.wign := by
  rcases w with _ | ⟨_, _⟩ | ⟨_, _ | _⟩ <;> rfl
@[simp] theorem State.applyUpdate_errcode (w : Option Update) :
    (s.applyUpdate w).errcode = s.errcode := by
  rcases w with _ | ⟨_, _⟩ | ⟨_, _ | _⟩ <;> rfl
@[simp] theorem State.applyUpdate_done (w : Option Update) :
    (s.applyUpdate w).done = s.done := by
  rcases w with _ | ⟨_, _⟩ | ⟨_, _ | _⟩ <;> rfl
@[simp] theorem State.applyUpdate_doneEn (w : Option Update) :
    (s.applyUpdate w).doneEn = s.doneEn := by
  rcases w with _ | ⟨_, _⟩ | ⟨_, _ | _⟩ <;> rfl
@[simp] theorem State.applyUpdate_engine (w : Option Update) :
    (s.applyUpdate w).engine = s.engine := by
  rcases w with _ | ⟨_, _⟩ | ⟨_, _ | _⟩ <;> rfl
@[simp] theorem State.applyUpdate_schedule (w : Option Update) :
    (s.applyUpdate w).schedule = s.schedule := by
  rcases w with _ | ⟨_, _⟩ | ⟨_, _ | _⟩ <;> rfl
@[simp] theorem State.applyUpdate_response (w : Option Update) :
    (s.applyUpdate w).response = s.response := by
  rcases w with _ | ⟨_, _⟩ | ⟨_, _ | _⟩ <;> rfl
@[simp] theorem State.applyUpdate_none : s.applyUpdate none = s := rfl
@[simp] theorem State.applyUpdate_reg (d : Reg) (v : Int) : s.applyUpdate (some (.reg d v)) = s.setReg d v := rfl
@[simp] theorem State.applyUpdate_point (k : PReg) (P : Point) :
    s.applyUpdate (some (.point k P)) = s.setPoint k P := rfl

/-! ## retire -/

@[simp] theorem State.retire_regs (e : BitVec 8) : (s.retire e).regs = s.regs := rfl
@[simp] theorem State.retire_ptag (e : BitVec 8) : (s.retire e).ptag = s.ptag := rfl
@[simp] theorem State.retire_curve (e : BitVec 8) : (s.retire e).curve = s.curve := rfl
@[simp] theorem State.retire_curveSize (e : BitVec 8) : (s.retire e).curveSize = s.curveSize := rfl
@[simp] theorem State.retire_hash (e : BitVec 8) : (s.retire e).hash = s.hash := rfl
@[simp] theorem State.retire_hashLen (e : BitVec 8) : (s.retire e).hashLen = s.hashLen := rfl
@[simp] theorem State.retire_cmd (e : BitVec 8) : (s.retire e).cmd = s.cmd := rfl
@[simp] theorem State.retire_result (e : BitVec 8) : (s.retire e).result = s.result := rfl
@[simp] theorem State.retire_wign (e : BitVec 8) : (s.retire e).wign = s.wign := rfl
@[simp] theorem State.retire_errcode (e : BitVec 8) : (s.retire e).errcode = e := rfl
@[simp] theorem State.retire_done (e : BitVec 8) : (s.retire e).done = true := rfl
@[simp] theorem State.retire_doneEn (e : BitVec 8) : (s.retire e).doneEn = s.doneEn := rfl
@[simp] theorem State.retire_engine (e : BitVec 8) : (s.retire e).engine = .idle := rfl
@[simp] theorem State.retire_schedule (e : BitVec 8) : (s.retire e).schedule = s.schedule := rfl
@[simp] theorem State.retire_response (e : BitVec 8) : (s.retire e).response = s.response := rfl

/-! ## commitErr -/

@[simp] theorem State.commitErr_regs (e : ErrCode) : (s.commitErr e).regs = s.regs := rfl
@[simp] theorem State.commitErr_ptag (e : ErrCode) : (s.commitErr e).ptag = s.ptag := rfl
@[simp] theorem State.commitErr_curve (e : ErrCode) : (s.commitErr e).curve = s.curve := rfl
@[simp] theorem State.commitErr_curveSize (e : ErrCode) : (s.commitErr e).curveSize = s.curveSize := rfl
@[simp] theorem State.commitErr_hash (e : ErrCode) : (s.commitErr e).hash = s.hash := rfl
@[simp] theorem State.commitErr_hashLen (e : ErrCode) : (s.commitErr e).hashLen = s.hashLen := rfl
@[simp] theorem State.commitErr_cmd (e : ErrCode) : (s.commitErr e).cmd = s.cmd := rfl
@[simp] theorem State.commitErr_result (e : ErrCode) : (s.commitErr e).result = s.result := rfl
@[simp] theorem State.commitErr_wign (e : ErrCode) : (s.commitErr e).wign = s.wign := rfl
@[simp] theorem State.commitErr_errcode (e : ErrCode) : (s.commitErr e).errcode = e.code := rfl
@[simp] theorem State.commitErr_done (e : ErrCode) : (s.commitErr e).done = true := rfl
@[simp] theorem State.commitErr_doneEn (e : ErrCode) : (s.commitErr e).doneEn = s.doneEn := rfl
@[simp] theorem State.commitErr_engine (e : ErrCode) : (s.commitErr e).engine = .idle := rfl
@[simp] theorem State.commitErr_schedule (e : ErrCode) : (s.commitErr e).schedule = s.schedule := rfl
@[simp] theorem State.commitErr_response (e : ErrCode) : (s.commitErr e).response = s.response := rfl

/-! ## commitOk -/

@[simp] theorem State.commitOk_regs (w : Option Update) (r : Option Bool) :
    (s.commitOk w r).regs = (s.applyUpdate w).regs := by
  simp [State.commitOk]
@[simp] theorem State.commitOk_ptag (w : Option Update) (r : Option Bool) :
    (s.commitOk w r).ptag = (s.applyUpdate w).ptag := by
  simp [State.commitOk]
@[simp] theorem State.commitOk_curve (w : Option Update) (r : Option Bool) :
    (s.commitOk w r).curve = s.curve := by
  simp [State.commitOk]
@[simp] theorem State.commitOk_curveSize (w : Option Update) (r : Option Bool) :
    (s.commitOk w r).curveSize = s.curveSize := by
  simp [State.commitOk]
@[simp] theorem State.commitOk_hash (w : Option Update) (r : Option Bool) :
    (s.commitOk w r).hash = s.hash := by
  simp [State.commitOk]
@[simp] theorem State.commitOk_hashLen (w : Option Update) (r : Option Bool) :
    (s.commitOk w r).hashLen = s.hashLen := by
  simp [State.commitOk]
@[simp] theorem State.commitOk_cmd (w : Option Update) (r : Option Bool) :
    (s.commitOk w r).cmd = s.cmd := by
  simp [State.commitOk]
@[simp] theorem State.commitOk_result (w : Option Update) (r : Option Bool) :
    (s.commitOk w r).result = r.getD s.result := by
  simp [State.commitOk]
@[simp] theorem State.commitOk_wign (w : Option Update) (r : Option Bool) :
    (s.commitOk w r).wign = s.wign := by
  simp [State.commitOk]
@[simp] theorem State.commitOk_errcode (w : Option Update) (r : Option Bool) :
    (s.commitOk w r).errcode = 0 := by
  simp [State.commitOk]
@[simp] theorem State.commitOk_done (w : Option Update) (r : Option Bool) :
    (s.commitOk w r).done = true := by
  simp [State.commitOk]
@[simp] theorem State.commitOk_doneEn (w : Option Update) (r : Option Bool) :
    (s.commitOk w r).doneEn = s.doneEn := by
  simp [State.commitOk]
@[simp] theorem State.commitOk_engine (w : Option Update) (r : Option Bool) :
    (s.commitOk w r).engine = .idle := by
  simp [State.commitOk]
@[simp] theorem State.commitOk_schedule (w : Option Update) (r : Option Bool) :
    (s.commitOk w r).schedule = s.schedule := by
  simp [State.commitOk]
@[simp] theorem State.commitOk_response (w : Option Update) (r : Option Bool) :
    (s.commitOk w r).response = s.response := by
  simp [State.commitOk]

/-! ## accept -/

@[simp] theorem State.accept_regs (v : Word) : (s.accept v).regs = s.regs := rfl
@[simp] theorem State.accept_ptag (v : Word) : (s.accept v).ptag = s.ptag := rfl
@[simp] theorem State.accept_curve (v : Word) : (s.accept v).curve = s.curve := rfl
@[simp] theorem State.accept_curveSize (v : Word) : (s.accept v).curveSize = s.curveSize := rfl
@[simp] theorem State.accept_hash (v : Word) : (s.accept v).hash = s.hash := rfl
@[simp] theorem State.accept_hashLen (v : Word) : (s.accept v).hashLen = s.hashLen := rfl
@[simp] theorem State.accept_cmd (v : Word) : (s.accept v).cmd = v := rfl
@[simp] theorem State.accept_result (v : Word) : (s.accept v).result = s.result := rfl
@[simp] theorem State.accept_wign (v : Word) : (s.accept v).wign = s.wign := rfl
@[simp] theorem State.accept_errcode (v : Word) : (s.accept v).errcode = 0 := rfl
@[simp] theorem State.accept_done (v : Word) : (s.accept v).done = s.done := rfl
@[simp] theorem State.accept_doneEn (v : Word) : (s.accept v).doneEn = s.doneEn := rfl
@[simp] theorem State.accept_engine (v : Word) : (s.accept v).engine = .busy v := rfl
@[simp] theorem State.accept_schedule (v : Word) : (s.accept v).schedule = s.schedule := rfl
@[simp] theorem State.accept_response (v : Word) : (s.accept v).response = s.response := rfl

/-! ## resetEvent -/

@[simp] theorem State.resetEvent_regs : s.resetEvent.regs = State.reset.regs := rfl
@[simp] theorem State.resetEvent_ptag : s.resetEvent.ptag = State.reset.ptag := rfl
@[simp] theorem State.resetEvent_curve : s.resetEvent.curve = State.reset.curve := rfl
@[simp] theorem State.resetEvent_curveSize : s.resetEvent.curveSize = State.reset.curveSize := rfl
@[simp] theorem State.resetEvent_hash : s.resetEvent.hash = State.reset.hash := rfl
@[simp] theorem State.resetEvent_hashLen : s.resetEvent.hashLen = State.reset.hashLen := rfl
@[simp] theorem State.resetEvent_cmd : s.resetEvent.cmd = State.reset.cmd := rfl
@[simp] theorem State.resetEvent_result : s.resetEvent.result = State.reset.result := rfl
@[simp] theorem State.resetEvent_wign : s.resetEvent.wign = State.reset.wign := rfl
@[simp] theorem State.resetEvent_errcode : s.resetEvent.errcode = State.reset.errcode := rfl
@[simp] theorem State.resetEvent_done : s.resetEvent.done = State.reset.done := rfl
@[simp] theorem State.resetEvent_doneEn : s.resetEvent.doneEn = State.reset.doneEn := rfl
@[simp] theorem State.resetEvent_engine : s.resetEvent.engine = State.reset.engine := rfl
@[simp] theorem State.resetEvent_schedule : s.resetEvent.schedule = s.schedule := rfl
@[simp] theorem State.resetEvent_response : s.resetEvent.response = State.reset.response := rfl

end

end Sys2Proof.Machine
end

