-- ==== Sys2Proof/Laws/Bus.lean ====
section
/-! SUPPORT. The register window: words of wide registers, the address map, and what a write can do. -/

namespace Sys2Proof.Machine

/-! ## Words of a wide register (R73, R87) -/

theorem getLsbD_setWideWord (r : Wide) (j : Fin 18) (v : Word) (n : Nat) :
    (setWideWord r j v).getLsbD n =
      if 32 * j.val ≤ n ∧ n < 32 * j.val + 32 then v.getLsbD (n - 32 * j.val) else r.getLsbD n := by
  have hj := j.isLt
  unfold setWideWord
  simp only [BitVec.getLsbD_or, BitVec.getLsbD_and, BitVec.getLsbD_not, BitVec.getLsbD_shiftLeft,
    BitVec.truncate_eq_setWidth, BitVec.getLsbD_setWidth, BitVec.getLsbD_allOnes]
  by_cases hn : n < 576
  · split_ifs with h
    · have h1 : ¬ n < 32 * j.val := by omega
      have h2 : n - 32 * j.val < 576 := by omega
      have h3 : n - 32 * j.val < 32 := by omega
      simp [hn, h1, h2, h3]
    · by_cases h1 : n < 32 * j.val
      · simp [hn, h1]
      · have h3 : ¬ n - 32 * j.val < 32 := by omega
        have h4 : v.getLsbD (n - 32 * j.val) = false := BitVec.getLsbD_of_ge _ _ (by omega)
        simp [hn, h3, h4]
  · have h0 : r.getLsbD n = false := BitVec.getLsbD_of_ge _ _ (by omega)
    have h1 : ¬ (32 * j.val ≤ n ∧ n < 32 * j.val + 32) := by omega
    simp [hn, h0, h1]

@[simp] theorem wideWord_setWideWord (r : Wide) (j : Fin 18) (v : Word) : wideWord (setWideWord r j v) j = v := by
  apply BitVec.eq_of_getLsbD_eq
  intro i hi
  simp only [wideWord, BitVec.getLsbD_extractLsb', hi, decide_true, Bool.true_and, getLsbD_setWideWord]
  rw [if_pos (by omega)]
  congr 1; omega

theorem wideWord_setWideWord_ne (r : Wide) {j k : Fin 18} (h : k ≠ j) (v : Word) :
    wideWord (setWideWord r j v) k = wideWord r k := by
  apply BitVec.eq_of_getLsbD_eq
  intro i hi
  have : k.val ≠ j.val := fun e => h (Fin.ext e)
  simp only [wideWord, BitVec.getLsbD_extractLsb', hi, decide_true, Bool.true_and, getLsbD_setWideWord]
  rw [if_neg (by omega)]

/-- A wide register is its 18 words. -/
theorem wide_ext {a b : Wide} (h : ∀ j : Fin 18, wideWord a j = wideWord b j) : a = b := by
  apply BitVec.eq_of_getLsbD_eq
  intro n hn
  have := congrArg (fun w : Word => w.getLsbD (n % 32)) (h ⟨n / 32, by omega⟩)
  simp only [wideWord, BitVec.getLsbD_extractLsb'] at this
  rw [show 32 * (n / 32) + n % 32 = n by omega] at this
  simpa [Nat.mod_lt] using this

/-! ## Words of HASH (R74) -/

theorem lane_append (b3 b2 b1 b0 : Byte) :
    lane (b3 ++ b2 ++ b1 ++ b0) 0 = b0 ∧ lane (b3 ++ b2 ++ b1 ++ b0) 1 = b1 ∧
      lane (b3 ++ b2 ++ b1 ++ b0) 2 = b2 ∧ lane (b3 ++ b2 ++ b1 ++ b0) 3 = b3 := by
  refine ⟨?_, ?_, ?_, ?_⟩ <;>
  · apply BitVec.eq_of_getLsbD_eq
    intro i hi
    simp only [lane, BitVec.getLsbD_extractLsb', BitVec.getLsbD_append, hi, decide_true, Bool.true_and]
    interval_cases i <;> simp

theorem append_lanes (v : Word) : lane v 3 ++ lane v 2 ++ lane v 1 ++ lane v 0 = v := by
  apply BitVec.eq_of_getLsbD_eq
  intro i hi
  simp only [lane, BitVec.getLsbD_extractLsb', BitVec.getLsbD_append]
  interval_cases i <;> simp

@[simp] theorem hashWord_setHashWord (h : Vector Byte 72) (j : Fin 18) (v : Word) :
    hashWord (setHashWord h j v) j = v := by
  conv_rhs => rw [← append_lanes v]
  simp [hashWord, setHashWord]

theorem hashWord_setHashWord_ne (h : Vector Byte 72) {j k : Fin 18} (hk : k ≠ j) (v : Word) :
    hashWord (setHashWord h j v) k = hashWord h k := by
  have : k.val ≠ j.val := fun e => hk (Fin.ext e)
  simp only [hashWord, setHashWord, Vector.getElem_set]
  have e : ∀ a b : Nat, a < 4 → b < 4 → ¬ 4 * j.val + a = 4 * k.val + b := by omega
  simp [e 3 2, e 2 1, e 3 1, show ∀ b, b < 4 → ¬ 4 * j.val = 4 * k.val + b from fun b hb => e 0 b (by omega) hb,
    show ∀ a, a < 4 → ¬ 4 * j.val + a = 4 * k.val from fun a ha => e a 0 ha (by omega), this.symm]

/-! ## The address map (R80) -/

theorem curveSlot_lt (n : Nat) (hn : n < 7) : curveBase (curveSlot n) = 0x080 + 0x80 * n := by
  interval_cases n <;> rfl

theorem slotWord_eq (j : Nat) (f : Fin 18 → Loc) :
    (∃ h : j < 18, slotWord j f = f ⟨j, h⟩) ∨ (18 ≤ j ∧ slotWord j f = .reserved) := by
  unfold slotWord
  split_ifs with h
  · exact .inl ⟨h, rfl⟩
  · exact .inr ⟨by omega, rfl⟩

theorem locate_reg (i : Reg) (j : Fin 18) : locate (regBase i + 4 * j.val) = .reg i j := by
  have hi := i.isLt
  have hj := j.isLt
  unfold locate regBase
  rw [if_neg (by omega), if_neg (by omega), if_neg (by omega), slotWord, dif_pos (by omega)]
  congr 1
  · apply Fin.ext
    simp only [Fin.ofNat]
    omega
  · apply Fin.ext
    simp only
    omega

theorem locate_curve (c : CurveReg) (j : Fin 18) : locate (curveBase c + 4 * j.val) = .curve c j := by
  have hj := j.isLt
  have key : ∀ n : Nat, n < 7 → locate (0x080 + 0x80 * n + 4 * j.val) = .curve (curveSlot n) j := by
    intro n hn
    unfold locate
    rw [if_neg (by omega), if_pos (by omega), slotWord, dif_pos (by omega)]
    congr 1
    · congr 1; omega
    · apply Fin.ext
      simp only
      omega
  cases c
  · exact key 0 (by omega)
  · exact key 1 (by omega)
  · exact key 2 (by omega)
  · exact key 3 (by omega)
  · exact key 4 (by omega)
  · exact key 5 (by omega)
  · exact key 6 (by omega)

theorem locate_hash (j : Fin 18) : locate (0x400 + 4 * j.val) = .hash j := by
  have hj := j.isLt
  unfold locate
  rw [if_neg (by omega), if_neg (by omega), if_pos (by omega), slotWord, dif_pos (by omega)]
  congr 1
  apply Fin.ext
  simp only
  omega

/-- Where a word of the window stands, for every word that is not reserved (R80). -/
def Loc.offset : Loc → Nat
  | .id => 0x000
  | .cmd => 0x004
  | .status => 0x008
  | .errcode => 0x00C
  | .intrState => 0x010
  | .intrEnable => 0x014
  | .ptag => 0x018
  | .hashLen => 0x01C
  | .curveSize => 0x020
  | .curve c j => curveBase c + 4 * j.val
  | .hash j => 0x400 + 4 * j.val
  | .reg i j => regBase i + 4 * j.val
  | .reserved => 0x024

/-- The map sends one offset to each word: a 4-aligned offset that is not reserved is its word's own. -/
theorem offset_locate {off : Nat} (h4 : off % 4 = 0) (hw : off < 4096) (hr : locate off ≠ .reserved) :
    (locate off).offset = off := by
  unfold locate at hr ⊢
  split_ifs at hr ⊢ with h1 h2 h3
  · obtain ⟨n, rfl⟩ : ∃ n, off = 4 * n := ⟨off / 4, by omega⟩
    rw [Nat.mul_div_cancel_left _ (by omega)] at hr ⊢
    have hn : n < 32 := by omega
    interval_cases n <;> first | rfl | exact absurd rfl hr
  · rcases slotWord_eq (off % 0x80 / 4) (.curve (curveSlot ((off - 0x080) / 0x80))) with ⟨h, e⟩ | ⟨h, e⟩
    · rw [e]
      simp only [Loc.offset]
      rw [curveSlot_lt _ (by omega)]
      omega
    · exact absurd e hr
  · rcases slotWord_eq ((off - 0x400) / 4) .hash with ⟨h, e⟩ | ⟨h, e⟩
    · rw [e]
      simp only [Loc.offset]
      omega
    · exact absurd e hr
  · rcases slotWord_eq (off % 0x80 / 4) (.reg (Fin.ofNat 16 ((off - 0x800) / 0x80))) with ⟨h, e⟩ | ⟨h, e⟩
    · rw [e]
      simp only [Loc.offset, regBase, Fin.ofNat]
      omega
    · exact absurd e hr

/-! ## What a write can do (R85) -/

/-- While BUSY a write reaches only WIGN, DONE and DONE_EN (R85, R86). -/
theorem writeLoc_busy {s : State} (hb : s.busy = true) (v : Word) (l : Loc) :
    s.writeLoc v l = { s with
      wign := (s.writeLoc v l).wign
      done := (s.writeLoc v l).done
      doneEn := (s.writeLoc v l).doneEn } := by
  cases l <;> simp only [State.writeLoc, hb, if_true] <;> split_ifs <;> rfl

/-- While IDLE a gated write stores its word (R85). -/
theorem writeLoc_gated_idle {s : State} (hb : s.busy = false) (v : Word) {l : Loc} (hl : l.gated = true) :
    s.writeLoc v l = s.store v l := by
  cases l <;> simp_all [State.writeLoc, Loc.gated]

/-- While BUSY a gated write sets WIGN and nothing else (R46, R85). -/
theorem writeLoc_gated_busy {s : State} (hb : s.busy = true) (v : Word) {l : Loc} (hl : l.gated = true) :
    s.writeLoc v l = { s with wign := true } := by
  cases l <;> simp_all [State.writeLoc, Loc.gated]

/-- The three things an access does: nothing the block sees, a read, or a write (R71, R76, R79). -/
theorem hostAccess_cases (s : State) (a : Access) :
    (∃ r, s.hostAccess a = { s with response := r }) ∨
      ∃ v l, s.hostAccess a = { s.writeLoc v l with response := some .writeOk } := by
  cases a with
  | read addr width =>
    left
    cases h : windowOffset addr with
    | none => exact ⟨none, by simp only [State.hostAccess, h]⟩
    | some off => exact ⟨some (s.memRead off width), by simp only [State.hostAccess, h]⟩
  | write addr width v =>
    cases h : windowOffset addr with
    | none => exact .inl ⟨none, by simp only [State.hostAccess, h]⟩
    | some off =>
      by_cases hl : legalAccess off width
      · exact .inr ⟨v, locate off, by simp only [State.hostAccess, State.memWrite, h, hl, if_true]⟩
      · exact .inl ⟨some .writeError, by simp only [State.hostAccess, State.memWrite, h, hl, if_false, Bool.false_eq_true]⟩

/-- Inside the window the offset is the distance from BASE (R71). -/
theorem windowOffset_base (off : Nat) (h : off < 4096) : windowOffset (Config.base + off) = some off := by
  simp [windowOffset, Config.window, h]

end Sys2Proof.Machine
end

