-- ==== Sys2Proof/Laws/Decode.lean ====
section
/-! SUPPORT. Words and fields, and the operand forms of the decoder. -/

namespace Sys2Proof

@[simp] theorem Fields.ofWord_toWord (f : Fields) : Fields.ofWord f.toWord = f := by
  obtain ⟨opc, d, a, b, c, rsv⟩ := f
  simp only [Fields.ofWord, Fields.toWord, Fields.mk.injEq]
  refine ⟨?_, ?_, ?_, ?_, ?_, ?_⟩ <;>
  · apply BitVec.eq_of_getLsbD_eq
    intro i hi
    simp only [BitVec.getLsbD_extractLsb', BitVec.getLsbD_append, hi, decide_true, Bool.true_and]
    interval_cases i <;> simp

@[simp] theorem Fields.toWord_ofWord (w : Word) : (Fields.ofWord w).toWord = w := by
  apply BitVec.eq_of_getLsbD_eq
  intro i hi
  simp only [Fields.ofWord, Fields.toWord, BitVec.getLsbD_extractLsb', BitVec.getLsbD_append]
  interval_cases i <;> simp

theorem Fields.toWord_inj {f g : Fields} : f.toWord = g.toWord ↔ f = g :=
  ⟨fun h => by rw [← Fields.ofWord_toWord f, h, Fields.ofWord_toWord], fun h => by rw [h]⟩

/-- Masking a word masks its fields. -/
theorem Fields.toWord_and (f g : Fields) : f.toWord &&& g.toWord =
    Fields.toWord ⟨f.opc &&& g.opc, f.d &&& g.d, f.a &&& g.a, f.b &&& g.b, f.c &&& g.c, f.rsv &&& g.rsv⟩ := by
  apply BitVec.eq_of_getLsbD_eq
  intro i _
  simp only [Fields.toWord, BitVec.getLsbD_and, BitVec.getLsbD_append]
  split_ifs <;> rfl

/-- A row accepts a word exactly when each masked field has the row's value (R111). -/
theorem Row.accepts_iff (r : Row) (f : Fields) : r.accepts f.toWord = true ↔
    f.opc &&& (Fields.ofWord r.mask).opc = (Fields.ofWord r.value).opc ∧
      f.d &&& (Fields.ofWord r.mask).d = (Fields.ofWord r.value).d ∧
      f.a &&& (Fields.ofWord r.mask).a = (Fields.ofWord r.value).a ∧
      f.b &&& (Fields.ofWord r.mask).b = (Fields.ofWord r.value).b ∧
      f.c &&& (Fields.ofWord r.mask).c = (Fields.ofWord r.value).c ∧
      f.rsv &&& (Fields.ofWord r.mask).rsv = (Fields.ofWord r.value).rsv := by
  have h : r.accepts f.toWord = true ↔
      f.toWord &&& (Fields.ofWord r.mask).toWord = (Fields.ofWord r.value).toWord := by
    simp [Row.accepts]
  rw [h, Fields.toWord_and, Fields.toWord_inj, Fields.ext_iff]

@[simp] theorem regOfField_fieldOfReg (r : Reg) : regOfField (fieldOfReg r) = r := rfl

@[simp] theorem fieldOfReg_regOfField (f : BitVec 4) : fieldOfReg (regOfField f) = f := rfl

@[simp] theorem pregOfField_fieldOfPReg (k : PReg) : pregOfField (fieldOfPReg k) = some k := by
  revert k; decide

theorem fieldOfPReg_of_some {f : BitVec 4} {k : PReg} (h : pregOfField f = some k) : fieldOfPReg k = f := by
  revert f k; decide

theorem pregOfField_eq_none {f : BitVec 4} : pregOfField f = none ↔ f.getLsbD 0 = true := by
  revert f; decide

theorem unusedField_eq_some {f : BitVec 4} {u : Unit} : unusedField f = some u ↔ f = 0#4 := by
  unfold unusedField; split_ifs with h <;> simp [h]

theorem unusedField_eq_none {f : BitVec 4} : unusedField f = none ↔ f ≠ 0#4 := by
  unfold unusedField; split_ifs with h <;> simp [h]

end Sys2Proof
end

