-- ==== Sys2Proof/Laws/Jacobian.lean ====
section
/-! SUPPORT. The Jacobian helpers: their range, the loop of `jmul`, and, over a prime field, that they compute the group law
of the curve. -/

namespace Sys2Proof.Machine

/-! ## Range -/

/-- A triple with coordinates in `[0, p)` (R204). -/
structure Jac.Reduced (c : Curve) (J : Jac) : Prop where
  x0 : 0 ≤ J.X
  x1 : J.X < c.p
  y0 : 0 ≤ J.Y
  y1 : J.Y < c.p
  z0 : 0 ≤ J.Z
  z1 : J.Z < c.p

theorem Jac.id_reduced {c : Curve} (hp : 1 < c.p) : Jac.id.Reduced c := by
  constructor <;> simp only [Jac.id] <;> omega

theorem reduced_of_emod {c : Curve} (hp : 0 < c.p) (x y z : Int) :
    Jac.Reduced c ⟨emod x c.p, emod y c.p, emod z c.p⟩ :=
  ⟨emod_nonneg _ hp, emod_lt _ hp, emod_nonneg _ hp, emod_lt _ hp, emod_nonneg _ hp, emod_lt _ hp⟩

theorem fromAffine_reduced {c : Curve} (hp : 1 < c.p) (P : Point) : (fromAffine c P).Reduced c := by
  cases P with
  | identity => exact Jac.id_reduced hp
  | affine x y =>
    have h : (0 : Int) < c.p := by omega
    exact ⟨emod_nonneg _ h, emod_lt _ h, emod_nonneg _ h, emod_lt _ h, by simp [fromAffine], hp⟩

theorem jdouble_reduced {c : Curve} (hp : 1 < c.p) (J : Jac) : (jdouble c J).Reduced c := by
  unfold jdouble
  split_ifs
  · exact Jac.id_reduced hp
  · exact Jac.id_reduced hp
  · exact reduced_of_emod (by omega) _ _ _

theorem jadd_reduced {c : Curve} (hp : 1 < c.p) {J K : Jac} (hJ : J.Reduced c) (hK : K.Reduced c) :
    (jadd c J K).Reduced c := by
  unfold jadd
  dsimp only
  split_ifs
  · exact hK
  · exact hJ
  · exact Jac.id_reduced hp
  · exact jdouble_reduced hp J
  · exact reduced_of_emod (by omega) _ _ _

/-! ## Special cases (R206, R207) -/

@[simp] theorem jdouble_id (c : Curve) : jdouble c Jac.id = Jac.id := rfl

@[simp] theorem jadd_id_left (c : Curve) (J : Jac) : jadd c Jac.id J = J := rfl

theorem jadd_id_right (c : Curve) {J : Jac} (hJ : J.Z ≠ 0) : jadd c J Jac.id = J := by
  simp [jadd, hJ, Jac.id]

/-- `jadd(P, P) = jdouble(P)` (R207). -/
theorem jadd_self (c : Curve) {J : Jac} (hJ : J.Z ≠ 0) : jadd c J J = jdouble c J := by
  simp [jadd, hJ]

/-! ## Conversion (R205) and curve validity (R201) -/

theorem groupOk_iff (c : Curve) : c.groupOk = true ↔ 3 ≤ c.p ∧ c.p % 2 = 1 := by
  unfold Curve.groupOk emod
  simp

/-- The affine form by any inverse of `Z` modulo `p`, prime or not: the one `inv` finds gives the same residues. -/
theorem toAffine_of_inverse {c : Curve} (hp : 1 < c.p) {J : Jac} {zi : Int} (h : J.Z * zi ≡ 1 [ZMOD c.p]) :
    toAffine c J = some (.affine (emod (J.X * zi * zi) c.p) (emod (J.Y * zi * zi * zi) c.p)) := by
  have hz : J.Z ≠ 0 := by
    rintro e
    rw [e, zero_mul] at h
    have := Int.le_of_dvd (by decide) (Int.modEq_zero_iff_dvd.1 h.symm)
    omega
  have hg : Int.gcd (emod J.Z c.p) c.p = 1 := by
    rw [show Int.gcd (emod J.Z c.p) c.p = Int.gcd J.Z c.p from Int.gcd_emod _ _, ← Int.isCoprime_iff_gcd_eq_one]
    obtain ⟨k, hk⟩ := Int.modEq_iff_dvd.1 h
    exact ⟨zi, k, by linarith [mul_comm c.p k, mul_comm J.Z zi]⟩
  obtain ⟨-, w, hw, -, -, hw1⟩ | ⟨hne, -⟩ := inv_cases J.Z (show 0 < c.p by omega)
  swap
  · exact absurd hg hne
  have hwz : w ≡ zi [ZMOD c.p] := by
    have h1 : w * (J.Z * zi) ≡ w * 1 [ZMOD c.p] := h.mul_left w
    have h2 : J.Z * w * zi ≡ 1 * zi [ZMOD c.p] := hw1.mul_right zi
    rw [show w * (J.Z * zi) = J.Z * w * zi by ring] at h1
    simpa using h1.symm.trans h2
  unfold toAffine
  rw [if_neg hz, hw]
  dsimp only
  rw [emod_eq_emod_iff.2 ((hwz.mul_left J.X).mul hwz), emod_eq_emod_iff.2 (((hwz.mul_left J.Y).mul hwz).mul hwz)]

/-! ## Scalar multiplication (R208) -/

/-- More fuel than the scalar changes nothing. -/
theorem jmulLoop_fuel (c : Curve) : ∀ (fuel k : Nat) (acc Q : Jac), k ≤ fuel →
    jmulLoop c fuel k acc Q = jmulLoop c k k acc Q := by
  intro fuel
  induction fuel using Nat.strong_induction_on with
  | _ fuel ih =>
    intro k acc Q h
    cases fuel with
    | zero => obtain rfl : k = 0 := by omega
              rfl
    | succ fuel =>
      cases k with
      | zero => simp [jmulLoop]
      | succ k =>
        simp only [jmulLoop]
        rw [ih fuel (by omega) _ _ _ (by omega), ih k (by omega) _ _ _ (by omega)]

/-- One pass of the loop of R208. -/
theorem jmulLoop_step (c : Curve) {k : Nat} (hk : k ≠ 0) (acc Q : Jac) :
    jmulLoop c k k acc Q =
      jmulLoop c (k / 2) (k / 2) (if k % 2 = 1 then jadd c acc Q else acc) (jdouble c Q) := by
  obtain ⟨k, rfl⟩ := Nat.exists_eq_succ_of_ne_zero hk
  conv_lhs => simp only [jmulLoop]
  rw [if_neg (by omega), jmulLoop_fuel _ _ _ _ _ (by omega)]

@[simp] theorem jmulLoop_zero (c : Curve) (acc Q : Jac) : jmulLoop c 0 0 acc Q = acc := rfl

/-! ## The group law over a prime field (R214) -/

theorem point_of_coords {F : Type} [Field F] {W : WeierstrassCurve.Affine F} {A : W.Point} {x y x' y' : F}
    {h : W.Nonsingular x y} (hA : A = .some x y h) (hx : x = x') (hy : y = y') :
    ∃ h, A = .some x' y' h := by
  subst hx hy; exact ⟨h, hA⟩

section group

variable {c : Curve} {p : Nat} [Fact p.Prime]

/-- A reduced triple stands for a point of the curve (R204). -/
def RepJ (c : Curve) (p : Nat) [Fact p.Prime] (J : Jac) (A : (c.over p).Point) : Prop :=
  J.Reduced c ∧ ((J.Z = 0 ∧ A = 0) ∨
    (J.Z ≠ 0 ∧ ∃ h, A = .some ((J.X : ZMod p) / (J.Z : ZMod p) ^ 2) ((J.Y : ZMod p) / (J.Z : ZMod p) ^ 3) h))

theorem cast_eq_zero_iff {x : Int} (h0 : 0 ≤ x) (h1 : x < p) : (x : ZMod p) = 0 ↔ x = 0 := by
  rw [ZMod.intCast_zmod_eq_zero_iff_dvd]
  constructor
  · rintro ⟨k, hk⟩
    have hp : (0 : Int) < p := by omega
    have : k < 1 := by nlinarith
    have : -1 < k := by nlinarith
    obtain rfl : k = 0 := by omega
    simpa using hk
  · rintro rfl; exact dvd_zero _

theorem cast_eq_iff {x y : Int} (hx0 : 0 ≤ x) (hx : x < p) (hy0 : 0 ≤ y) (hy : y < p) :
    (x : ZMod p) = (y : ZMod p) ↔ x = y := by
  rw [ZMod.intCast_eq_intCast_iff]
  constructor
  · intro h
    have := emod_eq_emod_iff.2 h
    rwa [emod_of_lt hx0 hx, emod_of_lt hy0 hy] at this
  · rintro rfl; rfl

theorem over_equation {x y : ZMod p} (h : (c.over p).Nonsingular x y) : y ^ 2 = x ^ 3 + c.a * x + c.b := by
  have := ((c.over p).equation_iff x y).1 h.left
  simpa [Curve.over] using this

theorem two_ne_zero' (hp2 : p ≠ 2) : (2 : ZMod p) ≠ 0 := by
  have hpr : p.Prime := Fact.out
  intro h
  have h' : ((2 : Nat) : ZMod p) = 0 := by exact_mod_cast h
  rw [ZMod.natCast_eq_zero_iff] at h'
  exact hp2 ((Nat.prime_dvd_prime_iff_eq hpr Nat.prime_two).1 h')

theorem over_negY (x y : ZMod p) : (c.over p).negY x y = -y := by
  simp [WeierstrassCurve.Affine.negY, Curve.over]

theorem RepJ.id (hcp : c.p = p) : RepJ c p Jac.id 0 := by
  have hpr : p.Prime := Fact.out
  have : 1 < c.p := by rw [hcp]; exact_mod_cast hpr.one_lt
  exact ⟨Jac.id_reduced this, .inl ⟨rfl, rfl⟩⟩

/-- The coordinates of `jdouble` outside its two special cases, as elements of the field. -/
theorem jdouble_coords (hcp : c.p = p) {J : Jac} (hz : J.Z ≠ 0) (hy : J.Y ≠ 0) :
    ((jdouble c J).X : ZMod p) = (3 * J.X ^ 2 + c.a * J.Z ^ 4) ^ 2 - 2 * (4 * J.X * J.Y ^ 2) ∧
      ((jdouble c J).Y : ZMod p) = (3 * J.X ^ 2 + c.a * J.Z ^ 4) *
        (4 * J.X * J.Y ^ 2 - ((3 * J.X ^ 2 + c.a * J.Z ^ 4) ^ 2 - 2 * (4 * J.X * J.Y ^ 2))) - 8 * J.Y ^ 4 ∧
      ((jdouble c J).Z : ZMod p) = 2 * J.Y * J.Z := by
  simp [jdouble, hz, hy, hcp, cast_emod, Curve.a']

/-- The coordinates of `jadd` outside its special cases, as elements of the field. -/
theorem jadd_coords (hcp : c.p = p) {J K : Jac} (hz : J.Z ≠ 0) (hz' : K.Z ≠ 0)
    (hu : emod (J.X * K.Z ^ 2) c.p ≠ emod (K.X * J.Z ^ 2) c.p) :
    ∃ H R X3 : ZMod p, H = K.X * J.Z ^ 2 - J.X * K.Z ^ 2 ∧ R = K.Y * J.Z ^ 3 - J.Y * K.Z ^ 3 ∧
      X3 = R ^ 2 - H ^ 3 - 2 * (J.X * K.Z ^ 2) * H ^ 2 ∧
      ((jadd c J K).X : ZMod p) = X3 ∧
      ((jadd c J K).Y : ZMod p) = R * (J.X * K.Z ^ 2 * H ^ 2 - X3) - J.Y * K.Z ^ 3 * H ^ 3 ∧
      ((jadd c J K).Z : ZMod p) = J.Z * K.Z * H := by
  refine ⟨_, _, _, rfl, rfl, rfl, ?_⟩
  rw [hcp] at hu
  simp [jadd, hz, hz', hu, hcp, cast_emod]

/-- `jdouble` doubles (R206, R214). -/
theorem RepJ.double (hcp : c.p = p) (hp2 : p ≠ 2) {J : Jac} {A : (c.over p).Point} (hJ : RepJ c p J A) :
    RepJ c p (jdouble c J) (A + A) := by
  have hpr : p.Prime := Fact.out
  have hp1 : 1 < c.p := by rw [hcp]; exact_mod_cast hpr.one_lt
  refine ⟨jdouble_reduced hp1 J, ?_⟩
  obtain ⟨hr, ⟨hz, rfl⟩ | ⟨hz, h, rfl⟩⟩ := hJ
  · exact .inl ⟨by simp [jdouble, hz, Jac.id], by simp⟩
  · have h2 := two_ne_zero' (p := p) hp2
    have hzc : (J.Z : ZMod p) ≠ 0 := by
      rw [Ne, cast_eq_zero_iff hr.z0 (hcp ▸ hr.z1)]; exact hz
    by_cases hy : J.Y = 0
    · refine .inl ⟨by simp [jdouble, hz, hy, Jac.id], ?_⟩
      rw [WeierstrassCurve.Affine.Point.add_self_of_Y_eq]
      rw [over_negY]; simp [hy]
    · have hyc : (J.Y : ZMod p) ≠ 0 := by
        rw [Ne, cast_eq_zero_iff hr.y0 (hcp ▸ hr.y1)]; exact hy
      have hZ3 : emod (2 * J.Y * J.Z) c.p ≠ 0 := by
        intro h0
        have := congrArg (Int.cast : Int → ZMod p) h0
        rw [hcp, cast_emod] at this
        push_cast at this
        simp [h2, hyc, hzc] at this
      right
      have hne : (J.Y : ZMod p) / (J.Z : ZMod p) ^ 3 ≠
          (c.over p).negY ((J.X : ZMod p) / (J.Z : ZMod p) ^ 2) ((J.Y : ZMod p) / (J.Z : ZMod p) ^ 3) := by
        rw [over_negY]
        intro he
        have : (2 : ZMod p) * ((J.Y : ZMod p) / (J.Z : ZMod p) ^ 3) = 0 := by linear_combination he
        simp [h2, hyc, hzc] at this
      refine ⟨by simpa [jdouble, hz, hy] using hZ3, ?_⟩
      have hslope : (c.over p).slope ((J.X : ZMod p) / (J.Z : ZMod p) ^ 2) ((J.X : ZMod p) / (J.Z : ZMod p) ^ 2)
          ((J.Y : ZMod p) / (J.Z : ZMod p) ^ 3) ((J.Y : ZMod p) / (J.Z : ZMod p) ^ 3) =
          (3 * J.X ^ 2 + c.a * J.Z ^ 4) / (2 * J.Y * J.Z) := by
        rw [WeierstrassCurve.Affine.slope_of_Y_ne rfl hne, over_negY, sub_neg_eq_add, ← two_mul]
        simp only [Curve.over]
        field_simp
        ring
      obtain ⟨cX, cY, cZ⟩ := jdouble_coords hcp hz hy
      refine point_of_coords (WeierstrassCurve.Affine.Point.add_self_of_Y_ne hne) ?_ ?_
      · rw [hslope, cX, cZ]
        simp only [WeierstrassCurve.Affine.addX, Curve.over]
        field_simp
        ring
      · rw [hslope, cY, cZ]
        simp only [WeierstrassCurve.Affine.addY, WeierstrassCurve.Affine.negAddY, over_negY]
        simp only [WeierstrassCurve.Affine.addX, Curve.over]
        field_simp
        ring

/-- `jadd` adds (R207, R214). -/
theorem RepJ.add (hcp : c.p = p) (hp2 : p ≠ 2) {J K : Jac} {A B : (c.over p).Point} (hJ : RepJ c p J A)
    (hK : RepJ c p K B) : RepJ c p (jadd c J K) (A + B) := by
  have hpr : p.Prime := Fact.out
  have hp1 : 1 < c.p := by rw [hcp]; exact_mod_cast hpr.one_lt
  have hJ' := hJ
  obtain ⟨hr, ⟨hz, rfl⟩ | ⟨hz, h, rfl⟩⟩ := hJ
  · simpa [jadd, hz] using hK
  obtain ⟨hr', ⟨hz', rfl⟩ | ⟨hz', h', rfl⟩⟩ := hK
  · simpa [jadd, hz, hz'] using hJ'
  have hzc : (J.Z : ZMod p) ≠ 0 := by
    rw [Ne, cast_eq_zero_iff hr.z0 (hcp ▸ hr.z1)]; exact hz
  have hzc' : (K.Z : ZMod p) ≠ 0 := by
    rw [Ne, cast_eq_zero_iff hr'.z0 (hcp ▸ hr'.z1)]; exact hz'
  have hU : emod (J.X * K.Z ^ 2) c.p = emod (K.X * J.Z ^ 2) c.p ↔
      (J.X : ZMod p) / (J.Z : ZMod p) ^ 2 = (K.X : ZMod p) / (K.Z : ZMod p) ^ 2 := by
    rw [hcp, emod_eq_emod_iff, ← ZMod.intCast_eq_intCast_iff]
    push_cast
    rw [div_eq_div_iff (pow_ne_zero _ hzc) (pow_ne_zero _ hzc')]
  have hS : emod (J.Y * K.Z ^ 3) c.p = emod (K.Y * J.Z ^ 3) c.p ↔
      (J.Y : ZMod p) / (J.Z : ZMod p) ^ 3 = (K.Y : ZMod p) / (K.Z : ZMod p) ^ 3 := by
    rw [hcp, emod_eq_emod_iff, ← ZMod.intCast_eq_intCast_iff]
    push_cast
    rw [div_eq_div_iff (pow_ne_zero _ hzc) (pow_ne_zero _ hzc')]
  by_cases hu : emod (J.X * K.Z ^ 2) c.p = emod (K.X * J.Z ^ 2) c.p
  · have hx := hU.1 hu
    by_cases hs : emod (J.Y * K.Z ^ 3) c.p = emod (K.Y * J.Z ^ 3) c.p
    · have hy := hS.1 hs
      have e : jadd c J K = jdouble c J := by simp [jadd, hz, hz', hu, hs]
      rw [e]
      obtain ⟨h'', e'⟩ := point_of_coords (A := .some _ _ h') rfl hx.symm hy.symm
      rw [e']
      exact RepJ.double hcp hp2 ⟨hr, .inr ⟨hz, h, rfl⟩⟩
    · have e : jadd c J K = Jac.id := by simp [jadd, hz, hz', hu, hs]
      rw [e, WeierstrassCurve.Affine.Point.add_of_Y_eq hx]
      · exact RepJ.id hcp
      · rw [over_negY]
        have e1 := over_equation h
        have e2 := over_equation h'
        rw [← hx] at e2
        have hm : ((J.Y : ZMod p) / (J.Z : ZMod p) ^ 3 - (K.Y : ZMod p) / (K.Z : ZMod p) ^ 3) *
            ((J.Y : ZMod p) / (J.Z : ZMod p) ^ 3 + (K.Y : ZMod p) / (K.Z : ZMod p) ^ 3) = 0 := by
          linear_combination e1 - e2
        rcases mul_eq_zero.1 hm with h0 | h0
        · exact absurd (hS.2 (sub_eq_zero.1 h0)) hs
        · exact eq_neg_of_add_eq_zero_left h0
  · have hx := fun hx => hu (hU.2 hx)
    have hd : (K.X : ZMod p) * (J.Z : ZMod p) ^ 2 - (J.X : ZMod p) * (K.Z : ZMod p) ^ 2 ≠ 0 := by
      intro h0
      apply hx
      rw [div_eq_div_iff (pow_ne_zero _ hzc) (pow_ne_zero _ hzc')]
      linear_combination -h0
    refine ⟨jadd_reduced hp1 hr hr', .inr ⟨?_, ?_⟩⟩
    · have := (jadd_coords hcp hz hz' hu)
      obtain ⟨H, R, X3, rfl, rfl, rfl, -, -, cZ⟩ := this
      intro h0
      rw [h0] at cZ
      simp [hzc, hzc', hd] at cZ
    · have hd' : (J.X : ZMod p) / (J.Z : ZMod p) ^ 2 - (K.X : ZMod p) / (K.Z : ZMod p) ^ 2 =
          -(K.X * J.Z ^ 2 - J.X * K.Z ^ 2) / (J.Z ^ 2 * K.Z ^ 2) := by
        field_simp
        ring
      have hslope : (c.over p).slope ((J.X : ZMod p) / (J.Z : ZMod p) ^ 2) ((K.X : ZMod p) / (K.Z : ZMod p) ^ 2)
          ((J.Y : ZMod p) / (J.Z : ZMod p) ^ 3) ((K.Y : ZMod p) / (K.Z : ZMod p) ^ 3) =
          (K.Y * J.Z ^ 3 - J.Y * K.Z ^ 3) / ((K.X * J.Z ^ 2 - J.X * K.Z ^ 2) * (J.Z * K.Z)) := by
        rw [WeierstrassCurve.Affine.slope_of_X_ne hx, hd']
        field_simp
        ring
      obtain ⟨H, R, X3, hH, hR, hX3, cX, cY, cZ⟩ := jadd_coords hcp hz hz' hu
      rw [← hH] at hd
      rw [← hH, ← hR] at hslope
      have hXK : (K.X : ZMod p) = (H + J.X * K.Z ^ 2) / J.Z ^ 2 := by
        rw [hH]; field_simp; ring
      refine point_of_coords (WeierstrassCurve.Affine.Point.add_of_X_ne hx) ?_ ?_
      · rw [hslope, cX, cZ, hX3]
        simp only [WeierstrassCurve.Affine.addX, Curve.over, hXK]
        field_simp
        ring
      · rw [hslope, cY, cZ, hX3]
        simp only [WeierstrassCurve.Affine.addY, WeierstrassCurve.Affine.negAddY, over_negY]
        simp only [WeierstrassCurve.Affine.addX, Curve.over, hXK]
        field_simp
        ring

/-- `jmul` multiplies (R208, R214). -/
theorem RepJ.mulLoop (hcp : c.p = p) (hp2 : p ≠ 2) : ∀ (k : Nat) {acc Q : Jac} {A B : (c.over p).Point},
    RepJ c p acc A → RepJ c p Q B → RepJ c p (jmulLoop c k k acc Q) (A + k • B) := by
  intro k
  induction k using Nat.strong_induction_on with
  | _ k ih =>
    intro acc Q A B hA hB
    by_cases hk : k = 0
    · subst hk; simpa using hA
    · rw [jmulLoop_step c hk]
      have hd := RepJ.double hcp hp2 hB
      have e : k • B = (k % 2) • B + (k / 2) • (B + B) := by
        rw [← two_nsmul, smul_smul, ← add_smul]
        congr 1; omega
      rw [e, ← add_assoc]
      refine ih _ (by omega) ?_ hd
      rcases Nat.mod_two_eq_zero_or_one k with h | h
      · simpa [h] using hA
      · simpa [h] using RepJ.add hcp hp2 hA hB

theorem RepJ.mul (hcp : c.p = p) (hp2 : p ≠ 2) {k : Int} {Q : Jac} {B : (c.over p).Point}
    (hB : RepJ c p Q B) : RepJ c p (jmul c k Q) (k.toNat • B) := by
  have h := RepJ.mulLoop hcp hp2 k.toNat (RepJ.id hcp) hB
  rwa [zero_add] at h

/-- The Jacobian form of a represented operand represents the same point (R202, R204). -/
theorem RepJ.fromAffine (hcp : c.p = p) {P : Point} {A : (c.over p).Point} (h : Represents c p P A) :
    RepJ c p (fromAffine c P) A := by
  have hpr : p.Prime := Fact.out
  have hp1 : 1 < c.p := by rw [hcp]; exact_mod_cast hpr.one_lt
  cases P with
  | identity =>
    obtain rfl : A = 0 := h
    exact RepJ.id hcp
  | affine x y =>
    obtain ⟨h, rfl⟩ := h
    refine ⟨fromAffine_reduced hp1 _, .inr ⟨by simp [Machine.fromAffine], ?_⟩⟩
    exact point_of_coords rfl (by simp [Machine.fromAffine, hcp, cast_emod])
      (by simp [Machine.fromAffine, hcp, cast_emod])

/-- Modulo a prime the conversion back never fails, and keeps the point (R205). -/
theorem RepJ.toAffine (hcp : c.p = p) {J : Jac} {A : (c.over p).Point} (h : RepJ c p J A) :
    ∃ P, toAffine c J = some P ∧ Represents c p P A := by
  have hpr : p.Prime := Fact.out
  have hp0 : 0 < c.p := by rw [hcp]; exact_mod_cast hpr.pos
  obtain ⟨hr, ⟨hz, rfl⟩ | ⟨hz, h, rfl⟩⟩ := h
  · exact ⟨.identity, by simp [Machine.toAffine, hz], rfl⟩
  · have hzc : (J.Z : ZMod p) ≠ 0 := by
      rw [Ne, cast_eq_zero_iff hr.z0 (hcp ▸ hr.z1)]; exact hz
    rcases inv_cases J.Z hp0 with ⟨-, zi, hi, -, -, hm⟩ | ⟨hg, -⟩
    · refine ⟨.affine (emod (J.X * zi * zi) c.p) (emod (J.Y * zi * zi * zi) c.p), by simp [Machine.toAffine, hz, hi], ?_⟩
      have hzi : (J.Z : ZMod p) * zi = 1 := by
        rw [hcp] at hm
        have := (ZMod.intCast_eq_intCast_iff _ _ p).2 hm
        push_cast at this
        exact this
      have hzi' : (zi : ZMod p) = (J.Z : ZMod p)⁻¹ := eq_inv_of_mul_eq_one_right hzi
      refine point_of_coords rfl ?_ ?_
      · rw [hcp, cast_emod]; push_cast; rw [hzi']; field_simp
      · rw [hcp, cast_emod]; push_cast; rw [hzi']; field_simp
    · exfalso
      apply hg
      unfold emod
      rw [Int.gcd_emod, hcp]
      have : ¬ (p : Int) ∣ J.Z := by rwa [← ZMod.intCast_zmod_eq_zero_iff_dvd]
      rw [Int.gcd_comm]
      exact Int.isCoprime_iff_gcd_eq_one.1 ((Nat.prime_iff_prime_int.1 hpr).coprime_iff_not_dvd.2 this)

end group

end Sys2Proof.Machine
end

