-- ==== Sys2Proof/Laws/Operands.lean ====
section
/-! SUPPORT. Signed values and patterns (R14), so that no later proof unfolds `sval` or `pat`; and the hash integer (R256). -/

namespace Sys2Proof.Machine

/-- A register's signed value lies in `[-2^575, 2^575)`. -/
theorem sval_range (b : Wide) : -2 ^ 575 ≤ sval b ∧ sval b < 2 ^ 575 := by
  unfold sval
  exact ⟨BitVec.le_toInt b, BitVec.toInt_lt⟩

/-- A value in range is what its pattern reads as. -/
theorem sval_pat {v : Int} (h0 : -2 ^ 575 ≤ v) (h1 : v < 2 ^ 575) : sval (pat v) = v := by
  unfold sval pat
  exact BitVec.toInt_ofInt_eq_self (by decide) h0 h1

/-- A pattern is that of its own value. -/
theorem pat_sval (b : Wide) : pat (sval b) = b := by
  unfold sval pat
  exact BitVec.ofInt_toInt

@[simp] theorem sval_zero : sval 0 = 0 := by decide +kernel

@[simp] theorem pat_zero : pat 0 = 0 := by decide +kernel

/-- The sign bit is set exactly for a negative value. -/
theorem getLsbD_575 (b : Wide) : b.getLsbD 575 = decide (sval b < 0) := by
  unfold sval
  rw [← BitVec.msb_eq_toInt, BitVec.msb_eq_getLsbD_last]

/-- The pattern of a non-negative value in range has its sign bit clear. -/
theorem pat_sign_clear {v : Int} (h0 : 0 ≤ v) (h1 : v < 2 ^ 575) : (pat v).getLsbD 575 = false := by
  have h : -2 ^ 575 ≤ v := le_trans (by norm_num) h0
  rw [getLsbD_575, sval_pat h h1]
  simpa using h0

/-- `bigE` with one more byte at the end. -/
theorem bigE_append (l : List Byte) (b : Byte) : bigE (l ++ [b]) = bigE l * 256 + (b.toNat : Int) := by
  simp [bigE]

end Sys2Proof.Machine
end

