-- ==== Sys2Proof/Laws/PerInstr.lean ====
section
/-! SUPPORT. Families of facts stated once per command. EncodeLegal: the fields a command encodes to pass the four checks of
R120, and their OPC byte is the command's own (R110). -/

namespace Sys2Proof.Laws.EncodeLegal

/-- The fields of an encoded command are legal and carry its OPC. -/
def Statement (i : Instr) : Prop := (encodeFields i).wellFormed = true ∧ (encodeFields i).opc = opcodeOf i

theorem pointEven (k : PReg) : Form.point.pointEven (fieldOfPReg k) = true := by
  revert k; decide

theorem nop : Statement .nop := ⟨rfl, rfl⟩

theorem modred (d x m : Reg) : Statement (.modred d x m) := ⟨rfl, rfl⟩

theorem modinv (d a m : Reg) : Statement (.modinv d a m) := ⟨rfl, rfl⟩

theorem modexp (d x y m : Reg) : Statement (.modexp d x y m) := ⟨rfl, rfl⟩

theorem modsqrt (d n p : Reg) : Statement (.modsqrt d n p) := ⟨rfl, rfl⟩

theorem montmul (d a b m : Reg) : Statement (.montmul d a b m) := ⟨rfl, rfl⟩

theorem modmul (d a b m : Reg) : Statement (.modmul d a b m) := ⟨rfl, rfl⟩

theorem padd (d s t : PReg) : Statement (.padd d s t) := by
  revert d s t; unfold Statement; decide

theorem pdbl (d s : PReg) : Statement (.pdbl d s) := by
  revert d s; unfold Statement; decide

theorem pmul (d : PReg) (k : Reg) (s : PReg) : Statement (.pmul d k s) := by
  revert d k s; unfold Statement; decide

theorem oncurve (s : PReg) : Statement (.oncurve s) := by
  revert s; unfold Statement; decide

theorem ecdsav (q : PReg) (r s : Reg) : Statement (.ecdsav q r s) := by
  revert q r s; unfold Statement; decide

end Sys2Proof.Laws.EncodeLegal
end

