-- ==== Sys2Proof/Laws/Step.lean ====
section
/-! SUPPORT. What a command and a step can do, said once. -/

namespace Sys2Proof.Machine

/-- Every command answers the commit of its outcome (R132, R136, R137). -/
theorem exec_eq (i : Instr) (s : State) : exec i s = .next (s.commit (resultOf i s)) := by cases i <;> rfl

theorem commitWord_eq (v : Word) (s : State) : commitWord v s = .next (s.commit (s.execWord v)) := by
  unfold commitWord State.execWord
  cases decode v with
  | none => rfl
  | some i => exact exec_eq i s

/-- The writes of a command (R136): none, one register, or one point register. -/
theorem resultOf_cases (i : Instr) (s : State) :
    (∃ e, resultOf i s = .err e) ∨ resultOf i s = .ok none none ∨ (∃ b, resultOf i s = .ok none (some b)) ∨
      (∃ d v, resultOf i s = .ok (some (.reg d v)) none) ∨ ∃ k P, resultOf i s = .ok (some (.point k P)) none := by
  cases i <;> simp only [resultOf]
  case nop => exact .inr (.inl rfl)
  case modred => unfold modredResult; split_ifs <;> simp
  case modinv => unfold modinvResult; split_ifs <;> [simp; skip]; split <;> simp
  case modexp => unfold modexpResult; split_ifs <;> simp
  case modsqrt => unfold modsqrtResult; split_ifs <;> [simp; skip]; split <;> simp
  case montmul => unfold montmulResult; split_ifs <;> simp
  case modmul => unfold modmulResult; split_ifs <;> simp
  case padd =>
    unfold paddResult pointResult
    dsimp only
    split_ifs <;> [simp; skip]; split <;> simp
  case pdbl =>
    unfold pdblResult pointResult
    dsimp only
    split_ifs <;> [simp; skip]; split <;> simp
  case pmul =>
    unfold pmulResult pointResult
    dsimp only
    split_ifs <;> [simp; simp; skip]; split <;> simp
  case oncurve =>
    unfold oncurveResult
    dsimp only
    split_ifs <;> simp
  case ecdsav => unfold ecdsavResult; split_ifs <;> simp

/-- An integer command writes its destination register, or ends in an error (R150). -/
theorem resultOf_integer {i : Instr} {d : Reg} (h : integerDest i = some d) (s : State) :
    (∃ e, resultOf i s = .err e) ∨ ∃ v, resultOf i s = .ok (some (.reg d v)) none := by
  cases i <;> simp only [integerDest, Option.some.injEq, reduceCtorEq] at h <;> subst h <;> simp only [resultOf]
  case modred => unfold modredResult; split_ifs <;> simp
  case modinv => unfold modinvResult; split_ifs <;> [simp; skip]; split <;> simp
  case modexp => unfold modexpResult; split_ifs <;> simp
  case modsqrt => unfold modsqrtResult; split_ifs <;> [simp; skip]; split <;> simp
  case montmul => unfold montmulResult; split_ifs <;> simp
  case modmul => unfold modmulResult; split_ifs <;> simp

/-- A point command writes its destination point, or ends in an error (R200). -/
theorem resultOf_point {i : Instr} {d : PReg} (h : pointDest i = some d) (s : State) :
    (∃ e, resultOf i s = .err e) ∨ ∃ P, resultOf i s = .ok (some (.point d P)) none := by
  cases i <;> simp only [pointDest, Option.some.injEq, reduceCtorEq] at h <;> subst h <;> simp only [resultOf]
  case padd =>
    unfold paddResult pointResult
    dsimp only
    split_ifs <;> [simp; skip]; split <;> simp
  case pdbl =>
    unfold pdblResult pointResult
    dsimp only
    split_ifs <;> [simp; skip]; split <;> simp
  case pmul =>
    unfold pmulResult pointResult
    dsimp only
    split_ifs <;> [simp; simp; skip]; split <;> simp

/-- NOP, ONCURVE and ECDSAV write no register and no point (R139, R213, R263), and NOP no RESULT. -/
theorem resultOf_flag {i : Instr} (hi : integerDest i = none) (hp : pointDest i = none) (s : State) :
    (∃ e, resultOf i s = .err e) ∨ ∃ b, resultOf i s = .ok none b ∧ (i = .nop → b = none) := by
  cases i <;> simp only [integerDest, pointDest, reduceCtorEq] at hi hp <;> simp only [resultOf]
  case nop => exact .inr ⟨none, rfl, fun _ => rfl⟩
  case oncurve =>
    unfold oncurveResult
    dsimp only
    split_ifs <;> simp
  case ecdsav => unfold ecdsavResult; split_ifs <;> simp

/-- The outcome reads the registers, the tags, the curve and the hash, and nothing else (R132). -/
theorem resultOf_congr {i : Instr} {s t : State} (h1 : s.regs = t.regs) (h2 : s.ptag = t.ptag) (h3 : s.curve = t.curve)
    (h4 : s.curveSize = t.curveSize) (h5 : s.hash = t.hash) (h6 : s.hashLen = t.hashLen) : resultOf i s = resultOf i t := by
  have : t = { s with cmd := t.cmd, result := t.result, wign := t.wign, errcode := t.errcode, done := t.done,
                      doneEn := t.doneEn, engine := t.engine, schedule := t.schedule, response := t.response } := by
    cases s; cases t; simp_all
  rw [this]
  cases i <;> rfl

/-- What every commit leaves alone and what it always sets (R136, R137). -/
theorem commit_fields (s : State) (r : Result) :
    (s.commit r).curve = s.curve ∧ (s.commit r).curveSize = s.curveSize ∧ (s.commit r).hash = s.hash ∧
      (s.commit r).hashLen = s.hashLen ∧ (s.commit r).cmd = s.cmd ∧ (s.commit r).wign = s.wign ∧
      (s.commit r).doneEn = s.doneEn ∧ (s.commit r).schedule = s.schedule ∧ (s.commit r).response = s.response ∧
      (s.commit r).engine = .idle ∧ (s.commit r).done = true := by
  cases r <;> simp [State.commit]

/-- The two commits: an error changes nothing but ERRCODE, the phase and DONE, and success clears ERRCODE. -/
theorem commit_cases (s : State) (r : Result) :
    (∃ e, r = .err e ∧ s.commit r = s.endError e.code) ∨
      ∃ w b, r = .ok w b ∧ (s.commit r).errcode = 0 ∧ (s.commit r).result = b.getD s.result ∧
        (s.commit r).regs = (s.applyUpdate w).regs ∧ (s.commit r).ptag = (s.applyUpdate w).ptag := by
  cases r with
  | ok w b => exact .inr ⟨w, b, rfl, by simp [State.commit]⟩
  | err e => exact .inl ⟨e, rfl, rfl⟩

theorem errCode_range (e : ErrCode) : 1 ≤ e.code.toNat ∧ e.code.toNat ≤ 7 := by cases e <;> decide

/-- The ENGINE's turn: nothing while IDLE, the commit while BUSY (R140). -/
theorem engineTurn_cases (s : State) :
    (s.engine = .idle ∧ engineTurn s = .next s) ∨
      ∃ v, s.engine = .busy v ∧ engineTurn s = .next (s.commit (s.execWord v)) := by
  unfold engineTurn
  cases h : s.engine with
  | idle => exact .inl ⟨rfl, rfl⟩
  | busy v => exact .inr ⟨v, rfl, commitWord_eq v s⟩

/-- Everything a step can do (R140). -/
theorem step_cases (s : State) :
    (s.schedule = [] ∧ step s = engineTurn s) ∨
      (∃ rest, s.schedule = .engine :: rest ∧ step s = engineTurn { s with schedule := rest }) ∨
      (∃ a rest, s.schedule = .host a :: rest ∧ step s = .next ({ s with schedule := rest }.hostAccess a)) ∨
      ∃ rest, s.schedule = .reset :: rest ∧ step s = .next ({ s with schedule := rest }.resetEvent) := by
  unfold step turnStep
  cases h : s.schedule with
  | nil => exact .inl ⟨rfl, rfl⟩
  | cons t rest =>
    cases t with
    | engine => exact .inr (.inl ⟨rest, rfl, rfl⟩)
    | host a => exact .inr (.inr (.inl ⟨a, rest, rfl, rfl⟩))
    | reset => exact .inr (.inr (.inr ⟨rest, rfl, rfl⟩))

/-! ## Runs -/

/-- A finished state stays as it is (R143, R298). -/
theorem step_finished {s : State} (h : s.finished) : step s = .next s := by
  simp only [step, turnStep, h.1, engineTurn, h.2]

theorem runsTo_zero (s : State) : runsTo 0 s s := rfl

/-- A step, then a run. -/
theorem runsTo_succ {k : Nat} {s t u : State} (h : step s = .next t) (h' : runsTo k t u) : runsTo (k + 1) s u := by
  unfold runsTo at *
  simp only [Host.Core.run, show core.step s = .next t from h]
  exact h'

/-- A run, then a step. -/
theorem runsTo_snoc {t u : State} (h' : step t = .next u) : ∀ {k : Nat} {s : State}, runsTo k s t → runsTo (k + 1) s u := by
  intro k
  induction k with
  | zero =>
    intro s h
    rw [show s = t from Host.Outcome.next.inj h]
    exact runsTo_succ h' rfl
  | succ k ih =>
    intro s h
    unfold runsTo at h
    simp only [Host.Core.run, show core.step s = step s from rfl] at h
    cases hs : step s with
    | next x => rw [hs] at h; exact runsTo_succ hs (ih h)
    | fault r => rw [hs] at h; cases h
    | refused r => rw [hs] at h; cases h

end Sys2Proof.Machine
end

