-- ==== Sys2Proof/Tests/Slice0.lean ====
section
/-! SUPPORT. The model's own tests, on the vectors of spec/95_test_vectors.md and on words written out from R101 and R111, and a
witness for every statement that has hypotheses. `decide +kernel` leaves the evaluation to the kernel and adds no axiom. -/

set_option Elab.async false

open Sys2Proof Sys2Proof.Machine Host

namespace Sys2Proof.Tests

/-! ## Helpers -/

/-- A value read from the next state, if there is one. -/
def after {α : Type} (o : Outcome State Fault Refusal) (f : State → α) : Option α :=
  match o with
  | .next t => some (f t)
  | .fault _ => none
  | .refused _ => none

/-- `s` with the values of a list of registers. -/
def loadRegs (s : State) (vs : List (Reg × Int)) : State := vs.foldl (fun t v => t.setReg v.1 v.2) s

/-- The reset state with the values of a list of registers. -/
def regsOf (vs : List (Reg × Int)) : State := loadRegs State.reset vs

/-- A curve with the given `p, a, b, Gx, Gy, n, h`, loaded. -/
def curveOf (p a b gx gy n h : Int) : CurveRegs := ⟨pat p, pat a, pat b, pat gx, pat gy, pat n, pat h⟩

/-- The toy curve of R216, with `size = 1` and the values of a list of registers. -/
def toy (vs : List (Reg × Int)) : State :=
  { regsOf vs with curve := curveOf 17 2 2 5 1 19 1, curveSize := 1 }

/-- The cofactor curve of R216, `y^2 = x^3 + x + 1` over 11, with the values of a list of registers. -/
def cofactor (n h : Int) (vs : List (Reg × Int)) : State :=
  { regsOf vs with curve := curveOf 11 1 1 0 1 n h, curveSize := 1 }

/-- A curve whose `p = 9` is odd and composite, with the values of a list of registers. -/
def composite (vs : List (Reg × Int)) : State := { regsOf vs with curve := curveOf 9 0 0 0 0 2 1, curveSize := 1 }

/-- The toy curve with `p1 = Q = 7G`, `r4 = r`, `r5 = s` and a one-byte hash (section 4 of spec/95). -/
def toySig (e : Byte) (r s : Int) : State :=
  { toy [(2, 0), (3, 6), (4, r), (5, s)] with hash := State.reset.hash.set 0 e, hashLen := 1 }

/-- A state with a command word in flight. -/
def inFlight (s : State) (w : Word) : State := s.accept w

/-- The values of a destination pair, the tags and the error code. -/
def pointOut (k : PReg) (t : State) : Int × Int × BitVec 8 × BitVec 8 := (t.x k.xReg, t.x k.yReg, t.ptag, t.errcode)

/-! ## WellFormed: one ill-formed term for each check of R120 -/

/-- Item 1: OPC 0x07 is assigned to no command. -/
theorem test_unassigned_opc_refused :
    (⟨0x07#8, 0, 0, 0, 0, 0⟩ : Fields).wellFormed = false ∧ decodeFields ⟨0x07#8, 0, 0, 0, 0, 0⟩ = none := by decide

/-- Item 2: RSV is not 0. -/
theorem test_reserved_bits_refused :
    (⟨0x01#8, 0, 0, 0, 0, 1⟩ : Fields).wellFormed = false ∧ decodeFields ⟨0x01#8, 0, 0, 0, 0, 1⟩ = none := by decide

/-- Item 3: MODRED has no C. -/
theorem test_unused_field_refused :
    (⟨0x01#8, 0, 0, 0, 3, 0⟩ : Fields).wellFormed = false ∧ decodeFields ⟨0x01#8, 0, 0, 0, 3, 0⟩ = none := by decide

/-- Item 4: D of PDBL is odd. -/
theorem test_odd_point_field_refused :
    (⟨0x11#8, 1, 0, 0, 0, 0⟩ : Fields).wellFormed = false ∧ decodeFields ⟨0x11#8, 1, 0, 0, 0, 0⟩ = none := by decide

/-- A well-formed term beside them. -/
theorem test_well_formed_accepted : (⟨0x20#8, 0, 2, 4, 5, 0⟩ : Fields).wellFormed = true := by decide

/-! ## Decode: every command by a word written out from R101 and R110, `RSV C B A D OPC` -/

theorem test_decode_nop : decode 0b00000000_0000_0000_0000_0000_00000000#32 = some .nop := by decide
theorem test_decode_modred : decode 0b00000000_0000_0010_0001_0011_00000001#32 = some (.modred 3 1 2) := by decide
theorem test_decode_modinv : decode 0b00000000_0000_0010_0001_0011_00000010#32 = some (.modinv 3 1 2) := by decide
theorem test_decode_modexp : decode 0b00000000_1001_0111_1111_1000_00000011#32 = some (.modexp 8 15 7 9) := by decide
theorem test_decode_modsqrt : decode 0b00000000_0000_0010_0001_0011_00000100#32 = some (.modsqrt 3 1 2) := by decide
theorem test_decode_montmul : decode 0b00000000_0100_0101_0001_0111_00000101#32 = some (.montmul 7 1 5 4) := by decide
theorem test_decode_modmul : decode 0b00000000_0010_0001_0011_0100_00000110#32 = some (.modmul 4 3 1 2) := by decide
theorem test_decode_padd : decode 0b00000000_0000_0000_0010_0100_00010000#32 = some (.padd 2 1 0) := by decide
theorem test_decode_pdbl : decode 0b00000000_0000_0000_1110_0010_00010001#32 = some (.pdbl 1 7) := by decide
theorem test_decode_pmul : decode 0b00000000_0000_0000_1111_0110_00010010#32 = some (.pmul 3 15 0) := by decide
theorem test_decode_oncurve : decode 0b00000000_0000_0000_0100_0000_00010011#32 = some (.oncurve 2) := by decide
theorem test_decode_ecdsav : decode 0b00000000_0101_0100_0010_0000_00100000#32 = some (.ecdsav 1 4 5) := by decide

/-- The text of R125 and the expansions of R126. -/
theorem test_asm : asm (.pmul 3 15 0) = "pmul p3, r15, p0" ∧ modsqr 4 3 2 = .modmul 4 3 3 2 ∧
    montsqr 4 3 2 = .montmul 4 3 3 2 ∧ encode clrerr = 0x00000000#32 := by decide

/-! ## Commands: spec/95_test_vectors.md sections 2 to 4 -/

theorem test_nop_clears_error :
    after (exec .nop { regsOf [(1, 3)] with errcode := 3, result := true }) (fun t => (t.errcode, t.result, t.done, t.x 1)) =
      some (0, true, true, 3) := by decide +kernel

theorem test_modred_negative :
    after (exec (.modred 3 1 2) (regsOf [(1, -17), (2, 5)])) (fun t => (t.x 3, t.errcode)) = some (3, 0) := by decide +kernel
theorem test_modred_most_negative :
    after (exec (.modred 1 1 2) (regsOf [(1, -2 ^ 575), (2, 7)])) (fun t => t.x 1) = some 3 := by decide +kernel

theorem test_modinv_negative_modulus :
    after (exec (.modinv 3 1 2) (regsOf [(1, 3), (2, -7)])) (fun t => (t.x 3, t.errcode)) = some (5, 0) := by decide +kernel
theorem test_modinv_no_inverse :
    after (exec (.modinv 5 1 2) (regsOf [(1, 6), (2, 9), (5, 99)])) (fun t => (t.x 5, t.errcode)) = some (99, 3) := by
  decide +kernel

theorem test_modexp_fermat :
    after (exec (.modexp 3 0 1 2) (regsOf [(0, 2), (1, 2 ^ 521 - 2), (2, 2 ^ 521 - 1)])) (fun t => t.x 3) = some 1 := by
  decide +kernel
/-- R285: the modulus check comes first. -/
theorem test_modexp_check_order :
    after (exec (.modexp 3 0 1 2) (regsOf [(0, 3), (1, -1)])) (fun t => t.errcode) = some 2 := by decide +kernel

theorem test_modsqrt_general_path :
    after (exec (.modsqrt 3 1 2) (regsOf [(1, 5), (2, 41)])) (fun t => (t.x 3, t.errcode)) = some (28, 0) := by decide +kernel
theorem test_modsqrt_composite_fast_path :
    after (exec (.modsqrt 3 1 2) (regsOf [(1, 4), (2, 15), (3, 6)])) (fun t => (t.x 3, t.errcode)) = some (6, 4) := by
  decide +kernel

theorem test_montmul :
    after (exec (.montmul 3 0 1 2) (regsOf [(0, 3), (1, 4), (2, 11)])) (fun t => t.x 3) = some 5 := by decide +kernel
theorem test_montmul_even_modulus :
    after (exec (.montmul 3 0 1 2) (regsOf [(0, 3), (1, 4), (2, 8)])) (fun t => (t.x 3, t.errcode)) = some (0, 2) := by
  decide +kernel

theorem test_modmul_even_modulus :
    after (exec (.modmul 3 0 1 2) (regsOf [(0, 6), (1, 7), (2, 8)])) (fun t => t.x 3) = some 2 := by decide +kernel
theorem test_modmul_negative :
    after (exec (.modmul 2 0 1 2) (regsOf [(0, -3), (1, 4), (2, 7)])) (fun t => t.x 2) = some 2 := by decide +kernel

theorem test_padd_unreduced_operand_doubles :
    after (exec (.padd 2 0 1) (toy [(0, 5), (1, 1), (2, 22), (3, 18)])) (pointOut 2) = some (6, 3, 0, 0) := by decide +kernel
/-- R203, R207: beside a point and its inverse, (0, 1) and (2, 1) off the curve; the line through them is `y = 1`, so their sum
by the formulas is (-2, -1). -/
theorem test_padd_inverse_and_off_curve :
    after (exec (.padd 3 0 1) (toy [(0, 5), (1, 1), (2, 5), (3, 16), (6, 9)])) (pointOut 3) = some (0, 0, 8, 0) ∧
    after (exec (.padd 2 0 1) (toy [(0, 0), (1, 1), (2, 2), (3, 1)])) (pointOut 2) = some (15, 16, 0, 0) := by
  decide +kernel

theorem test_pdbl_generator :
    after (exec (.pdbl 1 0) { toy [(0, 5), (1, 1)] with ptag := 0xFE }) (pointOut 1) = some (6, 3, 0xFC, 0) := by
  decide +kernel
theorem test_pdbl_order_two :
    after (exec (.pdbl 0 0) (cofactor 7 2 [(0, 2), (1, 0)])) (pointOut 0) = some (0, 0, 1, 0) := by decide +kernel

theorem test_pmul_past_the_order :
    after (exec (.pmul 1 15 0) (toy [(0, 5), (1, 1), (15, 20)])) (pointOut 1) = some (5, 1, 0, 0) := by decide +kernel
theorem test_pmul_negative_scalar :
    after (exec (.pmul 1 15 0) (toy [(0, 5), (1, 1), (15, -1)])) (pointOut 1) = some (0, 0, 0, 5) := by decide +kernel

theorem test_oncurve_order_two_with_cofactor :
    after (exec (.oncurve 0) { cofactor 7 2 [(0, 2), (1, 0)] with result := true }) (fun t => (t.result, t.errcode)) =
      some (false, 0) := by decide +kernel
theorem test_oncurve_bad_order :
    after (exec (.oncurve 0) (cofactor 1 2 [(0, 0), (1, 1)])) (fun t => t.errcode) = some 6 := by decide +kernel

/-- R266. -/
theorem test_ecdsav_accepts :
    after (exec (.ecdsav 1 4 5) (toySig 0x05 7 13)) (fun t => (t.result, t.errcode)) = some (true, 0) := by decide +kernel
theorem test_ecdsav_rejects_changed_s :
    after (exec (.ecdsav 1 4 5) { toySig 0x05 7 14 with result := true }) (fun t => (t.result, t.errcode)) =
      some (false, 0) := by decide +kernel

/-! ## The bus: spec/95_test_vectors.md section 5, and steps -/

theorem test_bus_reads :
    State.reset.memRead 0x000 .w32 = .readOk 0x45434456#32 ∧ State.reset.memRead 0x848 .w32 = .readOk 0 ∧
    State.reset.memRead 0x000 .w8 = .readError 0 ∧ State.reset.memRead 0x002 .w32 = .readError 0 ∧
    State.reset.memWrite 0x800 .w16 5 = (State.reset, .writeError) := by decide +kernel

/-- R87: `x[1] = -5` word by word. -/
theorem test_bus_writes_negative_value :
    ((List.finRange 18).foldl
      (fun t j => (t.memWrite (0x880 + 4 * j.val) .w32 (if j = 0 then 0xFFFFFFFB#32 else 0xFFFFFFFF#32)).1)
      State.reset).x 1 = -5 := by decide +kernel

/-- R74, R88: the hash bytes of one bus word lie in buffer order. -/
theorem test_ldhash_packs_bytes : packBytes [0x61#8, 0x62#8, 0x63#8, 0x64#8, 0x65#8] = [0x64636261#32, 0x00000065#32] := by
  decide

/-- P3: a register write while BUSY is ignored and sets WIGN, so STATUS reads 0x9. -/
theorem test_write_while_busy :
    let s := inFlight (toySig 0x05 7 13) 0x00542020#32
    let t := (s.memWrite 0xA80 .w32 14).1
    t.memRead 0x008 .w32 = .readOk 9 ∧ t.x 5 = 13 := by decide +kernel

/-- P2: the last command word is `padd` with an odd D; ERRCODE 1 with RESULT kept, STATUS 0x6. -/
theorem test_step_illegal_word :
    after (step { inFlight (toy []) 0x00002310#32 with result := true })
      (fun t => (t.memRead 0x008 .w32, t.cmd, t.done)) = some (.readOk 6, 0x00002310#32, true) := by decide +kernel

theorem test_step_runs_fetch_word :
    after (step ((regsOf [(1, 3), (2, 7)]).withFetchWord 32 0x00021302)) (fun t => (t.x 3, t.busy)) = some (5, false) := by
  decide +kernel

/-! ## Witnesses: for each statement with hypotheses, a state and operands that meet them, clause by clause -/

theorem next_of_after {α : Type} {o : Outcome State Fault Refusal} {f : State → α} {v : α} (h : after o f = some v) :
    ∃ t, o = .next t ∧ f t = v := by
  cases o with
  | next t => exact ⟨t, rfl, by simpa [after] using h⟩
  | fault r => simp [after] at h
  | refused r => simp [after] at h

theorem witness_EncodeOfDecode : decode 0x00542020#32 = some (.ecdsav 1 4 5) := by decide

theorem witness_LegalWordsMatchOneTableRow :
    ∃ r ∈ opcodeTable, r.accepts 0x0000F612#32 = true ∧ decode 0x0000F612#32 = some (.pmul 3 15 0) := by decide

/-- The four ways a word can be illegal, each in flight with the engine's turn next; and an idle state. -/
theorem witness_IllegalWordCommitsOnlyItsCode :
    State.reset.engine = .idle ∧ (Fields.ofWord 0x00000007#32).opcAssigned = false ∧
    (Fields.ofWord 0x01000001#32).rsvZero = false ∧ (Fields.ofWord 0x00300001#32).unusedFieldsZero = false ∧
    (Fields.ofWord 0x00002310#32).pointFieldsEven = false ∧
    ([0x00000007#32, 0x01000001#32, 0x00300001#32, 0x00002310#32].all fun w =>
      decode w == none && (inFlight State.reset w).engine == .busy w && (inFlight State.reset w).schedule == []) = true := by
  decide +kernel

theorem witness_StepRunsDecodedCommand :
    decode 0x00021302#32 = some (.modinv 3 1 2) ∧ (inFlight State.reset 0x00021302#32).engine = .busy 0x00021302#32 ∧
    (inFlight State.reset 0x00021302#32).schedule = [] ∧
    ({ inFlight State.reset 0x00021302#32 with schedule := [.engine, .reset] } : State).schedule = .engine :: [.reset] ∧
    decodeTableWord 32 0x00021302 = some (.modinv 3 1 2) ∧ decodeTableWord 8 0x00 = some .nop ∧
    decode 0x00002310#32 = none ∧
    ({ inFlight State.reset 0x00002310#32 with schedule := [.engine] } : State).schedule = .engine :: [] := by decide +kernel

theorem witness_StepTakesTheScheduledTurn :
    ({ State.reset with schedule := [.host (.read 0 .w32)] } : State).schedule = .host (.read 0 .w32) :: [] ∧
    ({ State.reset with schedule := [.reset, .engine] } : State).schedule = .reset :: [.engine] ∧
    ({ State.reset with schedule := [.engine] } : State).engine = .idle ∧ State.reset.schedule = [] := by decide +kernel

theorem witness_ResetValues : State.reset.curve.p = 0 ∧ ({ toy [(0, 5)] with curve := curveOf 0 2 2 5 1 19 1 } : State).curve.p = 0 := by
  decide +kernel

theorem witness_ResetAbandonsCommand :
    ({ inFlight (toySig 5 7 13) 0x00542020#32 with schedule := [.reset] } : State).schedule = .reset :: [] ∧
    ({ inFlight State.reset 0#32 with schedule := [.host (.read 0 .w8)] } : State).engine = .busy 0#32 := by decide +kernel

/-- A state with a command in flight, and one with the largest code, meet the invariant and have a next state. -/
theorem witness_StepKeepsInvariant :
    (State.Inv (inFlight (toySig 5 7 13) 0x00542020#32) ∧
      ∃ t, step (inFlight (toySig 5 7 13) 0x00542020#32) = .next t ∧ t.result = true) ∧
    State.Inv { State.reset with errcode := 7 } := by
  refine ⟨⟨⟨?_, fun _ => rfl, by decide⟩, next_of_after (by decide +kernel)⟩, ⟨?_, ?_, by decide⟩⟩
  · intro v h; cases h; rfl
  · intro v h; cases h
  · intro h; cases h

theorem witness_BusyFreezesCommandInputs : (inFlight (toySig 5 7 13) 0x00542020#32).busy = true := rfl

/-- With no access between acceptance and commit, and with two. -/
theorem witness_CommandIsAtomic :
    (State.reset.engine = .idle ∧
      ({ State.reset with schedule := [wr 0x004 7, .engine] } : State).schedule =
        wr 0x004 7 :: (([] : List Access).map Turn.host ++ Turn.engine :: [])) ∧
    ({ toySig 5 7 13 with schedule := [wr 0x004 0x00542020#32, rd 0x008, wr 0xA80 14, .engine, .reset] } : State).schedule =
      wr 0x004 0x00542020#32 ::
        ([Access.read (Config.base + 0x008) .w32, .write (Config.base + 0xA80) .w32 14].map Turn.host ++
          Turn.engine :: [.reset]) := ⟨⟨rfl, rfl⟩, rfl⟩

theorem witness_CommandsComplete :
    (inFlight State.reset 0#32).engine = .busy 0#32 ∧
    ({ inFlight State.reset 7#32 with schedule := [rd 0x008, .engine] } : State).engine = .busy 7#32 := ⟨rfl, rfl⟩

theorem witness_AcceptSetsCommandAndPhase : State.reset.engine = .idle ∧ (toySig 5 7 13).engine = .idle := ⟨rfl, rfl⟩

theorem witness_ErrorsArePrecise : ∃ t, exec (.modred 3 1 2) (regsOf [(1, 5)]) = .next t ∧ t.errcode = 2 :=
  next_of_after (by decide +kernel)

/-- Every code from 2 to 7 by a command that ends with it. -/
theorem witness_ErrorCodesPerCommand :
    (∃ t, exec (.montmul 3 1 2 4) (regsOf [(4, 8)]) = .next t ∧ t.errcode = 2) ∧
    (∃ t, exec (.modinv 3 1 2) (regsOf [(1, 6), (2, 9)]) = .next t ∧ t.errcode = 3) ∧
    (∃ t, exec (.modsqrt 3 1 2) (regsOf [(1, 3), (2, 41)]) = .next t ∧ t.errcode = 4) ∧
    (∃ t, exec (.modexp 3 1 2 4) (regsOf [(2, -1), (4, 7)]) = .next t ∧ t.errcode = 5) ∧
    (∃ t, exec (.padd 2 1 0) State.reset = .next t ∧ t.errcode = 6) ∧
    ∃ t, exec (.ecdsav 1 4 5) (toySig 5 0 13) = .next t ∧ t.errcode = 7 :=
  ⟨next_of_after (by decide +kernel), next_of_after (by decide +kernel), next_of_after (by decide +kernel),
    next_of_after (by decide +kernel), next_of_after (by decide +kernel), next_of_after (by decide +kernel)⟩

theorem witness_OutcomeReadsOnlyItsInputs :
    let s := toySig 5 7 13
    let t := { s with result := true, wign := true, errcode := 7, cmd := 9, done := true }
    s.regs = t.regs ∧ s.ptag = t.ptag ∧ s.curve = t.curve ∧ s.curveSize = t.curveSize ∧ s.hash = t.hash ∧
      s.hashLen = t.hashLen ∧ s ≠ t := by decide +kernel

theorem witness_IntegerWritesKeepTags :
    integerDest (.modred 2 1 4) = some 2 ∧
    ∃ t, exec (.modred 2 1 4) { regsOf [(1, 9), (4, 7)] with ptag := 0x02 } = .next t ∧ (t.x 2, t.ptag) = (2, 0x02) :=
  ⟨rfl, next_of_after (by decide +kernel)⟩

theorem witness_ResultFlagRule :
    (∃ t, exec (.ecdsav 1 4 5) (toySig 5 7 13) = .next t ∧
      (decide (t.result ≠ (toySig 5 7 13).result), t.errcode) = (true, 0)) ∧
    ∃ t, exec (.oncurve 0) (toy [(0, 5), (1, 1)]) = .next t ∧ (t.result, t.errcode) = (true, 0) :=
  ⟨next_of_after (by decide +kernel), next_of_after (by decide +kernel)⟩

/-- Destinations R0 and R15, and the bytes next to them. -/
theorem witness_IntegerCommandFrame :
    (integerDest (.modmul 0 1 2 4) = some 0 ∧
      ∃ t, exec (.modmul 0 1 2 4) (regsOf [(1, 3), (2, 5), (4, 7)]) = .next t ∧ t.x 0 = 1) ∧
    (integerDest (.modexp 15 1 2 4) = some 15 ∧
      ∃ t, exec (.modexp 15 1 2 4) (regsOf [(1, 3), (2, 5), (4, 7)]) = .next t ∧ t.x 15 = 5) ∧
    regBase 0 + 72 = 0x848 ∧ regBase 15 = 0xF80 :=
  ⟨⟨rfl, next_of_after (by decide +kernel)⟩, ⟨rfl, next_of_after (by decide +kernel)⟩, rfl, rfl⟩

theorem witness_PointCommandFrame :
    pointDest (.pmul 7 15 0) = some 7 ∧
    ∃ t, exec (.pmul 7 15 0) (toy [(0, 5), (1, 1), (15, 2)]) = .next t ∧ pointOut 7 t = (6, 3, 0, 0) :=
  ⟨rfl, next_of_after (by decide +kernel)⟩

theorem witness_FlagCommandFrame :
    integerDest .nop = none ∧ pointDest .nop = none ∧ integerDest (.oncurve 0) = none ∧ pointDest (.oncurve 0) = none ∧
    integerDest (.ecdsav 1 4 5) = none ∧ pointDest (.ecdsav 1 4 5) = none ∧
    (∃ t, exec .nop State.reset = .next t ∧ t.done = true) ∧
    ∃ t, exec (.ecdsav 1 4 5) (toySig 5 7 13) = .next t ∧ t.result = true :=
  ⟨rfl, rfl, rfl, rfl, rfl, rfl, next_of_after (by decide +kernel), next_of_after (by decide +kernel)⟩

theorem witness_NopResult : (0x00000100#32).extractLsb' 0 8 = 0#8 ∧ 0x00000100#32 ≠ 0#32 := by decide

theorem witness_ModredResult : (regsOf []).x 2 ≤ 0 ∧ 0 < (regsOf [(2, 1)]).x 2 := by decide +kernel

theorem witness_ModinvResult :
    (regsOf []).x 2 = 0 ∧
    (let s := regsOf [(1, 6), (2, -9)]; s.x 2 ≠ 0 ∧ Int.gcd (s.x 1 % |s.x 2|) |s.x 2| ≠ 1) ∧
    (let s := regsOf [(1, 5), (2, -1)]; s.x 2 ≠ 0 ∧ Int.gcd (s.x 1 % |s.x 2|) |s.x 2| = 1) := by decide +kernel

theorem witness_ModexpResult :
    (regsOf [(1, -1)]).x 2 ≤ 0 ∧ (let s := regsOf [(1, -1), (2, 1)]; 0 < s.x 2 ∧ s.x 1 < 0) ∧
    (let s := regsOf [(1, 0), (2, 1)]; 0 < s.x 2 ∧ 0 ≤ s.x 1) := by decide +kernel

theorem witness_ModsqrtReturnsARoot :
    (regsOf [(2, 1)]).x 2 < 3 ∧ (regsOf [(2, 8)]).x 2 % 2 = 0 ∧
    (let s := regsOf [(1, 0), (2, 3)]; 3 ≤ s.x 2 ∧ s.x 2 % 2 = 1 ∧ s.x 1 % s.x 2 = 0) ∧
    (let s := regsOf [(1, 4), (2, 15)]; s.x 1 % s.x 2 ≠ 0 ∧ s.x 2 % 4 = 3) := by decide +kernel

theorem witness_ModsqrtModuloAPrime :
    Nat.Prime 13 ∧ (regsOf [(1, 2), (2, 13)]).x 2 = (13 : Nat) ∧
    (¬ ∃ x : Int, (x * x - (regsOf [(1, 2), (2, 13)]).x 1) % 13 = 0) ∧
    (7 * 7 - (regsOf [(1, 10), (2, 13)]).x 1) % 13 = 0 ∧ (13 * 13 - (regsOf [(1, 0), (2, 13)]).x 1) % 13 = 0 := by
  refine ⟨by norm_num, by decide +kernel, ?_, by decide +kernel, by decide +kernel⟩
  rw [show (regsOf [(1, 2), (2, 13)]).x 1 = 2 by decide +kernel]
  rintro ⟨x, hx⟩
  have hr : ∀ r : Fin 13, ¬ ((r.val : Int) * r.val - 2) % 13 = 0 := by decide
  have h0 := Int.emod_nonneg x (show (13 : Int) ≠ 0 by decide)
  have h1 := Int.emod_lt_of_pos x (show (0 : Int) < 13 by decide)
  apply hr ⟨(x % 13).toNat, by omega⟩
  simp only [Int.toNat_of_nonneg h0]
  rw [← hx, Int.sub_emod, Int.mul_emod]
  simp [Int.sub_emod, Int.mul_emod]

/-- `p = 13 = 3 * 2^2 + 1`, `z = 2`, `n = 10 ≡ 7^2` (the trace of spec/95 section 2.4). -/
theorem witness_ModsqrtPicksItsRoot :
    Nat.Prime 13 ∧ (let s := regsOf [(1, 10), (2, 13)]
      s.x 2 = (13 : Nat) ∧ s.x 1 % 13 ≠ 0 ∧ (7 * 7 - s.x 1) % 13 = 0) ∧ 13 % 4 = 1 ∧ 13 - 1 = 3 * 2 ^ 2 ∧ 3 % 2 = 1 ∧
    (2 : Int) ^ ((13 - 1) / 2) % 13 = 13 - 1 ∧ ∀ y : Int, 2 ≤ y → y < 2 → y ^ ((13 - 1) / 2) % 13 ≠ 13 - 1 :=
  ⟨by norm_num, by decide +kernel, rfl, rfl, rfl, by decide, fun y h1 h2 => absurd h1 (by omega)⟩

theorem witness_MontmulResult :
    (regsOf []).x 2 ≤ 0 ∧ (regsOf [(2, 8)]).x 2 % 2 = 0 ∧
    (let s := regsOf [(2, 1)]; 0 < s.x 2 ∧ s.x 2 % 2 = 1) := by decide +kernel

theorem witness_MontgomeryDomainIdentities : (0 : Int) < 1 ∧ (1 : Int) % 2 = 1 ∧ (0 : Int) < 11 ∧ (11 : Int) % 2 = 1 := by
  decide

theorem witness_ModmulResult : (regsOf []).x 2 ≤ 0 ∧ 0 < (regsOf [(2, 1)]).x 2 := by decide +kernel

/-- An ordinary modulus, and `|m| = 2^575`. -/
theorem witness_IntegerResultsNeedNoTruncation :
    integerDest (.modinv 3 1 2) = some 3 ∧ modulusReg (.modinv 3 1 2) = some 2 ∧
    (∃ t, exec (.modinv 3 1 2) (regsOf [(1, 3), (2, 7)]) = .next t ∧ (t.errcode, t.x 3) = (0, 5)) ∧
    ∃ t, exec (.modinv 3 1 2) (regsOf [(1, 1), (2, -2 ^ 575)]) = .next t ∧ (t.errcode, t.x 3) = (0, 1) :=
  ⟨rfl, rfl, next_of_after (by decide +kernel), next_of_after (by decide +kernel)⟩

theorem witness_CurveCommandsCheckTheModulus :
    (curveOf 16 2 2 5 1 19 1).values.groupOk = false ∧ (toy []).curve.values.groupOk = true ∧
    (curveOf 3 2 2 5 1 19 1).values.groupOk = true ∧ pointDest (.pdbl 1 0) = some 1 ∧
    ∃ t, exec (.pdbl 1 0) (toy [(0, 5), (1, 1)]) = .next t ∧ t.errcode = 0 :=
  ⟨by decide +kernel, by decide +kernel, by decide +kernel, rfl, next_of_after (by decide +kernel)⟩

/-- A failed check, a sum, and a sum modulo 9 whose `Z = 3` has no inverse. -/
theorem witness_PaddResult :
    State.reset.curve.values.groupOk = false ∧
    (let s := toy [(0, 5), (1, 1), (2, 6), (3, 3)]; let c := s.curve.values
      c.groupOk = true ∧ toAffine c (jadd c (fromAffine c (s.pt 0)) (fromAffine c (s.pt 1))) = some (.affine 10 6)) ∧
    (let s := composite [(2, 3), (3, 1)]; let c := s.curve.values
      c.groupOk = true ∧ toAffine c (jadd c (fromAffine c (s.pt 0)) (fromAffine c (s.pt 1))) = none) := by decide +kernel

/-- Triples for each case of the sum: a `Z` that is 0, the same point, opposite points, and the trace of R209; and the two
operands of that trace, whose `x' - x = 1`. -/
theorem witness_PaddResult_sum :
    let c := (toy []).curve.values
    Jac.id.Z = 0 ∧
    (let J : Jac := ⟨5, 1, 1⟩; let K : Jac := ⟨5, 1, 1⟩
     J.Z ≠ 0 ∧ K.Z ≠ 0 ∧ (K.X * J.Z ^ 2 - J.X * K.Z ^ 2) % c.p = 0 ∧ (K.Y * J.Z ^ 3 - J.Y * K.Z ^ 3) % c.p = 0) ∧
    (let J : Jac := ⟨5, 1, 1⟩; let K : Jac := ⟨5, 2, 1⟩
     (K.X * J.Z ^ 2 - J.X * K.Z ^ 2) % c.p = 0 ∧ (K.Y * J.Z ^ 3 - J.Y * K.Z ^ 3) % c.p ≠ 0) ∧
    (let J : Jac := ⟨5, 1, 1⟩; let K : Jac := ⟨6, 3, 1⟩
     (K.X * J.Z ^ 2 - J.X * K.Z ^ 2) % c.p ≠ 0 ∧ jadd c J K = ⟨10, 6, 1⟩) ∧
    (let s := toy [(0, 5), (1, 1), (2, 6), (3, 3)]
     s.pt 0 = .affine 5 1 ∧ s.pt 1 = .affine 6 3 ∧ (6 - 5) * 1 % s.curve.values.p = 1) := by decide +kernel

theorem witness_PdblResult :
    State.reset.curve.values.groupOk = false ∧
    (let s := toy [(0, 5), (1, 1)]; let c := s.curve.values
      c.groupOk = true ∧ toAffine c (jdouble c (fromAffine c (s.pt 0))) = some (.affine 6 3)) ∧
    (let s := composite [(0, 1), (1, 3)]; let c := s.curve.values
      c.groupOk = true ∧ toAffine c (jdouble c (fromAffine c (s.pt 0))) = none) ∧
    ({ toy [] with ptag := 1 } : State).pt 0 = .identity ∧
    (let s := toy [(0, 5), (1, -17)]; s.pt 0 = .affine 5 (-17) ∧ (-17) % s.curve.values.p = 0) ∧
    Jac.id.Z = 0 ∧ (⟨5, 0, 1⟩ : Jac).Y = 0 ∧ (⟨5, 1, 1⟩ : Jac).Z ≠ 0 ∧ (⟨5, 1, 1⟩ : Jac).Y ≠ 0 ∧
    (let s := toy [(0, 5), (1, 1)]; s.pt 0 = .affine 5 1 ∧ 2 * 1 * 9 % s.curve.values.p = 1) := by decide +kernel

theorem witness_PmulResult :
    State.reset.curve.values.groupOk = false ∧
    (let s := toy [(15, -1)]; s.curve.values.groupOk = true ∧ s.x 15 < 0) ∧
    (let s := toy [(0, 5), (1, 1), (15, 2)]; let c := s.curve.values
      0 ≤ s.x 15 ∧ toAffine c (jmul c (s.x 15) (fromAffine c (s.pt 0))) = some (.affine 6 3)) ∧
    (let s := composite [(0, 1), (1, 3), (15, 2)]; let c := s.curve.values
      c.groupOk = true ∧ 0 ≤ s.x 15 ∧ toAffine c (jmul c (s.x 15) (fromAffine c (s.pt 0))) = none) := by decide +kernel

/-- R216: (5, 1) satisfies `y^2 = x^3 + 2x + 2` modulo 17, and is not its own negative. -/
theorem generator_equation : (1 : ZMod 17) ^ 2 = 5 ^ 3 + 2 * 5 + 2 ∧ (1 : ZMod 17) ≠ -1 := by decide

/-- The toy curve's generator as a point of the group of R214. -/
theorem witness_generator [Fact (Nat.Prime 17)] :
    ∃ A, Represents (toy []).curve.values 17 (.affine 5 1) A ∧ Represents (toy []).curve.values 17 .identity 0 := by
  have hc : (toy []).curve.values = ⟨17, 2, 2, 5, 1, 19, 1⟩ := by decide +kernel
  rw [hc]
  refine ⟨.some ((5 : Int) : ZMod 17) ((1 : Int) : ZMod 17) ?_, ⟨?_, rfl⟩, rfl⟩ <;>
  · rw [WeierstrassCurve.Affine.nonsingular_iff, WeierstrassCurve.Affine.equation_iff]
    simp only [Curve.over]
    have e := generator_equation
    push_cast
    exact ⟨by linear_combination e.1, .inr fun h => e.2 (by linear_combination h)⟩

theorem witness_PaddAndPdblAreTheGroupLaw :
    ∃ h : Fact (Nat.Prime 17),
      let s : State := { toy [(0, 5), (1, 1)] with ptag := 2 }
      s.curve.values.p = (17 : Nat) ∧
        ∃ A B, @Represents s.curve.values 17 h (s.pt 0) A ∧ @Represents s.curve.values 17 h (s.pt 1) B := by
  refine ⟨⟨by norm_num⟩, by decide +kernel, ?_⟩
  have : Fact (Nat.Prime 17) := ⟨by norm_num⟩
  obtain ⟨A, hA, h0⟩ := witness_generator
  refine ⟨A, 0, ?_, ?_⟩
  · rw [show ({ toy [(0, 5), (1, 1)] with ptag := 2 } : State).pt 0 = .affine 5 1 by decide +kernel]
    exact hA
  · rw [show ({ toy [(0, 5), (1, 1)] with ptag := 2 } : State).pt 1 = .identity by decide +kernel]
    exact h0

theorem witness_PmulIsTheScalarMultiple :
    ∃ h : Fact (Nat.Prime 17),
      let s := toy [(0, 5), (1, 1), (15, 19)]
      s.curve.values.p = (17 : Nat) ∧ (∃ A, @Represents s.curve.values 17 h (s.pt 0) A) ∧ 0 ≤ s.x 15 := by
  refine ⟨⟨by norm_num⟩, by decide +kernel, ?_, by decide +kernel⟩
  have : Fact (Nat.Prime 17) := ⟨by norm_num⟩
  obtain ⟨A, hA, -⟩ := witness_generator
  refine ⟨A, ?_⟩
  rw [show (toy [(0, 5), (1, 1), (15, 19)]).pt 0 = .affine 5 1 by decide +kernel]
  exact hA

theorem witness_PaddIdentityAndInverse :
    let s : State := { toy [(0, 22), (1, 18), (2, 5), (3, 16)] with ptag := 0x0C }
    s.curve.values.groupOk = true ∧ s.pt 2 = .identity ∧ s.pt 3 = .identity ∧ s.pt 0 = .affine 22 18 ∧
      s.pt 1 = .affine 5 16 ∧ (22 - 5) % s.curve.values.p = 0 ∧ (18 + 16) % s.curve.values.p = 0 ∧
      (18 - 16) % s.curve.values.p ≠ 0 := by decide +kernel

theorem witness_PmulSmallScalars :
    let s : State := { toy [(0, 22), (1, 18), (14, 1)] with ptag := 0x02 }
    s.curve.values.groupOk = true ∧ s.x 15 = 0 ∧ s.x 14 = 1 ∧ s.pt 0 = .affine 22 18 ∧ s.pt 1 = .identity := by decide +kernel

theorem witness_OncurveResult :
    State.reset.curve.values.groupOk = false ∧
    (let c := (cofactor 1 2 []).curve.values
     c.groupOk = true ∧ c.h ≠ 1 ∧ c.n < 2) ∧
    (let s : State := { cofactor 7 2 [(0, 0), (1, 1)] with ptag := 2 }
     s.curve.values.groupOk = true ∧ 2 ≤ s.curve.values.n ∧ s.pt 1 = .identity ∧ s.pt 0 = .affine 0 1) ∧
    (let c := (toy []).curve.values
     c.groupOk = true ∧ c.h = 1) := by decide +kernel

theorem witness_HashIntegerIsBigEndian :
    ({ State.reset with curveSize := 72, hashLen := 32 } : State).curveSize.toNat ≤ 72 ∧
    (toySig 5 7 13).curveSize.toNat ≤ 72 ∧ min State.reset.hashLen.toNat State.reset.curveSize.toNat = 0 ∧
    min (toySig 5 7 13).hashLen.toNat (toySig 5 7 13).curveSize.toNat ≤ (1 : Fin 72).val := by decide +kernel

theorem witness_EcdsavResult :
    ¬ (1 ≤ (0#8).toNat ∧ (0#8).toNat ≤ 72) ∧ ¬ (1 ≤ (73#8).toNat ∧ (73#8).toNat ≤ 72) ∧
    (let s : State := { toySig 5 0 13 with curveSize := 72 }; let c := s.curve.values
      3 ≤ c.p ∧ c.p % 2 = 1 ∧ 2 ≤ c.n ∧ 1 ≤ s.curveSize.toNat ∧ s.curveSize.toNat ≤ 72 ∧ s.x 4 < 1) ∧
    (let s := toySig 5 1 1; let c := s.curve.values
      3 ≤ c.p ∧ c.p % 2 = 1 ∧ 2 ≤ c.n ∧ 1 ≤ s.curveSize.toNat ∧ s.curveSize.toNat ≤ 72 ∧ 1 ≤ s.x 4 ∧ 1 ≤ s.x 5) := by
  decide +kernel

/-- `n`, and `e`, `r`, `s` at a multiple of it; a point off the curve. -/
theorem witness_VerifyCornerCases :
    let c := (toy []).curve.values
    2 ≤ c.n ∧ (19 : Int) % c.n = 0 ∧ (0 : Int) % c.n = 0 ∧ 0 < c.p ∧ ¬ c.p ∣ 2 ^ 2 - (5 ^ 3 + c.a * 5 + c.b) := by
  decide +kernel

theorem witness_VerifyIsTheGroupEquation :
    ∃ h : Fact (Nat.Prime 17),
      let c := (toy []).curve.values
      c.p = (17 : Nat) ∧ 2 ≤ c.n ∧ ∃ A G, @Represents c 17 h (.affine 5 1) A ∧ @Represents c 17 h (.affine c.gx c.gy) G := by
  refine ⟨⟨by norm_num⟩, by decide +kernel, by decide +kernel, ?_⟩
  have : Fact (Nat.Prime 17) := ⟨by norm_num⟩
  obtain ⟨A, hA, -⟩ := witness_generator
  rw [show (toy []).curve.values.gx = 5 by decide +kernel, show (toy []).curve.values.gy = 1 by decide +kernel]
  exact ⟨A, A, hA, hA⟩

theorem witness_WindowLiesAtBase : Config.base + 4096 ≤ Config.base + 4096 ∧ (0 : Nat) < 4096 ∧ 4095 < 4096 := by simp

theorem witness_IllegalAccessesChangeNothing :
    ¬ (Width.w8 = .w32 ∧ 0 % 4 = 0) ∧ ¬ (Width.w32 = .w32 ∧ 0x002 % 4 = 0) ∧ 0xFFC % 4 = 0 ∧ 0xFFC < 4096 := by decide

/-- The commit of an illegal word, of a failed command and of NOP. -/
theorem witness_InterruptRegisters :
    (∃ t, commitWord 0x00000007#32 { State.reset with doneEn := true } = .next t ∧ t.irq = true) ∧
    (∃ t, commitWord 0x00021301#32 State.reset = .next t ∧ (t.errcode, t.irq) = (2, false)) ∧
    ∃ t, commitWord 0#32 State.reset = .next t ∧ t.done = true :=
  ⟨next_of_after (by decide +kernel), next_of_after (by decide +kernel), next_of_after (by decide +kernel)⟩

theorem witness_WignRule :
    ((inFlight State.reset 0).busy = true ∧ Loc.gated .cmd = true ∧ Loc.gated (.reg 15 17) = true) ∧
    ((inFlight State.reset 0).wign = false ∧ ((inFlight State.reset 0).writeLoc 5 .ptag).wign = true) ∧
    (0xFC4 % 4 = 0 ∧ 0xFC4 < 4096 ∧ (locate 0xFC4).gated = true ∧ (locate 0x004).gated = true) ∧
    (∃ t, step { inFlight State.reset 0 with schedule := [wr 0xFC4 5] } = .next t ∧ t.wign = true) ∧
    ∃ t, step { State.reset with wign := true, schedule := [wr 0x008 8] } = .next t ∧ t.wign = false := by
  refine ⟨by decide +kernel, by decide +kernel, by decide, ⟨_, rfl, ?_⟩, _, rfl, ?_⟩
  · simp [State.hostAccess, windowOffset_base, State.memWrite, legalAccess,
      show locate 0xFC4 = .reg 15 17 by decide, State.writeLoc, inFlight, State.accept, State.busy]
  · simp [State.hostAccess, windowOffset_base, State.memWrite, legalAccess, locate, controlLoc, State.writeLoc]

theorem witness_ReservedAndReadOnlyWords :
    0x024 % 4 = 0 ∧ locate 0x024 = .reserved ∧ 0xFFC % 4 = 0 ∧ locate 0xFFC = .reserved ∧ locate 0x0C8 = .reserved := by
  decide

theorem witness_IdleWritesReadBack :
    State.reset.engine = .idle ∧ (locate 0x018).gated = true ∧ (locate 0x020).gated = true ∧ (locate 0x01C).gated = true ∧
    (locate 0x0C4).gated = true ∧ (locate 0xFC4).gated = true ∧ 0xFC4 % 4 = 0 ∧ 0xFC4 < 4096 := by decide +kernel

theorem witness_WideRegisterWordWrites :
    State.reset.engine = .idle ∧ (-2 ^ 575 : Int) ≤ -2 ^ 575 ∧ (-2 ^ 575 : Int) < 2 ^ 575 ∧
    (-2 ^ 575 : Int) ≤ 2 ^ 575 - 1 ∧ (2 ^ 575 - 1 : Int) < 2 ^ 575 := by decide +kernel

/-- The edges of the four kinds of reserved offset, and the used words beside them. -/
theorem witness_AddressMap :
    locate 0x020 = .curveSize ∧ locate 0x024 = .reserved ∧ locate 0x07C = .reserved ∧ locate 0x080 = .curve .p 0 ∧
    locate 0x3C4 = .curve .h 17 ∧ locate 0x3C8 = .reserved ∧ locate 0x444 = .hash 17 ∧ locate 0x448 = .reserved ∧
    locate 0x7FC = .reserved ∧ locate 0x800 = .reg 0 0 ∧ locate 0xFC4 = .reg 15 17 ∧ locate 0xFC8 = .reserved := by decide

end Sys2Proof.Tests
end

section
/-! SUPPORT. The rules of the control state (spec/10_state.md): what a read of it shows, what a bus write, a commit and a step can
do to it, said once for the proofs of this family. -/

namespace Sys2Proof.Machine

/-! ## The control words as read (R43, R47) -/

@[simp] theorem getLsbD_boolWord (b : Bool) (n : Nat) : (boolWord b).getLsbD n = (n == 0 && b) := by
  rcases n with _ | n <;> cases b <;> simp [boolWord]

/-- R43: the four fields of STATUS, lowest bit first. -/
theorem getLsbD_statusWord (s : State) (n : Nat) :
    s.statusWord.getLsbD n = [s.busy, s.result, s.err, s.wign].getD n false := by
  simp only [State.statusWord, BitVec.truncate_eq_setWidth, BitVec.getLsbD_setWidth, BitVec.getLsbD_append,
    BitVec.getLsbD_ofBool]
  rcases n with _ | _ | _ | _ | n <;> simp

theorem busy_eq (s : State) : s.busy = (s.engine != .idle) := by
  unfold State.busy
  cases s.engine <;> rfl

/-! ## Legal accesses (R76, R84, R85) -/

theorem memRead_legal (s : State) {off : Nat} (h : off % 4 = 0) :
    s.memRead off .w32 = .readOk (s.readLoc (locate off)) := by
  simp [State.memRead, legalAccess, h]

theorem memWrite_legal (s : State) {off : Nat} (h : off % 4 = 0) (v : Word) :
    s.memWrite off .w32 v = (s.writeLoc v (locate off), .writeOk) := by
  simp [State.memWrite, legalAccess, h]

/-- R71: an address with an offset is that far from BASE. -/
theorem windowOffset_eq_some {addr off : Nat} (h : windowOffset addr = some off) :
    off < 4096 ∧ addr = Config.base + off := by
  unfold windowOffset at h
  have hw : Config.window = 4096 := rfl
  split_ifs at h with hr
  cases h
  omega

/-- R71, R76: an access changes the answer and nothing else, unless it is an aligned 32-bit write inside the window. -/
theorem hostAccess_answer_or_write (s : State) (a : Access) :
    (∃ r, s.hostAccess a = { s with response := r }) ∨
      ∃ off v, a = .write (Config.base + off) .w32 v ∧ off % 4 = 0 ∧ off < 4096 ∧
        s.hostAccess a = { s.writeLoc v (locate off) with response := some .writeOk } := by
  cases a with
  | read addr width =>
    left
    simp only [State.hostAccess]
    split
    · exact ⟨none, rfl⟩
    · exact ⟨_, rfl⟩
  | write addr width v =>
    simp only [State.hostAccess]
    split
    next => exact .inl ⟨none, rfl⟩
    next off ho =>
      by_cases hl : legalAccess off width = true
      · obtain ⟨rfl, h4⟩ : width = .w32 ∧ off % 4 = 0 := by simpa [legalAccess] using hl
        obtain ⟨h, rfl⟩ := windowOffset_eq_some ho
        exact .inr ⟨off, v, rfl, h4, h, by rw [memWrite_legal s h4]⟩
      · exact .inl ⟨some .writeError, by simp [State.memWrite, hl]⟩

/-! ## What a write can do (R85) -/

/-- R43: a write to STATUS. -/
theorem writeLoc_status (s : State) (v : Word) :
    s.writeLoc v .status = { s with wign := s.wign && !v.getLsbD 3 } := by
  unfold State.writeLoc
  cases v.getLsbD 3 <;> simp

/-- R47: a write to INTR_STATE. -/
theorem writeLoc_intrState (s : State) (v : Word) :
    s.writeLoc v .intrState = { s with done := s.done && !v.getLsbD 0 } := by
  unfold State.writeLoc
  cases v.getLsbD 0 <;> simp

/-- Everything a write can do (R85). -/
theorem writeLoc_cases (s : State) (v : Word) (l : Loc) :
    (l.gated = true ∧ s.busy = true ∧ s.writeLoc v l = { s with wign := true }) ∨
    (l.gated = true ∧ s.busy = false ∧ s.writeLoc v l = s.store v l) ∨
    (l = .status ∧ s.writeLoc v l = { s with wign := s.wign && !v.getLsbD 3 }) ∨
    (l.gated = false ∧ l ≠ .status ∧
      ∃ done doneEn, s.writeLoc v l = { s with done := done, doneEn := doneEn }) := by
  cases hg : l.gated with
  | true =>
    cases hb : s.busy with
    | true => exact .inl ⟨rfl, rfl, writeLoc_gated_busy hb v hg⟩
    | false => exact .inr (.inl ⟨rfl, rfl, writeLoc_gated_idle hb v hg⟩)
  | false =>
    refine .inr (.inr ?_)
    cases l with
    | status => exact .inl ⟨rfl, writeLoc_status s v⟩
    | intrState => exact .inr ⟨rfl, nofun, _, _, writeLoc_intrState s v⟩
    | id | errcode | reserved | intrEnable => exact .inr ⟨rfl, nofun, _, _, rfl⟩
    | cmd | ptag | hashLen | curveSize | curve | hash | reg => cases hg

/-- R44: no write reaches RESULT. -/
@[simp] theorem writeLoc_result (s : State) (v : Word) (l : Loc) : (s.writeLoc v l).result = s.result := by
  obtain ⟨-, -, e⟩ | ⟨-, -, e⟩ | ⟨-, e⟩ | ⟨-, -, _, _, e⟩ := writeLoc_cases s v l <;> rw [e]
  cases l <;> rfl

@[simp] theorem store_wign (s : State) (v : Word) (l : Loc) : (s.store v l).wign = s.wign := by cases l <;> rfl

/-- R46: a write that sets WIGN is gated and finds the block busy. -/
theorem writeLoc_sets_wign {s : State} {v : Word} {l : Loc} (h0 : s.wign = false) (h1 : (s.writeLoc v l).wign = true) :
    s.busy = true ∧ l.gated = true := by
  obtain ⟨hg, hb, -⟩ | ⟨-, -, e⟩ | ⟨-, e⟩ | ⟨-, -, _, _, e⟩ := writeLoc_cases s v l
  · exact ⟨hb, hg⟩
  all_goals rw [e] at h1; simp [h0] at h1

/-- R43, R46: a write that clears WIGN goes to STATUS and has bit 3 set. -/
theorem writeLoc_clears_wign {s : State} {v : Word} {l : Loc} (h1 : s.wign = true) (h0 : (s.writeLoc v l).wign = false) :
    l = .status ∧ v.getLsbD 3 = true := by
  obtain ⟨-, -, e⟩ | ⟨-, -, e⟩ | ⟨hl, e⟩ | ⟨-, -, _, _, e⟩ := writeLoc_cases s v l <;> rw [e] at h0
  · cases h0
  · simp [h1] at h0
  · exact ⟨hl, by simpa [h1] using h0⟩
  · simp [h1] at h0

/-! ## What a command and a step can do (R132, R140) -/

/-- R132: the next state of a command is the commit of its outcome. -/
theorem exec_next {i : Instr} {s t : State} (h : exec i s = .next t) : t = s.commit (resultOf i s) :=
  (Host.Outcome.next.inj ((exec_eq i s).symm.trans h)).symm

/-- The engine's turn: an idle block stays as it is, a busy one commits the outcome of its word (R133, R140). -/
theorem engineTurn_next_cases {s t : State} (h : engineTurn s = .next t) :
    (s.engine = .idle ∧ t = s) ∨ ∃ v, s.engine = .busy v ∧ t = s.commit (s.execWord v) := by
  obtain ⟨hi, e⟩ | ⟨v, hv, e⟩ := engineTurn_cases s
  · exact .inl ⟨hi, (Host.Outcome.next.inj (e.symm.trans h)).symm⟩
  · exact .inr ⟨v, hv, (Host.Outcome.next.inj (e.symm.trans h)).symm⟩

/-- The state with the turn at the head of its schedule taken off. -/
def State.passTurn (s : State) : State := { s with schedule := s.schedule.tail }

theorem passTurn_of_empty {s : State} (h : s.schedule = []) : s.passTurn = s := by
  cases s
  cases h
  rfl

theorem passTurn_of_cons {s : State} {turn : Turn} {rest : List Turn} (h : s.schedule = turn :: rest) :
    s.passTurn = { s with schedule := rest } := by rw [State.passTurn, h, List.tail_cons]

/-- The next state of a step, by who takes the turn: the engine in an idle block, its commit in a busy one, the host, or
reset. -/
theorem step_next_cases {s t : State} (h : step s = .next t) :
    (s.engine = .idle ∧ t = s.passTurn) ∨
    (∃ v, s.engine = .busy v ∧ t = s.passTurn.commit (s.passTurn.execWord v)) ∨
    (∃ a rest, s.schedule = .host a :: rest ∧ t = s.passTurn.hostAccess a) ∨
    ∃ rest, s.schedule = .reset :: rest ∧ t = s.passTurn.resetEvent := by
  have engine (e : step s = engineTurn s.passTurn) :
      (s.engine = .idle ∧ t = s.passTurn) ∨ ∃ v, s.engine = .busy v ∧ t = s.passTurn.commit (s.passTurn.execWord v) :=
    engineTurn_next_cases (e.symm.trans h)
  obtain ⟨hs, e⟩ | ⟨rest, hs, e⟩ | ⟨a, rest, hs, e⟩ | ⟨rest, hs, e⟩ := step_cases s
  · exact or_assoc.1 (.inl (engine (by rw [passTurn_of_empty hs, e])))
  · exact or_assoc.1 (.inl (engine (by rw [passTurn_of_cons hs, e])))
  · rw [passTurn_of_cons hs]
    exact .inr (.inr (.inl ⟨a, rest, hs, (Host.Outcome.next.inj (e.symm.trans h)).symm⟩))
  · rw [passTurn_of_cons hs]
    exact .inr (.inr (.inr ⟨rest, hs, (Host.Outcome.next.inj (e.symm.trans h)).symm⟩))

/-! ## The invariant (R42, R45, R280) -/

/-- The invariant reads CMD, ERRCODE and the phase only. -/
theorem State.Inv.congr {s t : State} (h : s.Inv) (hc : t.cmd = s.cmd) (he : t.errcode = s.errcode)
    (hp : t.engine = s.engine) : t.Inv where
  pending_is_cmd v hv := hc.trans (h.pending_is_cmd v (hp.symm.trans hv))
  busy_errcode_zero hb := he.trans (h.busy_errcode_zero (by rwa [busy_eq, hp, ← busy_eq] at hb))
  errcode_le_seven := he ▸ h.errcode_le_seven

theorem passTurn_inv {s : State} (h : s.Inv) : s.passTurn.Inv := h.congr rfl rfl rfl

/-- An idle block needs only a code in range. -/
theorem inv_of_idle {s : State} (hp : s.engine = .idle) (he : s.errcode.toNat ≤ 7) : s.Inv where
  pending_is_cmd v hv := by simp [hp] at hv
  busy_errcode_zero hb := by simp [busy_eq, hp] at hb
  errcode_le_seven := he

/-- R131: acceptance establishes the invariant, whatever the state. -/
theorem accept_inv (s : State) (v : Word) : (s.accept v).Inv where
  pending_is_cmd _ hv := Engine.busy.inj hv
  busy_errcode_zero _ := rfl
  errcode_le_seven := by simp

/-- R136, R137, R280: so does every commit. -/
theorem commit_inv (s : State) (r : Result) : (s.commit r).Inv := by
  cases r with
  | ok w b => exact inv_of_idle (by simp [State.commit]) (by simp [State.commit])
  | err e => exact inv_of_idle rfl (errCode_range e).2

theorem reset_inv : State.reset.Inv := inv_of_idle rfl (by decide)

/-- R85, R131: a write accepts a command or leaves CMD, ERRCODE and the phase alone. -/
theorem writeLoc_inv {s : State} (h : s.Inv) (v : Word) (l : Loc) : (s.writeLoc v l).Inv := by
  obtain ⟨-, -, e⟩ | ⟨hg, -, e⟩ | ⟨-, e⟩ | ⟨-, -, _, _, e⟩ := writeLoc_cases s v l <;> rw [e]
  case inr.inl =>
    cases l with
    | cmd => exact accept_inv s v
    | _ => exact h.congr rfl rfl rfl
  all_goals exact h.congr rfl rfl rfl

theorem hostAccess_inv {s : State} (h : s.Inv) (a : Access) : (s.hostAccess a).Inv := by
  obtain ⟨r, e⟩ | ⟨v, l, e⟩ := hostAccess_cases s a <;> rw [e]
  · exact h.congr rfl rfl rfl
  · exact (writeLoc_inv h v l).congr rfl rfl rfl

/-- Settles O12: the commit, acceptance and reset each establish the invariant, and any other write leaves CMD, ERRCODE and the
phase alone. -/
theorem stepKeepsInvariant : Obligations.StepKeepsInvariant := by
  intro s t hs h
  obtain ⟨-, rfl⟩ | ⟨v, -, rfl⟩ | ⟨a, rest, -, rfl⟩ | ⟨rest, -, rfl⟩ := step_next_cases h
  · exact passTurn_inv hs
  · exact commit_inv _ _
  · exact hostAccess_inv (passTurn_inv hs) a
  · exact reset_inv.congr rfl rfl rfl

/-- Settles O11: after reset no command is in flight and ERRCODE is 0. -/
theorem resetMeetsInvariant : Obligations.ResetMeetsInvariant := reset_inv

/-! ## The tags (R36) -/

/-- R36: an integer command does not reach PTAG. -/
theorem commit_integer_ptag {i : Instr} {d : Reg} (h : integerDest i = some d) (s : State) :
    (s.commit (resultOf i s)).ptag = s.ptag := by
  obtain ⟨e, hr⟩ | ⟨v, hr⟩ := resultOf_integer h s <;> rw [hr] <;> simp [State.commit]

/-- R36: a write to a word of a register does not reach PTAG. -/
theorem writeLoc_reg_ptag (s : State) (v : Word) (i : Reg) (j : Fin 18) : (s.writeLoc v (.reg i j)).ptag = s.ptag := by
  unfold State.writeLoc
  cases s.busy <;> rfl

/-- Settles O20: the only writes of an integer command and of a register store go to registers. -/
theorem integerWritesKeepTags : Obligations.IntegerWritesKeepTags := by
  refine ⟨fun i s t d hd h => ?_, fun s i j v => ?_⟩
  · obtain rfl := exec_next h
    exact commit_integer_ptag hd s
  · rw [memWrite_legal s (by unfold regBase; omega), locate_reg]
    exact writeLoc_reg_ptag s v i j

/-! ## RESULT (R44) -/

/-- R136: only ONCURVE and ECDSAV have an outcome that writes RESULT. -/
theorem resultOf_writes_result {i : Instr} {s : State} {w : Option Update} {b : Bool} (h : resultOf i s = .ok w (some b)) :
    (∃ k, i = .oncurve k) ∨ ∃ q r sg, i = .ecdsav q r sg := by
  cases hi : integerDest i with
  | some d => obtain ⟨e, hr⟩ | ⟨v, hr⟩ := resultOf_integer hi s <;> simp [hr] at h
  | none =>
    cases hp : pointDest i with
    | some k => obtain ⟨e, hr⟩ | ⟨P, hr⟩ := resultOf_point hp s <;> simp [hr] at h
    | none =>
      cases i with
      | nop => simp [resultOf, nopResult] at h
      | oncurve k => exact .inl ⟨k, rfl⟩
      | ecdsav q r sg => exact .inr ⟨q, r, sg, rfl⟩
      | modred | modinv | modexp | modsqrt | montmul | modmul => cases hi
      | padd | pdbl | pmul => cases hp

/-- R213: ONCURVE ends in BAD_CURVE or in the on-curve test. -/
theorem oncurveResult_cases (k : PReg) (s : State) :
    oncurveResult k s = .err .badCurve ∨ oncurveResult k s = .ok none (some (onCurveCore s.curve.values (s.pt k))) := by
  unfold oncurveResult
  dsimp only
  split_ifs <;> simp

/-- R263: ECDSAV ends in one of its two codes or in the verification. -/
theorem ecdsavResult_cases (q : PReg) (r sg : Reg) (s : State) :
    (∃ e, ecdsavResult q r sg s = .err e) ∨
      ecdsavResult q r sg s = .ok none (some (verify s.curve.values s.hashInt (s.pt q) (s.x r) (s.x sg))) := by
  unfold ecdsavResult
  split_ifs <;> simp

/-- R137, R280: a command that failed leaves a code. -/
theorem commit_err_errcode_ne_zero (s : State) (e : ErrCode) : (s.commit (.err e)).errcode ≠ 0 := by
  change e.code ≠ 0
  cases e <;> decide

/-- R44: a commit that changes RESULT is one without error, of an outcome that writes it. -/
theorem commit_changes_result {s : State} {r : Result} (h : (s.commit r).result ≠ s.result) :
    (s.commit r).errcode = 0 ∧ ∃ w b, r = .ok w (some b) := by
  cases r with
  | err e => exact absurd rfl h
  | ok w res =>
    cases res with
    | none => simp [State.commit] at h
    | some b => exact ⟨by simp [State.commit], w, b, rfl⟩

/-- R44: no access of the host reaches RESULT. -/
theorem hostAccess_result (s : State) (a : Access) : (s.hostAccess a).result = s.result := by
  obtain ⟨r, e⟩ | ⟨v, l, e⟩ := hostAccess_cases s a <;> rw [e]
  exact writeLoc_result s v l

/-- Settles O21: RESULT is written by a commit whose outcome carries it, and read by none. -/
theorem resultFlagRule : Obligations.ResultFlagRule := by
  refine ⟨fun i s t h hne => ?_, fun s t k h he => ?_, fun s t q r sg h he => ?_, fun s => rfl, hostAccess_result,
    fun s => ?_, fun i s b => ⟨resultOf i s, exec_eq i s, ?_⟩⟩
  · obtain rfl := exec_next h
    obtain ⟨he, w, b, hr⟩ := commit_changes_result hne
    exact ⟨he, resultOf_writes_result hr⟩
  · obtain rfl : t = s.commit (oncurveResult k s) := exec_next h
    obtain hr | hr := oncurveResult_cases k s <;> rw [hr] at he ⊢
    · exact absurd he (commit_err_errcode_ne_zero s _)
    · rfl
  · obtain rfl : t = s.commit (ecdsavResult q r sg s) := exec_next h
    obtain ⟨e, hr⟩ | hr := ecdsavResult_cases q r sg s <;> rw [hr] at he ⊢
    · exact absurd he (commit_err_errcode_ne_zero s e)
    · rfl
  · exact getLsbD_statusWord s 1
  · have same : resultOf i { s with result := b } = resultOf i s := resultOf_congr rfl rfl rfl rfl rfl rfl
    rw [exec_eq, same]

/-! ## WIGN (R46) -/

/-- An aligned offset below 4096 that names STATUS is 0x008 (R80). -/
theorem off_of_locate_status {off : Nat} (h4 : off % 4 = 0) (hw : off < 4096) (h : locate off = .status) : off = 0x008 := by
  have := offset_locate h4 hw (by simp [h])
  rw [h] at this
  exact this.symm

/-- R46: an access that sets WIGN is a gated write to a busy block. -/
theorem hostAccess_sets_wign {s : State} {a : Access} (h0 : s.wign = false) (h1 : (s.hostAccess a).wign = true) :
    s.busy = true ∧ ∃ off v, a = .write (Config.base + off) .w32 v ∧ off % 4 = 0 ∧ off < 4096 ∧
      (locate off).gated = true := by
  obtain ⟨r, e⟩ | ⟨off, v, ha, h4, hw, e⟩ := hostAccess_answer_or_write s a <;> rw [e] at h1
  · simp [h0] at h1
  · obtain ⟨hb, hg⟩ := writeLoc_sets_wign h0 h1
    exact ⟨hb, off, v, ha, h4, hw, hg⟩

/-- R46: an access that clears WIGN is a write of STATUS with bit 3 set. -/
theorem hostAccess_clears_wign {s : State} {a : Access} (h1 : s.wign = true) (h0 : (s.hostAccess a).wign = false) :
    ∃ v, a = .write (Config.base + 0x008) .w32 v ∧ v.getLsbD 3 = true := by
  obtain ⟨r, e⟩ | ⟨off, v, ha, h4, hw, e⟩ := hostAccess_answer_or_write s a <;> rw [e] at h0
  · simp [h1] at h0
  · obtain ⟨hl, hv⟩ := writeLoc_clears_wign h1 h0
    exact ⟨v, off_of_locate_status h4 hw hl ▸ ha, hv⟩

/-- R46, R85: the step of a gated write to a busy block. -/
theorem step_gated_write_busy {s : State} {off : Nat} {v : Word} {rest : List Turn} (hb : s.busy = true) (h4 : off % 4 = 0)
    (hw : off < 4096) (hg : (locate off).gated = true)
    (hs : s.schedule = .host (.write (Config.base + off) .w32 v) :: rest) :
    step s = .next { s with schedule := rest, wign := true, response := some .writeOk } := by
  simp only [step, turnStep, hs, State.hostAccess, windowOffset_base off hw, memWrite_legal _ h4]
  rw [writeLoc_gated_busy (s := { s with schedule := rest }) hb v hg]

/-- R46: a step that changes WIGN is an access of the host or a reset. -/
theorem step_wign {s t : State} (h : step s = .next t) :
    t.wign = s.wign ∨ (∃ a rest, s.schedule = .host a :: rest ∧ t = s.passTurn.hostAccess a) ∨
      ((∃ rest, s.schedule = .reset :: rest) ∧ t.wign = false) := by
  obtain ⟨-, rfl⟩ | ⟨v, -, rfl⟩ | host | ⟨rest, hs, rfl⟩ := step_next_cases h
  · exact .inl rfl
  · obtain ⟨-, -, -, -, -, hw, -⟩ := commit_fields s.passTurn (s.passTurn.execWord v)
    exact .inl hw
  · exact .inr (.inl host)
  · exact .inr (.inr ⟨⟨rest, hs⟩, rfl⟩)

/-- Settles O55: only a gated write to a busy block sets WIGN, and only reset or STATUS bit 3 clears it. -/
theorem wignRule : Obligations.WignRule := by
  refine ⟨fun s v l hb hl => writeLoc_gated_busy hb v hl, fun s v l => writeLoc_sets_wign,
    fun s t h h0 => ⟨fun h1 => ?_, ?_⟩, fun s off v rest => step_gated_write_busy, fun s t h h1 h0 => ?_⟩
  · obtain e | ⟨a, rest, hs, rfl⟩ | ⟨-, e⟩ := step_wign h
    · simp [e, h0] at h1
    · obtain ⟨hb, off, v, rfl, hoff⟩ := hostAccess_sets_wign (s := s.passTurn) h0 h1
      exact ⟨hb, off, v, rest, hs, hoff⟩
    · simp [e] at h1
  · rintro ⟨hb, off, v, rest, hs, h4, hw, hg⟩
    obtain rfl := Host.Outcome.next.inj ((step_gated_write_busy hb h4 hw hg hs).symm.trans h)
    rfl
  · obtain e | ⟨a, rest, hs, rfl⟩ | ⟨hr, -⟩ := step_wign h
    · simp [e, h1] at h0
    · obtain ⟨v, rfl, hv⟩ := hostAccess_clears_wign (s := s.passTurn) h1 h0
      exact .inr ⟨v, rest, hs, hv⟩
    · exact .inl hr

/-! ## After reset (R51) -/

/-- R201: without `group_ok` every curve command ends in BAD_CURVE. -/
theorem resultOf_not_groupOk {i : Instr} {s : State} (h : s.curve.values.groupOk = false) (hn : i ≠ .nop)
    (hi : integerDest i = none) : resultOf i s = .err .badCurve := by
  cases i with
  | nop => exact absurd rfl hn
  | modred | modinv | modexp | modsqrt | montmul | modmul => cases hi
  | padd d a b => simp [resultOf, paddResult, h]
  | pdbl d a => simp [resultOf, pdblResult, h]
  | pmul d k a => simp [resultOf, pmulResult, h]
  | oncurve a => simp [resultOf, oncurveResult, h]
  | ecdsav q r sg => simp [resultOf, ecdsavResult, State.ecdsaOk, h]

theorem groupOk_of_p_zero {s : State} (h : s.curve.p = 0) : s.curve.values.groupOk = false := by
  have hp : s.curve.values.p = 0 := (congrArg sval h).trans sval_zero
  rw [Bool.eq_false_iff, Ne, groupOk_iff, hp]
  decide

/-- R51: no curve is loaded while CURVE_P is 0. -/
theorem exec_of_p_zero {i : Instr} {s : State} (h : s.curve.p = 0) (hn : i ≠ .nop) (hi : integerDest i = none) :
    exec i s = .next (s.endError 6) := by
  rw [exec_eq, resultOf_not_groupOk (groupOk_of_p_zero h) hn hi]
  rfl

/-- Settles O9: R51 by evaluation, and `group_ok` fails for `p = 0`. -/
theorem resetValues : Obligations.ResetValues := by
  refine ⟨fun i => by simp [State.reset], rfl, fun c => by cases c <;> rfl, rfl, fun i => by simp [State.reset],
    rfl, rfl, rfl, rfl, rfl, rfl, rfl, rfl, rfl, rfl, rfl, rfl, fun s h => ?_⟩
  exact ⟨fun d a b => exec_of_p_zero h nofun rfl, fun d a => exec_of_p_zero h nofun rfl,
    fun d k a => exec_of_p_zero h nofun rfl, fun a => exec_of_p_zero h nofun rfl, fun q r sg => exec_of_p_zero h nofun rfl⟩

/-! ## STATUS (R43) -/

/-- Settles O53, from what STATUS reads as and what a write to it does. -/
theorem statusFields : Obligations.StatusFields := by
  intro s
  refine ⟨rfl, rfl, ?_, getLsbD_statusWord s 1, getLsbD_statusWord s 2, getLsbD_statusWord s 3, fun n hn => ?_, fun v => ?_⟩
  · rw [← busy_eq]
    exact getLsbD_statusWord s 0
  · exact (getLsbD_statusWord s n).trans (List.getD_eq_default _ _ hn)
  · rw [memWrite_legal s rfl]
    exact writeLoc_status s v

/-! ## DONE, DONE_EN and irq (R47, R290) -/

/-- R47: every commit sets DONE, so that the interrupt output is DONE_EN. -/
theorem commit_done_irq (s : State) (r : Result) : (s.commit r).done = true ∧ (s.commit r).irq = s.doneEn := by
  cases r <;> simp [State.commit, State.irq]

/-- Settles O54, from what the two registers read as and what a write to each does. -/
theorem interruptRegisters : Obligations.InterruptRegisters := by
  refine ⟨fun v s t h => ?_, rfl, rfl, fun s => ⟨rfl, rfl, fun n => ⟨memRead_legal s rfl, getLsbD_boolWord _ n⟩,
    fun n => ⟨memRead_legal s rfl, getLsbD_boolWord _ n⟩, fun v => ⟨?_, ?_⟩⟩⟩
  · obtain rfl := Host.Outcome.next.inj ((commitWord_eq v s).symm.trans h)
    exact commit_done_irq s _
  · rw [memWrite_legal s rfl]
    exact writeLoc_intrState s v
  · rw [memWrite_legal s rfl]
    rfl

end Sys2Proof.Machine
end

section
/-! SUPPORT. The register window (spec/20_memory.md): where its words lie, what a write stores, and how the words and bytes of the
wide registers lie in it. -/

namespace Sys2Proof.Machine

/-! ## The address map (R80) -/

/-- An aligned offset that names a used word is that word's own. -/
theorem offset_of_locate {off : Nat} {l : Loc} (h4 : off % 4 = 0) (hw : off < 4096) (h : locate off = l)
    (hl : l ≠ .reserved) : off = l.offset := by
  subst h
  exact (offset_locate h4 hw hl).symm

/-- Two aligned offsets do not name the same used word. -/
theorem locate_ne {off off' : Nat} (h4 : off % 4 = 0) (hw : off < 4096) (hl : locate off ≠ .reserved) (h4' : off' % 4 = 0)
    (hw' : off' < 4096) (hne : off' ≠ off) : locate off' ≠ locate off := fun h =>
  hne ((offset_of_locate h4' hw' h hl).trans (offset_locate h4 hw hl))

/-- The words of a slot are reserved from word 18 on. -/
theorem slotWord_eq_reserved_iff {j : Nat} {f : Fin 18 → Loc} (hf : ∀ i, f i ≠ .reserved) :
    slotWord j f = .reserved ↔ 18 ≤ j := by
  obtain ⟨h, e⟩ | ⟨h, e⟩ := slotWord_eq j f <;> rw [e]
  · exact iff_of_false (hf _) (by omega)
  · exact iff_of_true rfl h

/-- The control words are the first nine. -/
theorem controlLoc_eq_reserved_iff {n : Nat} (hn : n < 32) : controlLoc n = .reserved ↔ 9 ≤ n := by
  interval_cases n <;> decide

/-- The gaps of the map. -/
theorem locate_eq_reserved_iff {off : Nat} (h4 : off % 4 = 0) (hw : off < 4096) :
    locate off = .reserved ↔
      (0x024 ≤ off ∧ off < 0x080) ∨ (0x080 ≤ off ∧ off < 0x400 ∧ 0x48 ≤ off % 0x80) ∨ (0x448 ≤ off ∧ off < 0x800) ∨
        (0x800 ≤ off ∧ 0x48 ≤ off % 0x80) := by
  unfold locate
  split_ifs with control curve hash
  · exact (controlLoc_eq_reserved_iff (by omega)).trans (by omega)
  · exact (slotWord_eq_reserved_iff (by nofun)).trans (by omega)
  · exact (slotWord_eq_reserved_iff (by nofun)).trans (by omega)
  · exact (slotWord_eq_reserved_iff (by nofun)).trans (by omega)

/-- Settles O60, from the offset of each used word and the gaps. -/
theorem addressMap : Obligations.AddressMap :=
  ⟨rfl, rfl, rfl, rfl, rfl, rfl, rfl, rfl, rfl, locate_curve, locate_hash, locate_reg, fun _ => locate_eq_reserved_iff⟩

/-! ## Accesses (R71, R76, R79) -/

/-- R71: an address outside the window has no offset. -/
theorem windowOffset_outside {addr : Nat} (h : addr < Config.base ∨ Config.base + 4096 ≤ addr) : windowOffset addr = none := by
  rw [windowOffset, show Config.window = 4096 from rfl, if_neg (by omega)]

/-- Settles O51: BASE is a multiple of the window's size, and the offset is the distance from it. -/
theorem windowLiesAtBase : Obligations.WindowLiesAtBase := by
  refine ⟨Nat.mul_mod_right 4096 _, windowOffset_base, fun addr h => ?_⟩
  have hout := windowOffset_outside h
  exact ⟨hout, fun s width v => ⟨by rw [State.hostAccess, hout], by rw [State.hostAccess, hout]⟩⟩

/-- R76: which accesses are legal. -/
theorem legalAccess_iff {off : Nat} {width : Width} : legalAccess off width = true ↔ width = .w32 ∧ off % 4 = 0 := by
  simp [legalAccess]

/-- R76: an illegal write changes nothing and gets the bus error. -/
theorem memWrite_illegal (s : State) {off : Nat} {width : Width} (h : ¬ (width = .w32 ∧ off % 4 = 0)) (v : Word) :
    s.memWrite off width v = (s, .writeError) := if_neg (legalAccess_iff.not.2 h)

/-- R76: an illegal read gets the bus error with data 0. -/
theorem memRead_illegal (s : State) {off : Nat} {width : Width} (h : ¬ (width = .w32 ∧ off % 4 = 0)) :
    s.memRead off width = .readError 0 := if_neg (legalAccess_iff.not.2 h)

/-- R79: a read changes nothing but the record of the answer. -/
theorem hostAccess_read (s : State) {off : Nat} (h : off < 4096) (width : Width) :
    s.hostAccess (.read (Config.base + off) width) = { s with response := some (s.memRead off width) } := by
  rw [State.hostAccess, windowOffset_base off h]

/-- No read looks at the record of the last answer. -/
theorem memRead_response (s : State) (r : Option Response) (off : Nat) (width : Width) :
    { s with response := r }.memRead off width = s.memRead off width := rfl

/-- Settles O52, from the legal and the illegal accesses apart. -/
theorem illegalAccessesChangeNothing : Obligations.IllegalAccessesChangeNothing := by
  refine fun s off width v => ⟨fun h => ⟨memWrite_illegal s h v, memRead_illegal s h⟩, fun hw h4 => ?_, fun h => ?_⟩
  · subst hw
    exact ⟨by rw [memWrite_legal s h4], memRead_legal s h4⟩
  · rw [hostAccess_read s h]
    exact ⟨rfl, memRead_response s _ off width⟩

/-! ## Reserved and read-only words (R81, R82) -/

/-- Settles O56, by the word the offset names. -/
theorem reservedAndReadOnlyWords : Obligations.ReservedAndReadOnlyWords := by
  refine fun s off v h4 => ⟨fun hr => ?_, ?_, ?_, rfl⟩
  · rw [memRead_legal s h4, memWrite_legal s h4, hr]
    exact ⟨rfl, rfl⟩
  · rintro (rfl | rfl) <;> rfl
  · rintro rfl
    rw [memWrite_legal s h4, show locate 0x008 = .status from rfl, writeLoc_status]
    exact ⟨rfl, rfl, rfl, rfl⟩

/-! ## Accesses to a busy block (R85, R92) -/

/-- R132: the outcome of a word, legal or not, depends on the registers, the tags, the curve and the hash only. -/
theorem execWord_congr {s t : State} (hregs : s.regs = t.regs) (hptag : s.ptag = t.ptag) (hcurve : s.curve = t.curve)
    (hsize : s.curveSize = t.curveSize) (hhash : s.hash = t.hash) (hlen : s.hashLen = t.hashLen) (v : Word) :
    s.execWord v = t.execWord v := by
  unfold State.execWord
  cases decode v with
  | none => rfl
  | some i => exact resultOf_congr hregs hptag hcurve hsize hhash hlen

/-- R85: an access to a busy block reaches only WIGN, DONE and DONE_EN, and the record of the answer. -/
theorem hostAccess_busy {s : State} (hb : s.busy = true) (a : Access) :
    s.hostAccess a = { s with
      wign := (s.hostAccess a).wign
      done := (s.hostAccess a).done
      doneEn := (s.hostAccess a).doneEn
      response := (s.hostAccess a).response } := by
  obtain ⟨r, e⟩ | ⟨v, l, e⟩ := hostAccess_cases s a <;> rw [e]
  rw [writeLoc_busy hb]

/-- Settles O13: what an access to a busy block reaches is no input of `Exec`. -/
theorem busyFreezesCommandInputs : Obligations.BusyFreezesCommandInputs := by
  refine fun s a hb => ⟨hostAccess_busy hb a, fun v => ?_⟩
  rw [hostAccess_busy hb a]
  exact execWord_congr rfl rfl rfl rfl rfl rfl v

/-! ## What a write stores (R85, R87) -/

theorem CurveRegs.get_put (r : CurveRegs) (v : Wide) (c d : CurveReg) :
    (r.put v c).get d = if d = c then v else r.get d := by
  cases c <;> cases d <;> rfl

/-- The low byte of a word, as an 8-bit register reads back. -/
theorem zeroExtend_lowByte (v : Word) : (v.extractLsb' 0 8).zeroExtend 32 = v &&& 0xFF#32 := by
  apply BitVec.eq_of_toNat_eq
  rw [BitVec.toNat_and, show (0xFF#32).toNat = 2 ^ 8 - 1 from rfl, Nat.and_two_pow_sub_one_eq_mod]
  simp
  omega

/-- R84: what a word reads as once `v` is stored in it: PTAG and CURVE_SIZE keep the low byte. -/
def Loc.kept (v : Word) : Loc → Word
  | .ptag | .curveSize => v &&& 0xFF#32
  | _ => v

/-- R84, R85: a stored word reads back. -/
theorem readLoc_store_same (s : State) (v : Word) {l : Loc} (hg : l.gated = true) (hc : l ≠ .cmd) :
    (s.store v l).readLoc l = l.kept v := by
  cases l with
  | cmd => exact absurd rfl hc
  | ptag | curveSize => exact zeroExtend_lowByte v
  | hashLen => rfl
  | curve c j => simp [State.store, State.readLoc, CurveRegs.get_put, Loc.kept]
  | hash j => simp [State.store, State.readLoc, Loc.kept]
  | reg i j => simp [State.store, State.readLoc, Loc.kept]
  | id | status | errcode | intrState | intrEnable | reserved => cases hg

/-- R85, R87: storing a word leaves what every other word reads as. -/
theorem readLoc_store_ne (s : State) (v : Word) {k l : Loc} (hg : l.gated = true) (hc : l ≠ .cmd) (hk : k ≠ l) :
    (s.store v l).readLoc k = s.readLoc k := by
  cases l with
  | cmd => exact absurd rfl hc
  | ptag =>
    cases k with
    | ptag => exact absurd rfl hk
    | _ => rfl
  | hashLen =>
    cases k with
    | hashLen => exact absurd rfl hk
    | _ => rfl
  | curveSize =>
    cases k with
    | curveSize => exact absurd rfl hk
    | _ => rfl
  | curve c j =>
    cases k with
    | curve d k =>
      simp only [State.store, State.readLoc, CurveRegs.get_put]
      split_ifs with h
      · subst h
        exact wideWord_setWideWord_ne _ (fun e => hk (by rw [e])) v
      · rfl
    | _ => rfl
  | hash j =>
    cases k with
    | hash k => exact hashWord_setHashWord_ne _ (fun e => hk (by rw [e])) v
    | _ => rfl
  | reg i j =>
    cases k with
    | reg i' k =>
      simp only [State.store, State.readLoc, Fin.getElem_fin, Vector.getElem_set]
      split_ifs with h
      · obtain rfl := Fin.ext h
        exact wideWord_setWideWord_ne _ (fun e => hk (by rw [e])) v
      · rfl
    | _ => rfl
  | id | status | errcode | intrState | intrEnable | reserved => cases hg

/-- A legal write to a gated word of an idle block stores it. -/
theorem memWrite_gated_idle {s : State} (hi : s.engine = .idle) {off : Nat} (h4 : off % 4 = 0)
    (hg : (locate off).gated = true) (v : Word) : s.memWrite off .w32 v = (s.store v (locate off), .writeOk) := by
  rw [memWrite_legal s h4, writeLoc_gated_idle (by simp [busy_eq, hi]) v hg]

theorem ne_reserved_of_gated {l : Loc} (h : l.gated = true) : l ≠ .reserved := by
  rintro rfl
  cases h

/-- R80: PTAG and CURVE_SIZE by their offsets. -/
theorem kept_locate {off : Nat} (h4 : off % 4 = 0) (hw : off < 4096) (v : Word) :
    (locate off).kept v = if off = 0x018 ∨ off = 0x020 then v &&& 0xFF#32 else v := by
  split_ifs with h
  · obtain rfl | rfl := h <;> rfl
  · cases hl : locate off with
    | ptag => exact absurd (.inl (offset_of_locate h4 hw hl nofun)) h
    | curveSize => exact absurd (.inr (offset_of_locate h4 hw hl nofun)) h
    | _ => rfl

/-- Settles O57: the offset names a word of its own, and storing a word leaves the others. -/
theorem idleWritesReadBack : Obligations.IdleWritesReadBack := by
  intro s off v hi h4 hw hg hcmd
  have hc : locate off ≠ .cmd := fun h => hcmd (offset_of_locate h4 hw h nofun)
  rw [memWrite_gated_idle hi h4 hg]
  refine ⟨?_, fun off' h4' hw' hne => ?_⟩
  · rw [memRead_legal _ h4, readLoc_store_same s v hg hc, kept_locate h4 hw]
  · rw [memRead_legal _ h4', memRead_legal _ h4',
      readLoc_store_ne s v hg hc (locate_ne h4 hw (ne_reserved_of_gated hg) h4' hw' hne)]

/-! ## Word writes of the wide registers (R87) -/

theorem regBase_aligned (i : Reg) : regBase i % 4 = 0 := by
  unfold regBase
  omega

theorem curveBase_aligned (c : CurveReg) : curveBase c % 4 = 0 := by cases c <;> rfl

theorem word_aligned {base : Nat} (hb : base % 4 = 0) (j : Nat) : (base + 4 * j) % 4 = 0 := by omega

/-- R87: while IDLE a write to a word of an operand register sets that word of it. -/
theorem memWrite_reg_word {s : State} (hi : s.engine = .idle) (i : Reg) (j : Fin 18) (v : Word) :
    (s.memWrite (regBase i + 4 * j.val) .w32 v).1.engine = .idle ∧
      (s.memWrite (regBase i + 4 * j.val) .w32 v).1.regs[i] = setWideWord s.regs[i] j v := by
  have hl := locate_reg i j
  rw [memWrite_gated_idle hi (word_aligned (regBase_aligned i) j) (by rw [hl]; rfl), hl]
  exact ⟨hi, by simp [State.store]⟩

/-- R87: while IDLE a write to a word of a curve register sets that word of it. -/
theorem memWrite_curve_word {s : State} (hi : s.engine = .idle) (c : CurveReg) (j : Fin 18) (v : Word) :
    (s.memWrite (curveBase c + 4 * j.val) .w32 v).1.engine = .idle ∧
      (s.memWrite (curveBase c + 4 * j.val) .w32 v).1.curve.get c = setWideWord (s.curve.get c) j v := by
  have hl := locate_curve c j
  rw [memWrite_gated_idle hi (word_aligned (curveBase_aligned c) j) (by rw [hl]; rfl), hl]
  exact ⟨hi, by simp [State.store, CurveRegs.get_put]⟩

/-- Words of `p` set in turn: each of them ends as the word of `p`, and the others stay. -/
theorem wideWord_foldl_setWideWord (p : Wide) (k : Fin 18) (js : List (Fin 18)) (r : Wide) :
    wideWord (js.foldl (fun r j => setWideWord r j (wideWord p j)) r) k =
      if k ∈ js then wideWord p k else wideWord r k := by
  induction js generalizing r with
  | nil => simp
  | cons j js ih =>
    rw [List.foldl_cons, ih]
    by_cases hj : k = j
    · subst hj
      simp
    · simp [hj, wideWord_setWideWord_ne r hj]

/-- R87: the 18 words of a pattern make the pattern. -/
theorem foldl_setWideWord (p r : Wide) :
    (List.finRange 18).foldl (fun r j => setWideWord r j (wideWord p j)) r = p :=
  wide_ext fun k => by simp [wideWord_foldl_setWideWord]

section
variable {base : Nat} {get : State → Wide}
  (hwrite : ∀ s : State, s.engine = .idle → ∀ (j : Fin 18) (v : Word),
    (s.memWrite (base + 4 * j.val) .w32 v).1.engine = .idle ∧
      get (s.memWrite (base + 4 * j.val) .w32 v).1 = setWideWord (get s) j v)
include hwrite

/-- Where a write sets one word of a register, writes made one after the other set the words in turn. -/
theorem foldl_memWrite (p : Wide) (js : List (Fin 18)) {s : State} (hi : s.engine = .idle) :
    get (js.foldl (fun t j => (t.memWrite (base + 4 * j.val) .w32 (wideWord p j)).1) s) =
      js.foldl (fun r j => setWideWord r j (wideWord p j)) (get s) := by
  induction js generalizing s with
  | nil => rfl
  | cons j js ih =>
    obtain ⟨hi', hj⟩ := hwrite s hi j (wideWord p j)
    rw [List.foldl_cons, List.foldl_cons, ih hi', hj]

/-- R87: the 18 words of `pat(v)` load the value `v`. -/
theorem sval_foldl_memWrite_pat {v : Int} (h0 : -2 ^ 575 ≤ v) (h1 : v < 2 ^ 575) {s : State} (hi : s.engine = .idle) :
    sval (get ((List.finRange 18).foldl
      (fun t j => (t.memWrite (base + 4 * j.val) .w32 (wideWord (pat v) j)).1) s)) = v := by
  rw [foldl_memWrite hwrite _ _ hi, foldl_setWideWord, sval_pat h0 h1]

end

/-- R14: the words of a small negative pattern are sign-filled. -/
theorem wideWord_pat_neg_five :
    wideWord (pat (-5)) 0 = 0xFFFFFFFB#32 ∧ ∀ j : Fin 18, j ≠ 0 → wideWord (pat (-5)) j = 0xFFFFFFFF#32 := by
  decide +kernel

/-- Settles O58: each write sets one word, and a register is its 18 words. -/
theorem wideRegisterWordWrites : Obligations.WideRegisterWordWrites := by
  refine ⟨fun s i j v hi n => ?_, fun s c j v hi n => ?_, fun s i v hi h0 h1 => ?_, fun s c v hi h0 h1 => ?_,
    wideWord_pat_neg_five⟩
  · rw [(memWrite_reg_word hi i j v).2, getLsbD_setWideWord]
  · rw [(memWrite_curve_word hi c j v).2, getLsbD_setWideWord]
  · exact sval_foldl_memWrite_pat (get := fun t => t.regs[i]) (fun t ht => memWrite_reg_word ht i) h0 h1 hi
  · exact sval_foldl_memWrite_pat (get := fun t => t.curve.get c) (fun t ht => memWrite_curve_word ht c) h0 h1 hi

/-! ## Byte order (R72, R73, R74) -/

/-- R73: the lanes of a word of a wide register are the register's bytes. -/
theorem lane_wideWord (r : Wide) (j : Fin 18) {k : Nat} (hk : k < 4) :
    lane (wideWord r j) k = r.extractLsb' (8 * (4 * j.val + k)) 8 := by
  apply BitVec.eq_of_getLsbD_eq
  intro i hi
  simp only [lane, wideWord, BitVec.getLsbD_extractLsb']
  rw [show 32 * j.val + (8 * k + i) = 8 * (4 * j.val + k) + i by omega]
  simp [hi, show 8 * k + i < 32 by omega]

/-- R74: the lanes of a word of HASH are its four bytes. -/
theorem lane_hashWord (h : Vector Byte 72) (j : Fin 18) {k : Nat} (hk : k < 4) :
    lane (hashWord h j) k = h[4 * j.val + k] := by
  obtain ⟨h0, h1, h2, h3⟩ := lane_append h[4 * j.val + 3] h[4 * j.val + 2] h[4 * j.val + 1] h[4 * j.val]
  interval_cases k
  · exact h0
  · exact h1
  · exact h2
  · exact h3

/-- The word of a slot that holds byte `m`. -/
def wordOfByte (m : Fin 72) : Fin 18 := ⟨m.val / 4, by omega⟩

theorem four_mul_wordOfByte (m : Fin 72) : 4 * (wordOfByte m).val + m.val % 4 = m.val := Nat.div_add_mod _ _

/-- R72: byte `m` from an aligned base is a lane of the word that holds it. -/
theorem windowByte_slot (s : State) {base : Nat} (hb : base % 4 = 0) (m : Fin 72) :
    s.windowByte (base + m.val) = lane (s.readLoc (locate (base + 4 * (wordOfByte m).val))) (m.val % 4) := by
  have h := four_mul_wordOfByte m
  rw [State.windowByte, show (base + m.val) / 4 * 4 = base + 4 * (wordOfByte m).val by omega,
    show (base + m.val) % 4 = m.val % 4 by omega]

section
variable {s : State} {base : Nat} {r : Wide} (hb : base % 4 = 0)
  (hr : ∀ j : Fin 18, s.readLoc (locate (base + 4 * j.val)) = wideWord r j)

include hb hr in
/-- R73: where the words of a slot are those of `r`, its bytes are those of `r`. -/
theorem windowByte_wide (m : Fin 72) : s.windowByte (base + m.val) = r.extractLsb' (8 * m.val) 8 := by
  rw [windowByte_slot s hb, hr, lane_wideWord _ _ (Nat.mod_lt _ (by omega)), four_mul_wordOfByte]

include hb hr in
/-- R73, R84: and a legal read returns a word of `r`. -/
theorem memRead_wide (j : Fin 18) :
    s.memRead (base + 4 * j.val) .w32 = .readOk (r.extractLsb' (32 * j.val) 32) := by
  rw [memRead_legal s (word_aligned hb j), hr, wideWord]

include hr in
/-- R73: and the sign bit of `r` is bit 31 of the last word. -/
theorem sign_readLoc : r.getLsbD 575 = (s.readLoc (locate (base + 0x44))).getLsbD 31 := by
  rw [show base + 0x44 = base + 4 * (17 : Fin 18).val from rfl, hr]
  simp [wideWord]

end

theorem readLoc_regBase (s : State) (i : Reg) (j : Fin 18) :
    s.readLoc (locate (regBase i + 4 * j.val)) = wideWord s.regs[i] j := by rw [locate_reg, State.readLoc]

theorem readLoc_curveBase (s : State) (c : CurveReg) (j : Fin 18) :
    s.readLoc (locate (curveBase c + 4 * j.val)) = wideWord (s.curve.get c) j := by rw [locate_curve, State.readLoc]

/-- R74: byte `m` of the hash slot. -/
theorem windowByte_hash (s : State) (m : Fin 72) : s.windowByte (0x400 + m.val) = s.hash[m] := by
  rw [windowByte_slot s rfl, locate_hash, State.readLoc, lane_hashWord _ _ (Nat.mod_lt _ (by omega))]
  simp only [four_mul_wordOfByte, Fin.getElem_fin]

/-- Settles O59, from what the words of each slot read as. -/
theorem windowIsLittleEndian : Obligations.WindowIsLittleEndian :=
  ⟨fun s j => ⟨fun i => memRead_wide (regBase_aligned i) (readLoc_regBase s i) j,
      fun c => memRead_wide (curveBase_aligned c) (readLoc_curveBase s c) j⟩,
    fun s i => sign_readLoc (readLoc_regBase s i), fun s c => sign_readLoc (readLoc_curveBase s c),
    fun s m => ⟨fun i => windowByte_wide (regBase_aligned i) (readLoc_regBase s i) m,
      fun c => windowByte_wide (curveBase_aligned c) (readLoc_curveBase s c) m, windowByte_hash s m⟩⟩

end Sys2Proof.Machine
end

section
/-! SUPPORT. The encoding of commands (spec/30_encoding.md): the decoder and the encoder undo each other, and the checks of R120 and
the table of R111 are two views of the words the decoder takes. -/

namespace Sys2Proof

/-! ## Decoder and encoder (R101, R110, R122) -/

@[simp] theorem unusedField_zero : unusedField 0#4 = some () := rfl

/-- R102: reading on after an unused field. -/
theorem unusedField_bind_eq_some {α : Type} {f : BitVec 4} {g : Unit → Option α} {x : α} :
    (unusedField f >>= g) = some x ↔ f = 0#4 ∧ g () = some x := by
  rw [Option.bind_eq_bind, Option.bind_eq_some_iff]
  exact ⟨fun ⟨u, hu, hg⟩ => ⟨unusedField_eq_some.1 hu, hg⟩, fun ⟨hf, hg⟩ => ⟨(), unusedField_eq_some.2 hf, hg⟩⟩

/-- R102, R104: reading on after a point field. -/
theorem pregOfField_bind_eq_some {α : Type} {f : BitVec 4} {g : PReg → Option α} {x : α} :
    (pregOfField f >>= g) = some x ↔ ∃ k, fieldOfPReg k = f ∧ g k = some x := by
  have point (k : PReg) : pregOfField f = some k ↔ fieldOfPReg k = f :=
    ⟨fieldOfPReg_of_some, fun h => h ▸ pregOfField_fieldOfPReg k⟩
  simp [Option.bind_eq_some_iff, point]

theorem opc_of_toNat {f : Fields} {n : Nat} (h : f.opc.toNat = n) : f.opc = BitVec.ofNat 8 n :=
  BitVec.eq_of_toNat_eq (by simp [← h])

theorem decodeFields_encodeFields (i : Instr) : decodeFields (encodeFields i) = some i := by
  cases i <;> simp [decodeFields, encodeFields]

/-- Each row of the decoder reads the fields its command writes, and requires the others to be 0. -/
theorem encodeFields_of_decodeFields {f : Fields} {i : Instr} (h : decodeFields f = some i) : encodeFields i = f := by
  unfold decodeFields at h
  split_ifs at h with hr
  have rsv : f.rsv = 0#8 := not_not.1 hr
  revert h
  split
  case h_13 => exact nofun
  all_goals
    rename_i ho
    simp only [unusedField_bind_eq_some, pregOfField_bind_eq_some, Option.pure_def, Option.some.injEq,
      forall_exists_index, and_imp]
    intros
    subst i
    simp [encodeFields, Fields.ext_iff, opc_of_toNat ho, *]

/-- A word decodes to the command whose fields it holds, and to no other. -/
theorem decode_eq_some_iff {w : Word} {i : Instr} : decode w = some i ↔ Fields.ofWord w = encodeFields i :=
  ⟨fun h => (encodeFields_of_decodeFields h).symm, fun h => by rw [decode, h, decodeFields_encodeFields]⟩

/-- Settles O1: the word of a command holds its fields. -/
theorem decodeOfEncode : Obligations.DecodeOfEncode := fun _ =>
  decode_eq_some_iff.2 (Fields.ofWord_toWord _)

/-- Settles O2: a word is the join of its fields, and those are the command's. -/
theorem encodeOfDecode : Obligations.EncodeOfDecode := fun _ _ h => by
  rw [encode, ← decode_eq_some_iff.1 h, Fields.toWord_ofWord]

/-! ## The four checks (R120) -/

@[simp] theorem Form.unusedZero_reg (v : BitVec 4) : Form.reg.unusedZero v = true := rfl
@[simp] theorem Form.unusedZero_point (v : BitVec 4) : Form.point.unusedZero v = true := rfl
@[simp] theorem Form.pointEven_reg (v : BitVec 4) : Form.reg.pointEven v = true := rfl
@[simp] theorem Form.pointEven_unused (v : BitVec 4) : Form.unused.pointEven v = true := rfl

@[simp] theorem isSome_unusedField (f : BitVec 4) : (unusedField f).isSome = Form.unused.unusedZero f := by
  revert f; decide

@[simp] theorem isSome_pregOfField (f : BitVec 4) : (pregOfField f).isSome = Form.point.pointEven f := by
  revert f; decide

/-- The value of an operand has no part in whether the fields after it are read. -/
@[simp] theorem any_const {α : Type} (o : Option α) (b : Bool) : o.any (fun _ => b) = (o.isSome && b) := by
  cases o <;> rfl

/-- R120: an OPC byte without forms fails the first check. -/
theorem wellFormed_of_unassigned {f : Fields} (h : formsOf f.opc = none) : f.wellFormed = false := by
  simp only [Fields.wellFormed, Fields.opcAssigned, h, Option.isSome_none, Bool.false_and]

/-- The checks of R120 for an OPC byte with the forms `m`. -/
theorem wellFormed_of_forms {f : Fields} {m : Forms} (h : formsOf f.opc = some m) : f.wellFormed =
    (f.rsv == 0#8 && (m.d.unusedZero f.d && m.a.unusedZero f.a && m.b.unusedZero f.b && m.c.unusedZero f.c) &&
      (m.d.pointEven f.d && m.a.pointEven f.a && m.b.pointEven f.b && m.c.pointEven f.c)) := by
  simp only [Fields.wellFormed, Fields.opcAssigned, Fields.rsvZero, Fields.unusedFieldsZero, Fields.pointFieldsEven, h,
    Option.isSome_some, Bool.true_and]

/-- R120: the decoder takes exactly the fields that pass the four checks. -/
theorem isSome_decodeFields (f : Fields) : (decodeFields f).isSome = f.wellFormed := by
  unfold decodeFields
  by_cases hr : f.rsv = 0#8
  · rw [if_neg (not_not.2 hr)]
    split
    case h_13 =>
      have unassigned : formsOf f.opc = none := by
        unfold formsOf
        split
        case h_13 => rfl
        all_goals contradiction
      rw [wellFormed_of_unassigned unassigned]
      rfl
    all_goals
      rename_i ho
      rw [wellFormed_of_forms (congrArg formsOf (opc_of_toNat ho))]
      simp only [hr, Option.bind_eq_bind, Option.pure_def, Option.isSome_bind, Option.isSome_some, any_const,
        isSome_unusedField, isSome_pregOfField, Form.unusedZero_reg, Form.unusedZero_point, Form.pointEven_reg,
        Form.pointEven_unused, beq_self_eq_true, Bool.true_and, Bool.and_true, Bool.and_assoc, Bool.and_left_comm]
  · simp only [ne_eq, hr, not_false_eq_true, if_true, Option.isSome_none, Fields.wellFormed, Fields.rsvZero,
      beq_eq_false_iff_ne.2 hr, Bool.and_false, Bool.false_and]

/-! ## The table (R111) -/

/-- The mask bits of a field of each form. -/
def Form.mask : Form → BitVec 4
  | .reg => 0x0#4
  | .point => 0x1#4
  | .unused => 0xF#4

theorem Form.and_mask_eq_zero {m : Form} {v : BitVec 4} :
    v &&& m.mask = 0#4 ↔ m.unusedZero v = true ∧ m.pointEven v = true := by
  cases m <;> revert v <;> decide

/-- The mask of a command with the forms `m`: all of OPC and RSV, and of each field the bits that its form fixes to be 0. -/
def Forms.mask (m : Forms) : Fields := ⟨BitVec.allOnes 8, m.d.mask, m.a.mask, m.b.mask, m.c.mask, BitVec.allOnes 8⟩

/-- The OPC byte of a row. -/
def Row.opc (r : Row) : BitVec 8 := r.value.extractLsb' 0 8

/-- R111 from R110: a row matches its OPC byte and no other bit, under the mask of the forms of that OPC. -/
theorem exists_forms_of_row : ∀ r ∈ opcodeTable, ∃ m, formsOf r.opc = some m ∧
    Fields.ofWord r.mask = m.mask ∧ Fields.ofWord r.value = ⟨r.opc, 0, 0, 0, 0, 0⟩ := by decide

theorem row_eq_of_opc_eq : ∀ r ∈ opcodeTable, ∀ r' ∈ opcodeTable, r.opc = r'.opc → r = r' := by decide

theorem exists_row_of_command (i : Instr) : ∃ r ∈ opcodeTable, r.opc = opcodeOf i ∧ r.mnemonic = i.mnemonic := by
  cases i <;> simp [opcodeTable, Row.opc, opcodeOf, Instr.mnemonic]

/-- The checks of R120 field by field. -/
theorem wellFormed_iff {f : Fields} {m : Forms} (h : formsOf f.opc = some m) : f.wellFormed = true ↔
    (m.d.unusedZero f.d = true ∧ m.d.pointEven f.d = true) ∧ (m.a.unusedZero f.a = true ∧ m.a.pointEven f.a = true) ∧
      (m.b.unusedZero f.b = true ∧ m.b.pointEven f.b = true) ∧ (m.c.unusedZero f.c = true ∧ m.c.pointEven f.c = true) ∧
      f.rsv = 0#8 := by
  rw [wellFormed_of_forms h]
  simp only [Bool.and_eq_true, beq_iff_eq]
  tauto

/-- R111, R120: a row accepts the words that pass the four checks and carry its OPC. -/
theorem row_accepts_iff {r : Row} (hr : r ∈ opcodeTable) (w : Word) :
    r.accepts w = true ↔ (Fields.ofWord w).opc = r.opc ∧ (Fields.ofWord w).wellFormed = true := by
  obtain ⟨m, hm, hmask, hvalue⟩ := exists_forms_of_row r hr
  rw [← Fields.toWord_ofWord w, Row.accepts_iff, hmask, hvalue, Fields.ofWord_toWord]
  simp only [Forms.mask, BitVec.and_allOnes]
  refine and_congr_right fun h => ?_
  rw [wellFormed_iff (h ▸ hm)]
  simp only [← Form.and_mask_eq_zero]
  rfl

theorem exists_decode_iff {w : Word} : (∃ i, decode w = some i) ↔ (Fields.ofWord w).wellFormed = true := by
  rw [← isSome_decodeFields, Option.isSome_iff_exists, decode]

theorem decode_eq_none_iff {w : Word} : decode w = none ↔ (Fields.ofWord w).wellFormed = false := by
  rw [← isSome_decodeFields, Option.isSome_eq_false_iff, Option.isNone_iff_eq_none, decode]

/-- R111: the row of a legal command accepts its word. -/
theorem exists_row_of_decode {w : Word} {i : Instr} (h : decode w = some i) :
    ∃ r ∈ opcodeTable, r.accepts w = true ∧ r.mnemonic = i.mnemonic := by
  obtain ⟨r, hr, hopc, hname⟩ := exists_row_of_command i
  have opc : (Fields.ofWord w).opc = opcodeOf i := by
    rw [decode_eq_some_iff.1 h]
    cases i <;> rfl
  exact ⟨r, hr, (row_accepts_iff hr w).2 ⟨opc.trans hopc.symm, exists_decode_iff.1 ⟨i, h⟩⟩, hname⟩

theorem exists_decode_iff_exists_row (w : Word) : (∃ i, decode w = some i) ↔ ∃ r ∈ opcodeTable, r.accepts w = true :=
  ⟨fun ⟨_, h⟩ => have ⟨r, hr, ha, _⟩ := exists_row_of_decode h; ⟨r, hr, ha⟩,
    fun ⟨_, hr, ha⟩ => exists_decode_iff.2 ((row_accepts_iff hr w).1 ha).2⟩

/-- Settles O3: a row accepts the words of its OPC that pass the checks of R120, and those are the words that decode. -/
theorem legalWordsMatchOneTableRow : Obligations.LegalWordsMatchOneTableRow := by
  refine ⟨by decide, by decide, fun w => ⟨exists_decode_iff_exists_row w, fun r hr r' hr' ha ha' => ?_,
    fun i => exists_row_of_decode⟩⟩
  obtain ⟨hopc, -⟩ := (row_accepts_iff hr w).1 ha
  obtain ⟨hopc', -⟩ := (row_accepts_iff hr' w).1 ha'
  exact row_eq_of_opc_eq r hr r' hr' (hopc.symm.trans hopc')

theorem decode_eq_none_iff_no_row (w : Word) : decode w = none ↔ ∀ r ∈ opcodeTable, r.accepts w = false := by
  have := (exists_decode_iff_exists_row w).not
  simpa [Option.eq_none_iff_forall_ne_some] using this

/-- R120: one of the four items holds. -/
theorem wellFormed_eq_false_iff (f : Fields) : f.wellFormed = false ↔
    f.opcAssigned = false ∨ f.rsvZero = false ∨ f.unusedFieldsZero = false ∨ f.pointFieldsEven = false := by
  simp only [Fields.wellFormed, Bool.and_eq_false_iff, or_assoc]

end Sys2Proof

namespace Sys2Proof.Machine

/-! ## Acceptance and commit of any word (R120, R131, R137) -/

theorem memWrite_cmd_idle {s : State} (h : s.engine = .idle) (w : Word) : (s.memWrite 0x004 .w32 w).1 = s.accept w := by
  rw [memWrite_legal s rfl, writeLoc_gated_idle (by simp [busy_eq, h]) w rfl]
  rfl

theorem commitWord_illegal {w : Word} (h : decode w = none) (s : State) : commitWord w s = .next (s.endError 1) := by
  rw [commitWord, h]
  rfl

theorem engineTurn_busy {s : State} {w : Word} (h : s.engine = .busy w) : engineTurn s = commitWord w s := by
  rw [engineTurn, h]

/-- Settles O4: the decoder refuses what fails a check of R120, and acceptance and commit are those of R131 and R137. -/
theorem illegalWordCommitsOnlyItsCode : Obligations.IllegalWordCommitsOnlyItsCode := by
  refine ⟨by decide +kernel, fun w => ⟨decode_eq_none_iff.trans (wellFormed_eq_false_iff _), decode_eq_none_iff_no_row w,
    fun s => ⟨fun hi => ?_, fun hw => ⟨commitWord_illegal hw s, fun hb => ?_⟩⟩⟩⟩
  · rw [memWrite_cmd_idle hi]
    exact ⟨rfl, rfl⟩
  · rw [engineTurn_busy hb, commitWord_illegal hw]

end Sys2Proof.Machine

namespace Sys2Proof

/-- Settles O5, by evaluation. -/
theorem listedWordsDecode : Obligations.ListedWordsDecode := by
  unfold Obligations.ListedWordsDecode
  decide

end Sys2Proof
end

section
/-! SUPPORT. Commands (spec/40_command.md): whose turn a step takes, what an access to a busy block leaves alone, and what the
commit of an outcome writes. -/

namespace Sys2Proof.Machine

/-! ## The turns (R133, R134, R140) -/

theorem step_of_empty {s : State} (h : s.schedule = []) : step s = engineTurn s := by
  simp only [step, turnStep, h]

theorem step_of_engine {s : State} {rest : List Turn} (h : s.schedule = .engine :: rest) :
    step s = engineTurn { s with schedule := rest } := by
  simp only [step, turnStep, h]

theorem step_of_host {s : State} {a : Access} {rest : List Turn} (h : s.schedule = .host a :: rest) :
    step s = .next ({ s with schedule := rest }.hostAccess a) := by
  simp only [step, turnStep, h]

theorem step_of_reset {s : State} {rest : List Turn} (h : s.schedule = .reset :: rest) :
    step s = .next { State.reset with schedule := rest } := by
  simp only [step, turnStep, h]
  rfl

theorem engineTurn_idle {s : State} (h : s.engine = .idle) : engineTurn s = .next s := by
  rw [engineTurn, h]

theorem engineTurn_legal {s : State} {w : Word} {i : Instr} (hb : s.engine = .busy w) (hw : decode w = some i) :
    engineTurn s = exec i s := by
  rw [engineTurn_busy hb, commitWord, hw]

theorem engineTurn_illegal {s : State} {w : Word} (hb : s.engine = .busy w) (hw : decode w = none) :
    engineTurn s = .next (s.endError 1) := by
  rw [engineTurn_busy hb, commitWord_illegal hw]

/-- R133: the turn of a busy engine is the commit of the outcome of its word. -/
theorem engineTurn_commit {s : State} {w : Word} (hb : s.engine = .busy w) :
    engineTurn s = .next (s.commit (s.execWord w)) := by
  rw [engineTurn_busy hb, commitWord_eq]

@[simp] theorem commit_engine (s : State) (r : Result) : (s.commit r).engine = .idle := by
  cases r <;> simp [State.commit]

@[simp] theorem commit_schedule (s : State) (r : Result) : (s.commit r).schedule = s.schedule := by
  cases r <;> simp [State.commit]

/-! ## A command in flight (R85, R132) -/

/-- `t` is `s` up to what the host reaches while a command is in flight (R85), the turns still to come and the record of the last
answer. -/
def State.SameInFlight (s t : State) : Prop :=
  ∃ wign done doneEn schedule response,
    t = { s with wign := wign, done := done, doneEn := doneEn, schedule := schedule, response := response }

theorem State.SameInFlight.refl (s : State) : s.SameInFlight s := ⟨_, _, _, _, _, rfl⟩

theorem State.SameInFlight.trans {s t u : State} (h : s.SameInFlight t) (h' : t.SameInFlight u) : s.SameInFlight u := by
  obtain ⟨_, _, _, _, _, rfl⟩ := h
  obtain ⟨_, _, _, _, _, rfl⟩ := h'
  exact ⟨_, _, _, _, _, rfl⟩

theorem State.SameInFlight.engine {s t : State} (h : s.SameInFlight t) : t.engine = s.engine := by
  obtain ⟨_, _, _, _, _, rfl⟩ := h
  rfl

/-- R132: what the host reaches is no input of `Exec`. -/
theorem State.SameInFlight.execWord {s t : State} (h : s.SameInFlight t) (w : Word) : t.execWord w = s.execWord w := by
  obtain ⟨_, _, _, _, _, rfl⟩ := h
  exact execWord_congr rfl rfl rfl rfl rfl rfl w

/-- R136, R137: nor does it turn a commit into another. -/
theorem State.SameInFlight.commit {s t : State} (h : s.SameInFlight t) (r : Result) : (s.commit r).SameInFlight (t.commit r) := by
  obtain ⟨_, _, _, _, _, rfl⟩ := h
  cases r with
  | err e => exact ⟨_, _, _, _, _, rfl⟩
  | ok w b => rcases w with _ | ⟨d, v⟩ | ⟨k, _ | _⟩ <;> cases b <;> exact ⟨_, _, _, _, _, rfl⟩

/-- R85: an access to a busy block takes its turn and leaves the command in flight as it is. -/
theorem step_host_busy {s : State} {v : Word} {a : Access} {rest : List Turn} (hb : s.engine = .busy v)
    (hs : s.schedule = .host a :: rest) : ∃ t, step s = .next t ∧ t.schedule = rest ∧ s.SameInFlight t := by
  refine ⟨_, step_of_host hs, ?_⟩
  rw [hostAccess_busy (by simp [busy_eq, hb])]
  exact ⟨rfl, _, _, _, _, _, rfl⟩

/-- R132: so does a list of accesses. -/
theorem runsTo_host_busy {v : Word} {rest : List Turn} (accesses : List Access) {s : State} (hb : s.engine = .busy v)
    (hs : s.schedule = accesses.map Turn.host ++ rest) :
    ∃ t, runsTo accesses.length s t ∧ t.schedule = rest ∧ s.SameInFlight t := by
  induction accesses generalizing s with
  | nil => exact ⟨s, runsTo_zero s, hs, .refl s⟩
  | cons a accesses ih =>
    obtain ⟨t, hst, ht, same⟩ := step_host_busy hb hs
    obtain ⟨u, htu, hu, same'⟩ := ih (same.engine.trans hb) ht
    exact ⟨u, runsTo_succ hst htu, hu, same.trans same'⟩

/-- R131: a write of CMD to an idle block accepts the word. -/
theorem memWrite_cmd_accepts {s : State} (h : s.engine = .idle) (v : Word) :
    s.memWrite 0x004 .w32 v = (s.accept v, .writeOk) := memWrite_gated_idle h rfl rfl v

/-- R131: the step of that write. -/
theorem step_cmd_accepts {s : State} {w : Word} {rest : List Turn} (hi : s.engine = .idle)
    (hs : s.schedule = wr 0x004 w :: rest) :
    ∃ t, step s = .next t ∧ t.schedule = rest ∧ (s.accept w).SameInFlight t := by
  refine ⟨_, step_of_host hs, ?_⟩
  simp only [State.hostAccess, windowOffset_base 0x004 (by decide),
    memWrite_cmd_accepts (s := { s with schedule := rest }) hi]
  exact ⟨rfl, _, _, _, _, _, rfl⟩

/-- The commit overwrites all that acceptance wrote but CMD (R131, R136, R137). -/
theorem commit_accept (s : State) (w : Word) (r : Result) : (s.accept w).commit r = { s.commit r with cmd := w } := by
  cases r with
  | err e => rfl
  | ok u b => rcases u with _ | ⟨d, v⟩ | ⟨k, _ | _⟩ <;> cases b <;> rfl

/-- Settles O14: acceptance, the accesses and the commit each keep the state up to what no command reads, so the outcome
committed is that of the state at acceptance. -/
theorem commandIsAtomic : Obligations.CommandIsAtomic := by
  intro s w accesses rest hi hs
  obtain ⟨t, hst, ht, accepted⟩ := step_cmd_accepts hi hs
  obtain ⟨u, htu, hu, same⟩ := runsTo_host_busy accesses accepted.engine ht
  have inFlight : (s.accept w).SameInFlight { u with schedule := rest } :=
    (accepted.trans same).trans ⟨_, _, _, _, _, rfl⟩
  have outcome : { u with schedule := rest }.execWord w = s.execWord w :=
    (inFlight.execWord w).trans (execWord_congr rfl rfl rfl rfl rfl rfl w)
  have commits : step u = .next ({ u with schedule := rest }.commit (s.execWord w)) := by
    rw [step_of_engine hu, engineTurn_commit inFlight.engine, outcome]
  have ended := inFlight.commit (s.execWord w)
  rw [commit_accept] at ended
  obtain ⟨hcurve, hsize, hhash, hlen, -⟩ := commit_fields s (s.execWord w)
  obtain ⟨hdone, -⟩ := commit_done_irq { u with schedule := rest } (s.execWord w)
  refine ⟨_, runsTo_succ hst (runsTo_snoc commits htu), commit_schedule _ _, commit_engine _ _, hdone, ?_⟩
  obtain ⟨_, _, _, _, _, e⟩ := ended
  rw [e]
  exact ⟨rfl, rfl, rfl, rfl, rfl, hcurve, hsize, hhash, hlen⟩

/-! ## Progress (R133) -/

/-- A step ends the command in flight, or takes a host access off the schedule. -/
theorem step_busy {s : State} {v : Word} (hb : s.engine = .busy v) :
    (∃ t, step s = .next t ∧ t.engine = .idle) ∨
      ∃ a t, s.schedule = .host a :: t.schedule ∧ step s = .next t ∧ t.engine = .busy v := by
  match hs : s.schedule with
  | [] => exact .inl ⟨_, (step_of_empty hs).trans (engineTurn_commit hb), commit_engine _ _⟩
  | .engine :: rest =>
    exact .inl ⟨_, (step_of_engine hs).trans (engineTurn_commit (s := { s with schedule := rest }) hb), commit_engine _ _⟩
  | .reset :: rest => exact .inl ⟨_, step_of_reset hs, rfl⟩
  | .host a :: rest =>
    obtain ⟨t, hst, ht, same⟩ := step_host_busy hb hs
    exact .inr ⟨a, t, by rw [ht], hst, same.engine.trans hb⟩

/-- Settles O15, by induction on the turns the environment has scheduled. -/
theorem commandsComplete : Obligations.CommandsComplete := by
  intro s v hb
  induction hs : s.schedule generalizing s with
  | nil =>
    obtain ⟨t, hst, ht⟩ | ⟨a, t, hs', -⟩ := step_busy hb
    · exact ⟨1, t, by simp, runsTo_succ hst (runsTo_zero t), ht⟩
    · simp [hs] at hs'
  | cons turn rest ih =>
    obtain ⟨t, hst, ht⟩ | ⟨a, t, hs', hst, ht⟩ := step_busy hb
    · exact ⟨1, t, by simp, runsTo_succ hst (runsTo_zero t), ht⟩
    · obtain ⟨-, rfl⟩ := List.cons.inj (hs.symm.trans hs')
      obtain ⟨k, u, hk, htu, hu⟩ := ih t ht rfl
      exact ⟨k + 1, u, by simpa using hk, runsTo_succ hst htu, hu⟩

/-! ## The outcome and its commit (R132, R136, R137) -/

/-- Settles O17: a commit that leaves a code is that of an error. -/
theorem errorsArePrecise : Obligations.ErrorsArePrecise := by
  refine ⟨fun s e => rfl, fun i s t h hne => ?_⟩
  obtain rfl := exec_next h
  obtain ⟨e, -, he⟩ | ⟨w, b, -, h0, -⟩ := commit_cases s (resultOf i s)
  · rw [he]
    rfl
  · exact absurd h0 hne

/-- Settles O19: the outcome reads the six fields and nothing else. -/
theorem outcomeReadsOnlyItsInputs : Obligations.OutcomeReadsOnlyItsInputs := by
  intro i s t hregs hptag hcurve hsize hhash hlen
  have same : resultOf i s = resultOf i t := resultOf_congr hregs hptag hcurve hsize hhash hlen
  exact ⟨resultOf i s, exec_eq i s, by rw [same, exec_eq]⟩

/-- The words that show what every commit writes: STATUS, ERRCODE and INTR_STATE (R136, R137). -/
def Loc.showsOutcome : Loc → Bool
  | .status | .errcode | .intrState => true
  | _ => false

/-- Those words are at 0x008 to 0x013 (R80). -/
theorem showsOutcome_locate {off : Nat} (hw : off < 4096) (h : off < 0x008 ∨ 0x014 ≤ off) :
    (locate (off / 4 * 4)).showsOutcome = false := by
  have offset {l : Loc} (hl : locate (off / 4 * 4) = l) (hr : l ≠ .reserved) : off / 4 * 4 = l.offset :=
    offset_of_locate (Nat.mul_mod_left _ _) (by omega) hl hr
  cases hl : locate (off / 4 * 4) with
  | status | errcode | intrState =>
    have := offset hl nofun
    simp only [Loc.offset] at this
    omega
  | _ => rfl

/-- R137: the commit of an error shows in those words only. -/
theorem readLoc_commitErr (s : State) (e : ErrCode) {l : Loc} (h : l.showsOutcome = false) :
    (s.commitErr e).readLoc l = s.readLoc l := by
  cases l with
  | status | errcode | intrState => cases h
  | _ => rfl

/-- R136: beside its writes, so does a successful commit. -/
theorem readLoc_commitOk (s : State) (w : Option Update) (b : Option Bool) {l : Loc} (h : l.showsOutcome = false) :
    (s.commitOk w b).readLoc l = (s.applyUpdate w).readLoc l := by
  cases l with
  | status | errcode | intrState => cases h
  | _ => cases b <;> rfl

/-- R139, R213, R263: NOP, ONCURVE and ECDSAV change no register and no tag, and the window only where the outcome shows. -/
theorem commit_flag {i : Instr} (hi : integerDest i = none) (hp : pointDest i = none) (s : State) :
    (s.commit (resultOf i s)).regs = s.regs ∧ (s.commit (resultOf i s)).ptag = s.ptag ∧
      (i = .nop → (s.commit (resultOf i s)).result = s.result) ∧
      ∀ l : Loc, l.showsOutcome = false → (s.commit (resultOf i s)).readLoc l = s.readLoc l := by
  obtain ⟨e, hr⟩ | ⟨b, hr, hb⟩ := resultOf_flag hi hp s <;> rw [hr]
  · exact ⟨rfl, rfl, fun _ => rfl, fun l => readLoc_commitErr s e⟩
  · refine ⟨State.commitOk_regs s none b, State.commitOk_ptag s none b, fun hn => ?_, fun l => readLoc_commitOk s none b⟩
    rw [hb hn]
    rfl

/-- Settles O24: such an outcome writes RESULT at most. -/
theorem flagCommandFrame : Obligations.FlagCommandFrame := by
  intro i s t hi hp h
  obtain rfl := exec_next h
  obtain ⟨hregs, hptag, hresult, hwindow⟩ := commit_flag hi hp s
  obtain ⟨hcurve, hsize, hhash, hlen, hcmd, hwign, hen, hsched, hresp, -⟩ := commit_fields s (resultOf i s)
  refine ⟨hregs, hptag, hcurve, hsize, hhash, hlen, hcmd, hwign, hen, hsched, hresp, hresult, fun off hw hoff => ?_⟩
  rw [State.windowByte, hwindow _ (showsOutcome_locate hw hoff), ← State.windowByte]

/-! ## Steps by the turn they take (R140) -/

/-- Settles O6: the turn is the engine's, and it runs the word in flight. -/
theorem stepRunsDecodedCommand : Obligations.StepRunsDecodedCommand := by
  refine ⟨fun s w i hb hw => ⟨fun hs => ?_, fun rest hs => ?_⟩, fun s w hb hw => ⟨fun hs => ?_, fun rest hs => ?_⟩,
    fun s nbits w i hw => ?_⟩
  · exact (step_of_empty hs).trans (engineTurn_legal hb hw)
  · exact (step_of_engine hs).trans (engineTurn_legal (s := { s with schedule := rest }) hb hw)
  · exact (step_of_empty hs).trans (engineTurn_illegal hb hw)
  · exact (step_of_engine hs).trans (engineTurn_illegal (s := { s with schedule := rest }) hb hw)
  · exact (step_of_engine (s := s.withFetchWord nbits w) rfl).trans
      (engineTurn_legal (s := s.accept (tableWord nbits w)) rfl hw)

/-- Settles O7, turn by turn. -/
theorem stepTakesTheScheduledTurn : Obligations.StepTakesTheScheduledTurn := fun s =>
  ⟨fun _ _ => step_of_host, fun _ => step_of_reset,
    fun hi rest hs => (step_of_engine hs).trans (engineTurn_idle (s := { s with schedule := rest }) hi),
    fun hi hs => (step_of_empty hs).trans (engineTurn_idle hi)⟩

/-- Settles O16: CMD is a gated word, and storing to it is acceptance. -/
theorem acceptSetsCommandAndPhase : Obligations.AcceptSetsCommandAndPhase := fun s v hi => by
  rw [memWrite_cmd_accepts hi]
  exact ⟨rfl, rfl, rfl⟩

end Sys2Proof.Machine

namespace Sys2Proof

/-! ## NOP (R139) -/

/-- R110: NOP alone has the OPC byte 0. -/
theorem opc_encodeFields_eq_zero {i : Instr} (h : (encodeFields i).opc = 0#8) : i = .nop := by
  cases i with
  | nop => rfl
  | _ => exact absurd h (by simp [encodeFields])

/-- R139: a legal word with OPC 0 is the word 0. -/
theorem word_eq_zero_of_decode {w : Word} {i : Instr} (hopc : w.extractLsb' 0 8 = 0#8) (h : decode w = some i) :
    w = 0#32 := by
  have nop : i = .nop := opc_encodeFields_eq_zero (decode_eq_some_iff.1 h ▸ hopc)
  rw [← encodeOfDecode w i h, nop]
  rfl

/-- Settles O25: 0 is the one legal word with OPC 0, and the outcome of NOP writes nothing. -/
theorem nopResult : Obligations.NopResult :=
  ⟨rfl, fun _ hopc hne => Option.eq_none_iff_forall_ne_some.2 fun _ h => hne (word_eq_zero_of_decode hopc h), fun _ => rfl⟩

end Sys2Proof
end

section
/-! SUPPORT. Field arithmetic (spec/41_field_arithmetic.md): the words and the ends of the integer commands, and the square root of
R170 branch by branch. -/

namespace Sys2Proof

/-! ## Encoding (R101) -/

/-- Joining bit vectors adds their shifted values. -/
theorem toNat_append_eq_add {n m : Nat} (x : BitVec n) (y : BitVec m) : (x ++ y).toNat = x.toNat * 2 ^ m + y.toNat := by
  rw [BitVec.toNat_append, ← Nat.shiftLeft_add_eq_or_of_lt y.isLt, Nat.shiftLeft_eq]

/-- R101: a word as the sum of its shifted fields. -/
theorem Fields.toWord_eq_ofNat (f : Fields) : f.toWord = BitVec.ofNat 32 (f.opc.toNat + f.d.toNat * 2 ^ 8 +
    f.a.toNat * 2 ^ 12 + f.b.toNat * 2 ^ 16 + f.c.toNat * 2 ^ 20 + f.rsv.toNat * 2 ^ 24) := by
  apply BitVec.eq_of_toNat_eq
  simp only [Fields.toWord, toNat_append_eq_add, BitVec.toNat_ofNat]
  omega

/-- R110: the word of a command with the three register operands D, A, B. -/
theorem toWord_of_three_regs (opc : BitVec 8) (d a b : Reg) :
    Fields.toWord ⟨opc, fieldOfReg d, fieldOfReg a, fieldOfReg b, 0, 0⟩ =
      BitVec.ofNat 32 (opc.toNat + d.val * 2 ^ 8 + a.val * 2 ^ 12 + b.val * 2 ^ 16) := by
  simp [Fields.toWord_eq_ofNat, fieldOfReg]

/-- R110: the word of a command with the four register operands D, A, B, C. -/
theorem toWord_of_four_regs (opc : BitVec 8) (d a b c : Reg) :
    Fields.toWord ⟨opc, fieldOfReg d, fieldOfReg a, fieldOfReg b, fieldOfReg c, 0⟩ =
      BitVec.ofNat 32 (opc.toNat + d.val * 2 ^ 8 + a.val * 2 ^ 12 + b.val * 2 ^ 16 + c.val * 2 ^ 20) := by
  simp [Fields.toWord_eq_ofNat, fieldOfReg]

end Sys2Proof

namespace Sys2Proof.Machine

/-! ## The two ends of an integer command (R136, R137, R150) -/

theorem exec_of_reg (i : Instr) {s : State} {d : Reg} {r : Int} (h : resultOf i s = .ok (some (.reg d r)) none) :
    exec i s = .next (s.endReg d r) := by
  rw [exec_eq, h]
  rfl

theorem exec_of_err (i : Instr) {s : State} {e : ErrCode} (h : resultOf i s = .err e) :
    exec i s = .next (s.endError e.code) := by
  rw [exec_eq, h]
  rfl

/-! ## The square root, branch by branch (R170) -/

theorem powmod_emod (x y : Int) {m : Int} (hm : 0 < m) : powmod (emod x m) y m = powmod x y m := by
  rw [powmod_eq _ _ hm, powmod_eq _ _ hm]
  exact emod_eq_emod_iff.2 ((emod_congr x m).pow _)

theorem powmod_congr (x y : Int) {m : Int} (hm : 0 < m) : powmod x y m ≡ x ^ y.toNat [ZMOD m] := by
  rw [powmod_eq _ _ hm]
  exact emod_congr _ _

theorem powmod_reduced (x y : Int) {m : Int} (hm : 0 < m) : 0 ≤ powmod x y m ∧ powmod x y m < m := by
  rw [powmod_eq _ _ hm]
  exact ⟨emod_nonneg _ hm, emod_lt _ hm⟩

/-- The split of R170 finds the exponent of 2 and the odd factor. -/
theorem splitLoop_mul_two_pow {q : Int} (hq : 0 < q) (hodd : q % 2 = 1) :
    ∀ (e fuel s : Nat), q * 2 ^ e ≤ fuel → splitLoop fuel (q * 2 ^ e) s = (q, s + e) := by
  intro e
  induction e with
  | zero =>
    intro fuel s _
    cases fuel <;> simp [splitLoop, emod, hodd]
  | succ e ih =>
    intro fuel s hf
    have hpos : 0 < q * 2 ^ e := by positivity
    have htwice : q * 2 ^ (e + 1) = 2 * (q * 2 ^ e) := by ring
    rw [htwice] at hf ⊢
    obtain _ | fuel := fuel
    · simp at hf
      omega
    · rw [splitLoop, if_pos (show emod (2 * (q * 2 ^ e)) 2 = 0 from Int.mul_emod_right _ _),
        Int.mul_ediv_cancel_left _ (by decide), ih fuel (s + 1) (by push_cast at hf; omega), add_right_comm, add_assoc]

theorem sqrtMod_zero {n p : Int} (hn : n % p = 0) : sqrtMod n p = some 0 := by
  simp [sqrtMod, show emod n p = 0 from hn]

/-- A square is checked by comparing residues. -/
theorem emod_mul_self_eq_iff (r n p : Int) : emod (r * r) p = emod n p ↔ (r * r - n) % p = 0 :=
  Int.emod_eq_emod_iff_emod_sub_eq_zero

/-- The fast path: the power is checked. -/
theorem sqrtMod_fast {n p : Int} (hp : 0 < p) (hn : n % p ≠ 0) (h4 : p % 4 = 3) :
    sqrtMod n p = if (n ^ ((p + 1) / 4).toNat % p * (n ^ ((p + 1) / 4).toNat % p) - n) % p = 0
      then some (n ^ ((p + 1) / 4).toNat % p) else none := by
  have hr : powmod (emod n p) ((p + 1) / 4) p = n ^ ((p + 1) / 4).toNat % p := by
    rw [powmod_emod _ _ hp, powmod_eq _ _ hp, emod]
  simp only [sqrtMod, show emod n p ≠ 0 from hn, show emod p 4 = 3 from h4, hr, if_false, if_true, ne_eq,
    emod_mul_self_eq_iff, ite_not]

/-- The general path: Euler's criterion, the search for `z`, and the loop. -/
theorem sqrtMod_general {n p q : Int} {e : Nat} (hp : 1 < p) (hn : n % p ≠ 0) (h4 : p % 4 = 1) (hpq : p - 1 = q * 2 ^ e)
    (hodd : q % 2 = 1) :
    sqrtMod n p =
      if powmod n ((p - 1) / 2) p ≠ 1 ∨ nonResidueLoop p p.toNat 2 = p then none
      else sqrtLoop p e e (powmod (nonResidueLoop p p.toNat 2) q p) (powmod n q p) (powmod n ((q + 1) / 2) p) := by
  have hq : 0 < q := pos_of_mul_pos_left (b := 2 ^ e) (by omega) (by positivity)
  have hsplit : splitLoop (p - 1).toNat (p - 1) 0 = (q, e) := by
    have := splitLoop_mul_two_pow hq hodd e (p - 1).toNat 0 (by omega)
    rwa [← hpq, zero_add] at this
  simp only [sqrtMod, show emod n p ≠ 0 from hn, show emod p 4 ≠ 3 by rw [emod, h4]; decide, hsplit, if_false,
    powmod_emod _ _ (by omega : 0 < p), ite_or]

/-- The loop keeps `R * R ≡ T * n`, so where `T` is 1 it has a root, whatever the modulus. -/
theorem sqrtLoop_root {n p : Int} (hp : 0 < p) : ∀ {fuel M : Nat} {C T R r : Int}, 0 ≤ R ∧ R < p →
    R * R ≡ T * n [ZMOD p] → sqrtLoop p fuel M C T R = some r → (0 ≤ r ∧ r < p) ∧ r * r ≡ n [ZMOD p] := by
  have done {T R r : Int} (hR : 0 ≤ R ∧ R < p) (hc : R * R ≡ T * n [ZMOD p]) (hT : T = 1) (h : some R = some r) :
      (0 ≤ r ∧ r < p) ∧ r * r ≡ n [ZMOD p] := by
    obtain rfl := Option.some.inj h
    exact ⟨hR, by rwa [hT, one_mul] at hc⟩
  intro fuel
  induction fuel with
  | zero =>
    intro M C T R r hR hc h
    rw [sqrtLoop] at h
    split_ifs at h with hT
    exact done hR hc hT h
  | succ fuel ih =>
    intro M C T R r hR hc h
    rw [sqrtLoop] at h
    split_ifs at h with hT
    · exact done hR hc hT h
    · split at h
      · cases h
      next i _ =>
        set b := powmod C (2 ^ (M - i - 1)) p
        refine ih ⟨emod_nonneg _ hp, emod_lt _ hp⟩ ?_ h
        calc emod (R * b) p * emod (R * b) p
            ≡ R * b * (R * b) [ZMOD p] := (emod_congr _ _).mul (emod_congr _ _)
          _ = R * R * (b * b) := by ring
          _ ≡ T * n * emod (b * b) p [ZMOD p] := hc.mul (emod_congr _ _).symm
          _ = T * emod (b * b) p * n := by ring
          _ ≡ emod (T * emod (b * b) p) p * n [ZMOD p] := (emod_congr _ _).symm.mul_right n

/-- R172: what `sqrt` returns is a root, for every odd modulus. -/
theorem sqrtMod_root {n p r : Int} (hp : 3 ≤ p) (hodd : p % 2 = 1) (h : sqrtMod n p = some r) :
    (0 ≤ r ∧ r < p) ∧ r * r ≡ n [ZMOD p] := by
  have hp0 : 0 < p := by omega
  by_cases hn : n % p = 0
  · obtain rfl := Option.some.inj ((sqrtMod_zero hn).symm.trans h)
    exact ⟨⟨le_rfl, hp0⟩, by simpa [Int.ModEq] using hn.symm⟩
  obtain h4 | h4 : p % 4 = 3 ∨ p % 4 = 1 := by omega
  · rw [sqrtMod_fast hp0 hn h4] at h
    split_ifs at h with hr
    obtain rfl := Option.some.inj h
    exact ⟨⟨Int.emod_nonneg _ hp0.ne', Int.emod_lt_of_pos _ hp0⟩, Int.emod_eq_emod_iff_emod_sub_eq_zero.2 hr⟩
  · obtain ⟨e, -, hq, hq0, hqodd⟩ := splitLoop_spec (p - 1).toNat (p - 1) 0 (by omega) (by omega)
    rw [sqrtMod_general (by omega) hn h4 hq.symm hqodd] at h
    generalize (splitLoop (p - 1).toNat (p - 1) 0).1 = q at hq hq0 hqodd h
    split_ifs at h with hz
    refine sqrtLoop_root hp0 (powmod_reduced _ _ hp0) ?_ h
    calc powmod n ((q + 1) / 2) p * powmod n ((q + 1) / 2) p
        ≡ n ^ ((q + 1) / 2).toNat * n ^ ((q + 1) / 2).toNat [ZMOD p] := (powmod_congr _ _ hp0).mul (powmod_congr _ _ hp0)
      _ = n ^ q.toNat * n := by
        rw [← pow_add, ← pow_succ]
        congr 1
        unfold emod at hqodd
        omega
      _ ≡ powmod n q p * n [ZMOD p] := (powmod_congr _ _ hp0).symm.mul_right n

/-! ## MODSQRT (R171) -/

theorem modsqrtResult_of_bad (d n : Reg) {p : Reg} {s : State} (h : s.x p < 3 ∨ s.x p % 2 = 0) :
    modsqrtResult d n p s = .err .badModulus := if_pos h

/-- R171: past its check MODSQRT ends as `sqrt` does. -/
theorem modsqrtResult_of_odd (d n : Reg) {p : Reg} {s : State} (hp : 3 ≤ s.x p) (hodd : s.x p % 2 = 1) :
    modsqrtResult d n p s =
      (sqrtMod (s.x n) (s.x p)).elim (.err .notResidue) fun r => .ok (some (.reg d r)) none := by
  rw [modsqrtResult, if_neg (by unfold emod; omega)]
  cases sqrtMod (s.x n) (s.x p) <;> rfl

theorem exec_modsqrt (d n : Reg) {p : Reg} {s : State} (hp : 3 ≤ s.x p) (hodd : s.x p % 2 = 1) :
    exec (.modsqrt d n p) s = .next ((sqrtMod (s.x n) (s.x p)).elim (s.endError 4) (s.endReg d)) := by
  have hr := modsqrtResult_of_odd d n hp hodd
  cases h : sqrtMod (s.x n) (s.x p) with
  | none => exact exec_of_err (.modsqrt d n p) (e := .notResidue) (by rwa [h] at hr)
  | some r => exact exec_of_reg (.modsqrt d n p) (by rwa [h] at hr)

/-- Settles O29: every path returns a root or none, and the zero case and the fast path are the branches of `sqrt`. -/
theorem modsqrtReturnsARoot : Obligations.ModsqrtReturnsARoot := by
  refine fun d n p => ⟨toWord_of_three_regs 0x04 d n p, fun s =>
    ⟨fun h => exec_of_err (.modsqrt d n p) (modsqrtResult_of_bad d n h), fun hp hodd => ?_⟩⟩
  rw [exec_modsqrt d n hp hodd]
  refine ⟨?_, fun hn => by rw [sqrtMod_zero hn]; rfl, fun hn h4 => ?_⟩
  · cases h : sqrtMod (s.x n) (s.x p) with
    | none => exact .inl rfl
    | some r =>
      obtain ⟨⟨h0, h1⟩, hr⟩ := sqrtMod_root hp hodd h
      exact .inr ⟨r, h0, h1, Int.emod_eq_emod_iff_emod_sub_eq_zero.1 hr, rfl⟩
  · rw [sqrtMod_fast (by omega) hn h4]
    dsimp only
    split_ifs <;> rfl

end Sys2Proof.Machine
end

section
/-! SUPPORT. MODSQRT over a prime field (R170 to R172): Euler's criterion, the search for `z`, and which root is returned. -/

namespace Sys2Proof.Machine

/-! ## Residues as elements of the field -/

/-- A residue names an element of `ZMod p`. -/
theorem emod_eq_iff_cast {p : Nat} {x r : Int} (h0 : 0 ≤ r) (h1 : r < p) : x % p = r ↔ (x : ZMod p) = r := by
  rw [ZMod.intCast_eq_intCast_iff, Int.ModEq, Int.emod_eq_of_lt h0 h1]

theorem emod_eq_zero_iff_cast {p : Nat} (x : Int) : x % p = 0 ↔ (x : ZMod p) = 0 := by
  rw [ZMod.intCast_zmod_eq_zero_iff_dvd, Int.dvd_iff_emod_eq_zero]

/-- A square modulo `p` is a square of the field. -/
theorem square_congr_iff_cast {p : Nat} (x n : Int) : (x * x - n) % p = 0 ↔ (x : ZMod p) * x = n := by
  rw [emod_eq_zero_iff_cast, Int.cast_sub, Int.cast_mul, sub_eq_zero]

/-- The power that Euler's criterion looks at, for odd `p`. -/
theorem toNat_half_pred {p : Nat} (hp : p % 2 = 1) : (((p : Int) - 1) / 2).toNat = p / 2 := by omega

/-- R170: an odd `p` above 1 splits with an exponent of at least 1, so that `q` meets half of `p - 1`. -/
theorem half_of_split {p q e : Nat} (hp : p % 2 = 1) (h1 : 1 < p) (hpq : p - 1 = q * 2 ^ e) (hodd : q % 2 = 1) :
    1 ≤ e ∧ q * 2 ^ (e - 1) = p / 2 := by
  obtain _ | e := e
  · rw [pow_zero] at hpq
    omega
  · rw [pow_succ, ← mul_assoc] at hpq
    exact ⟨by omega, by rw [Nat.add_sub_cancel]; omega⟩

section prime
variable {p : Nat} [Fact p.Prime]

theorem emod_eq_one_iff_cast (x : Int) : x % p = 1 ↔ (x : ZMod p) = 1 := by
  have := (Fact.out : p.Prime).one_lt
  simpa using emod_eq_iff_cast (x := x) (r := 1) (p := p) (by omega) (by omega)

theorem emod_eq_pred_iff_cast (x : Int) : x % p = p - 1 ↔ (x : ZMod p) = -1 := by
  have := (Fact.out : p.Prime).one_lt
  simpa using emod_eq_iff_cast (x := x) (r := p - 1) (p := p) (by omega) (by omega)

/-- Euler's criterion as R170 tests it. -/
theorem powmod_half_eq_one_iff (hp : p % 2 = 1) (x : Int) :
    powmod x ((p - 1) / 2) p = 1 ↔ (x : ZMod p) ^ (p / 2) = 1 := by
  rw [powmod_eq _ _ (by exact_mod_cast (Fact.out : p.Prime).pos), emod, emod_eq_one_iff_cast, toNat_half_pred hp,
    Int.cast_pow]

theorem powmod_half_eq_pred_iff (hp : p % 2 = 1) (x : Int) :
    powmod x ((p - 1) / 2) p = p - 1 ↔ (x : ZMod p) ^ (p / 2) = -1 := by
  rw [powmod_eq _ _ (by exact_mod_cast (Fact.out : p.Prime).pos), emod, emod_eq_pred_iff_cast, toNat_half_pred hp,
    Int.cast_pow]

/-! ## The search for `z` -/

/-- An odd prime has a value from 2 up, below `p`, that Euler's criterion shows to be a non-residue. -/
theorem exists_nonresidue (hp : p % 2 = 1) : ∃ y : Int, 2 ≤ y ∧ y < p ∧ powmod y ((p - 1) / 2) p = p - 1 := by
  have hp2 : ringChar (ZMod p) ≠ 2 := by
    rw [ZMod.ringChar_zmod_n]
    omega
  obtain ⟨a, ha⟩ := FiniteField.exists_nonsquare hp2
  have ha0 : a ≠ 0 := fun h => ha (h ▸ IsSquare.zero)
  have ha1 : a ≠ 1 := fun h => ha (h ▸ IsSquare.one)
  have hv0 : a.val ≠ 0 := by rwa [Ne, ZMod.val_eq_zero]
  have hv1 : a.val ≠ 1 := fun h => ha1 (by rw [← ZMod.natCast_zmod_val a, h, Nat.cast_one])
  have hcast : ((a.val : Int) : ZMod p) = a := by simp
  refine ⟨a.val, by omega, by exact_mod_cast ZMod.val_lt a, (powmod_half_eq_pred_iff hp _).2 ?_⟩
  rw [hcast]
  exact (ZMod.pow_div_two_eq_neg_one_or_one p ha0).resolve_left fun h => ha ((ZMod.euler_criterion p ha0).2 h)

/-- R172: so the search ends at a non-residue. -/
theorem nonResidueLoop_found (hp : p % 2 = 1) :
    nonResidueLoop p (p : Int).toNat 2 < p ∧
      powmod (nonResidueLoop p (p : Int).toNat 2) ((p - 1) / 2) p = p - 1 := by
  have := (Fact.out : p.Prime).two_le
  obtain ⟨-, hle, hmeets, hnone⟩ := nonResidueLoop_spec p (p : Int).toNat 2 (by omega) (by omega)
  obtain ⟨y, hy, hyp, hres⟩ := exists_nonresidue hp
  have hlt : nonResidueLoop p (p : Int).toNat 2 < p := by
    by_contra hge
    exact hnone y hy (by omega) hres
  exact ⟨hlt, hmeets hlt⟩

omit [Fact p.Prime] in
/-- I15: it ends at the least one. -/
theorem nonResidueLoop_eq {z : Int} (hz : 2 ≤ z) (hlt : z < p) (hres : powmod z ((p - 1) / 2) p = p - 1)
    (hleast : ∀ y, 2 ≤ y → y < z → powmod y ((p - 1) / 2) p ≠ p - 1) : nonResidueLoop p (p : Int).toNat 2 = z := by
  obtain ⟨hge, -, hmeets, hnone⟩ := nonResidueLoop_spec p (p : Int).toNat 2 (by omega) (by omega)
  obtain h | h | h := lt_trichotomy (nonResidueLoop p (p : Int).toNat 2) z
  · exact absurd (hmeets (h.trans hlt)) (hleast _ hge h)
  · exact h
  · exact absurd hres (hnone z hz h)

/-! ## The paths of `sqrt` for a residue -/

/-- Euler's criterion: a non-zero square passes the test. -/
theorem pow_half_of_square {x n : ZMod p} (hn : n ≠ 0) (hx : x * x = n) : n ^ (p / 2) = 1 :=
  (ZMod.euler_criterion p hn).1 ⟨x, hx.symm⟩

/-- The fast path finds a root of every non-zero residue (R172). -/
theorem sqrtMod_fast_of_residue {n : Int} (h4 : p % 4 = 3) (hn : n % p ≠ 0) (hres : (n : ZMod p) ^ (p / 2) = 1) :
    ∃ r, sqrtMod n p = some r := by
  have hpos : (0 : Int) < p := by exact_mod_cast (Fact.out : p.Prime).pos
  refine ⟨_, (sqrtMod_fast hpos hn (by omega)).trans (if_pos ?_)⟩
  have hexp : (((p : Int) + 1) / 4).toNat = (p + 1) / 4 := by omega
  rw [square_congr_iff_cast, hexp]
  have hcast : ((n ^ ((p + 1) / 4) % p : Int) : ZMod p) = (n : ZMod p) ^ ((p + 1) / 4) := by
    rw [ZMod.intCast_mod, Int.cast_pow]
  calc ((n ^ ((p + 1) / 4) % p : Int) : ZMod p) * ((n ^ ((p + 1) / 4) % p : Int) : ZMod p)
      = (n : ZMod p) ^ (p / 2) * n := by
        rw [hcast, ← pow_add, ← pow_succ]
        congr 1
        omega
    _ = n := by rw [hres, one_mul]

/-- The general path multiplies `n^((q+1)/2)` by the power of `z^q` that undoes `n^q` (R170, I15). -/
theorem sqrtMod_general_of_residue {n : Int} {q e : Nat} (h4 : p % 4 = 1) (hpq : p - 1 = q * 2 ^ e) (hodd : q % 2 = 1)
    (hn : n % p ≠ 0) (hres : (n : ZMod p) ^ (p / 2) = 1) :
    ∃ k < 2 ^ (e - 1), (n : ZMod p) ^ q * (((nonResidueLoop p (p : Int).toNat 2 : Int) : ZMod p) ^ q) ^ (2 * k) = 1 ∧
      sqrtMod n p = some ((n ^ ((q + 1) / 2) * nonResidueLoop p (p : Int).toNat 2 ^ (q * k)) % p) := by
  have hp1 : 1 < p := (Fact.out : p.Prime).one_lt
  have hpos : (0 : Int) < p := by omega
  have hp2 : p % 2 = 1 := by omega
  obtain ⟨hlt, hz⟩ := nonResidueLoop_found hp2
  rw [powmod_half_eq_pred_iff hp2] at hz
  obtain ⟨he, hhalf⟩ := half_of_split hp2 hp1 hpq hodd
  have hpq' : (p : Int) - 1 = q * 2 ^ e := by
    rw [← Nat.cast_pred (by omega), hpq]
    push_cast
    rfl
  have hloop := sqrtMod_general (n := n) (by omega) hn (by omega) hpq' (by omega)
  rw [if_neg (not_or.2 ⟨not_not.2 ((powmod_half_eq_one_iff hp2 n).2 hres), hlt.ne⟩)] at hloop
  generalize nonResidueLoop p (p : Int).toNat 2 = z at *
  obtain ⟨k, hk, hTk, r, hr, hr0, hrp, hrc⟩ := sqrtLoop_spec e e (powmod z q p) (powmod n q p)
    (powmod n ((q + 1) / 2) p) he le_rfl (powmod_reduced _ _ hpos) (powmod_reduced _ _ hpos)
    (by rw [cast_powmod (by omega), Int.toNat_natCast, ← pow_mul, hhalf, hz])
    (by rw [cast_powmod (by omega), Int.toNat_natCast, ← pow_mul, hhalf, hres])
  rw [cast_powmod (by omega), cast_powmod (by omega), Int.toNat_natCast] at hTk
  rw [cast_powmod (by omega), cast_powmod (by omega), Int.toNat_natCast, ← pow_mul] at hrc
  refine ⟨k, hk, hTk, hloop.trans (hr.trans (congrArg some ?_))⟩
  refine ((emod_eq_iff_cast hr0 hrp).2 ?_).symm
  rw [hrc, Int.cast_mul, Int.cast_pow, Int.cast_pow, show (((q : Int) + 1) / 2).toNat = (q + 1) / 2 by omega]

/-- R172: modulo an odd prime every square has its root found. -/
theorem sqrtMod_of_square {x n : Int} (hp : p % 2 = 1) (hx : (x * x - n) % p = 0) : ∃ r, sqrtMod n p = some r := by
  by_cases hn : n % p = 0
  · exact ⟨0, sqrtMod_zero hn⟩
  have hres := pow_half_of_square (mt (emod_eq_zero_iff_cast n).2 hn) ((square_congr_iff_cast x n).1 hx)
  obtain h4 | h4 : p % 4 = 3 ∨ p % 4 = 1 := by omega
  · exact sqrtMod_fast_of_residue h4 hn hres
  · have := (Fact.out : p.Prime).two_le
    obtain ⟨e, q, hodd, hpq⟩ := Nat.exists_eq_two_pow_mul_odd (n := p - 1) (by omega)
    obtain ⟨k, -, -, hr⟩ := sqrtMod_general_of_residue h4 (hpq.trans (mul_comm _ _)) (Nat.odd_iff.1 hodd) hn hres
    exact ⟨_, hr⟩

/-- Two values with one square modulo a prime agree up to sign. -/
theorem root_eq_or_eq_neg {x r : Int} (hr : 0 ≤ r ∧ r < p) (h : r * r ≡ x * x [ZMOD p]) (hx : x % p ≠ 0) :
    r = x % p ∨ r = p - x % p := by
  rw [← ZMod.intCast_eq_intCast_iff, Int.cast_mul, Int.cast_mul, mul_self_eq_mul_self_iff] at h
  obtain h | h := h
  · exact .inl ((emod_eq_iff_cast hr.1 hr.2).2 h.symm).symm
  · right
    have hr0 : r ≠ 0 := by
      rintro rfl
      exact hx ((emod_eq_zero_iff_cast x).2 (by simpa using h))
    have := (emod_eq_iff_cast (x := x) (r := p - r) (p := p) (by omega) (by omega)).2 (by simp [h])
    omega

/-- There is one exponent below `2^e`: an element whose `2^e`-th power is -1 has order `2^(e+1)`. -/
theorem exponent_unique {C T : ZMod p} (hp : p % 2 = 1) {e k j : Nat} (hC : C ^ 2 ^ e = -1) (hk : k < 2 ^ e)
    (hj : j < 2 ^ e) (hTk : T * C ^ (2 * k) = 1) (hTj : T * C ^ (2 * j) = 1) : j = k := by
  have hne : (-1 : ZMod p) ≠ 1 := by
    have : Fact (2 < p) := ⟨by have := (Fact.out : p.Prime).two_le; omega⟩
    exact ZMod.neg_one_ne_one
  have horder : orderOf C = 2 * 2 ^ e := by
    rw [← pow_succ']
    exact orderOf_eq_prime_pow (by rwa [hC]) (by rw [pow_succ, pow_mul, hC, neg_one_sq])
  have hpow : C ^ (2 * j) = C ^ (2 * k) := mul_left_cancel₀ (left_ne_zero_of_mul_eq_one hTk) (hTj.trans hTk.symm)
  have := pow_injOn_Iio_orderOf (x := C) (show 2 * j ∈ Set.Iio _ by rw [horder, Set.mem_Iio]; omega)
    (show 2 * k ∈ Set.Iio _ by rw [horder, Set.mem_Iio]; omega) hpow
  omega

end prime

/-! ## The statements -/

/-- Settles O30: a root that is returned is a root of `n`, and the field has no others than `x` and `-x`. -/
theorem modsqrtModuloAPrime : Obligations.ModsqrtModuloAPrime := by
  intro d n pr s p hprime hp2 hpr
  have : Fact p.Prime := ⟨hprime⟩
  have hodd : p % 2 = 1 := hprime.mod_two_eq_one_iff_ne_two.2 hp2
  have hp3 : 3 ≤ s.x pr ∧ s.x pr % 2 = 1 := by
    have := hprime.two_le
    omega
  have hend := exec_modsqrt d n hp3.1 hp3.2
  have hroot (r : Int) (h : sqrtMod (s.x n) (s.x pr) = some r) := sqrtMod_root hp3.1 hp3.2 h
  rw [hpr] at hend hroot
  refine ⟨fun hnone => ?_, fun x hx => ⟨fun hx0 => ?_, fun hx0 => ?_⟩⟩
  · cases h : sqrtMod (s.x n) p with
    | none => rw [hend, h]; rfl
    | some r => exact absurd ⟨r, Int.emod_eq_emod_iff_emod_sub_eq_zero.1 (hroot r h).2⟩ hnone
  · have hn : s.x n % p = 0 := by
      rw [emod_eq_zero_iff_cast] at hx0 ⊢
      rw [← (square_congr_iff_cast x _).1 hx, hx0, zero_mul]
    rw [hend, sqrtMod_zero hn]
    rfl
  · obtain ⟨r, h⟩ := sqrtMod_of_square hodd hx
    obtain ⟨hr, hrn⟩ := hroot r h
    rw [hend, h]
    obtain rfl | rfl := root_eq_or_eq_neg hr (hrn.trans (Int.emod_eq_emod_iff_emod_sub_eq_zero.2 hx).symm) hx0
    · exact .inl rfl
    · exact .inr rfl

/-- Settles O31: the search ends at the least non-residue, and the loop at the one power of it that undoes `n^q`. -/
theorem modsqrtPicksItsRoot : Obligations.ModsqrtPicksItsRoot := by
  intro d n pr s p q e z hprime hpr h4 hpq hqodd hz2 hzp hz hleast hn ⟨x, hx⟩
  have : Fact p.Prime := ⟨hprime⟩
  have hodd : p % 2 = 1 := by omega
  have heuler (y : Int) : powmod y ((p - 1) / 2) p = p - 1 ↔ y ^ ((p - 1) / 2) % p = p - 1 := by
    rw [powmod_half_eq_pred_iff hodd, emod_eq_pred_iff_cast, Int.cast_pow, show (p - 1) / 2 = p / 2 by omega]
  have hsearch := nonResidueLoop_eq hz2 hzp ((heuler z).2 hz) fun y h2 hy => mt (heuler y).1 (hleast y h2 hy)
  have hres := pow_half_of_square (mt (emod_eq_zero_iff_cast _).2 hn) ((square_congr_iff_cast x _).1 hx)
  obtain ⟨k, hk, hTk, hr⟩ := sqrtMod_general_of_residue h4 hpq hqodd hn hres
  rw [hsearch] at hTk hr
  have hundo (j : Nat) : (s.x n ^ q * z ^ (2 * q * j)) % p = 1 ↔
      (s.x n : ZMod p) ^ q * ((z : ZMod p) ^ q) ^ (2 * j) = 1 := by
    rw [emod_eq_one_iff_cast, Int.cast_mul, Int.cast_pow, Int.cast_pow, ← pow_mul, mul_left_comm q, mul_assoc 2 q]
  have hC : ((z : ZMod p) ^ q) ^ 2 ^ (e - 1) = -1 := by
    rw [← pow_mul, (half_of_split hodd hprime.one_lt hpq hqodd).2]
    exact (powmod_half_eq_pred_iff hodd z).1 ((heuler z).2 hz)
  refine ⟨k, hk, (hundo k).2 hTk, fun j hj hTj => exponent_unique hodd hC hk hj hTk ((hundo j).1 hTj), ?_⟩
  have := hprime.two_le
  rw [exec_modsqrt d n (by omega) (by omega), hpr, hr]
  rfl

end Sys2Proof.Machine
end

section
/-! SUPPORT. The other integer commands (spec/41_field_arithmetic.md): their outcomes case by case, and what all six write and leave
unchanged. -/

namespace Sys2Proof.Machine

/-! ## Outcomes -/

/-- R153: the residue lies in `[0, m)` and differs by a multiple of `m`. -/
theorem emod_spec (x : Int) {m : Int} (hm : 0 < m) : 0 ≤ emod x m ∧ emod x m < m ∧ m ∣ x - emod x m :=
  ⟨emod_nonneg x hm, emod_lt x hm, Int.dvd_self_sub_emod⟩

theorem modredResult_of_nonpos (d x : Reg) {m : Reg} {s : State} (h : s.x m ≤ 0) :
    modredResult d x m s = .err .badModulus := if_pos h

theorem modredResult_of_pos (d x : Reg) {m : Reg} {s : State} (h : 0 < s.x m) :
    modredResult d x m s = .ok (some (.reg d (emod (s.x x) (s.x m)))) none := if_neg h.not_ge

theorem modinvResult_of_zero (d a : Reg) {m : Reg} {s : State} (h : s.x m = 0) :
    modinvResult d a m s = .err .badModulus := if_pos h

/-- R161: past its check MODINV ends as `inv` does, for the modulus `|n|`. -/
theorem modinvResult_of_ne_zero (d a : Reg) {m : Reg} {s : State} (h : s.x m ≠ 0) :
    modinvResult d a m s = (inv (s.x a) |s.x m|).elim (.err .noInverse) fun r => .ok (some (.reg d r)) none := by
  rw [modinvResult, if_neg h]
  cases inv (s.x a) |s.x m| <;> rfl

theorem modexpResult_of_nonpos (d x y : Reg) {m : Reg} {s : State} (h : s.x m ≤ 0) :
    modexpResult d x y m s = .err .badModulus := if_pos h

theorem modexpResult_of_neg (d x : Reg) {y m : Reg} {s : State} (h : 0 < s.x m) (hy : s.x y < 0) :
    modexpResult d x y m s = .err .negOperand := (if_neg h.not_ge).trans (if_pos hy)

theorem modexpResult_of_nonneg (d x : Reg) {y m : Reg} {s : State} (h : 0 < s.x m) (hy : 0 ≤ s.x y) :
    modexpResult d x y m s = .ok (some (.reg d ((s.x x) ^ (s.x y).toNat % s.x m))) none := by
  rw [modexpResult, if_neg h.not_ge, if_neg hy.not_gt, powmod_eq _ _ h, emod]

theorem montmulResult_of_bad (d a b : Reg) {m : Reg} {s : State} (h : s.x m ≤ 0 ∨ s.x m % 2 = 0) :
    montmulResult d a b m s = .err .badModulus := if_pos h

theorem montmulResult_of_odd (d a b : Reg) {m : Reg} {s : State} (h : 0 < s.x m) (hodd : s.x m % 2 = 1) :
    montmulResult d a b m s = .ok (some (.reg d (montprod (s.x a) (s.x b) (s.x m)))) none :=
  if_neg (by unfold emod; omega)

theorem modmulResult_of_nonpos (d a b : Reg) {m : Reg} {s : State} (h : s.x m ≤ 0) :
    modmulResult d a b m s = .err .badModulus := if_pos h

theorem modmulResult_of_pos (d a b : Reg) {m : Reg} {s : State} (h : 0 < s.x m) :
    modmulResult d a b m s = .ok (some (.reg d (emod (s.x a * s.x b) (s.x m)))) none := if_neg h.not_ge

/-! ## The Montgomery product (R175, R178) -/

/-- R175: for odd `m > 0` the product is that by the inverse of `R_MONT`. -/
theorem exists_montprod_eq {m : Int} (hm : 0 < m) (hodd : m % 2 = 1) :
    ∃ ri, inv Config.rMont m = some ri ∧ Config.rMont * ri ≡ 1 [ZMOD m] ∧
      ∀ a b, montprod a b m = emod (a * b * ri) m := by
  obtain ⟨ri, h, -, -, hri⟩ := inv_rMont hm hodd
  exact ⟨ri, h, hri, fun a b => by rw [montprod, h, Option.getD_some]⟩

/-- R176: the product times `R_MONT` is the product of the factors. -/
theorem montprod_mul_rMont {m : Int} (hm : 0 < m) (hodd : m % 2 = 1) (a b : Int) :
    montprod a b m * Config.rMont ≡ a * b [ZMOD m] := by
  obtain ⟨ri, -, hri, hprod⟩ := exists_montprod_eq hm hodd
  calc montprod a b m * Config.rMont
      = emod (a * b * ri) m * Config.rMont := by rw [hprod]
    _ ≡ a * b * ri * Config.rMont [ZMOD m] := (emod_congr _ _).mul_right _
    _ = a * b * (Config.rMont * ri) := by ring
    _ ≡ a * b * 1 [ZMOD m] := hri.mul_left _
    _ = a * b := mul_one _

theorem montprod_reduced (a b : Int) {m : Int} (hm : 0 < m) : 0 ≤ montprod a b m ∧ montprod a b m < m :=
  ⟨emod_nonneg _ hm, emod_lt _ hm⟩

/-- Settles O33: the inverse of `R_MONT` cancels one factor `Rm`. -/
theorem montgomeryDomainIdentities : Obligations.MontgomeryDomainIdentities := by
  intro a b m hm hodd
  obtain ⟨ri, hinv, hri, hprod⟩ := exists_montprod_eq hm hodd
  intro rm
  have hrm : rm * ri ≡ 1 [ZMOD m] := ((Int.mod_modEq _ _).mul_right ri).trans hri
  clear_value rm
  refine ⟨?_, ⟨ri, hinv, by rw [hprod, mul_one, emod]⟩, ?_⟩ <;> rw [hprod] <;> refine emod_eq_emod_iff.2 ?_
  · calc a * (rm * rm % m) * ri
        ≡ a * (rm * rm) * ri [ZMOD m] := ((Int.mod_modEq _ _).mul_left a).mul_right ri
      _ = a * rm * (rm * ri) := by ring
      _ ≡ a * rm * 1 [ZMOD m] := hrm.mul_left _
      _ = a * rm := mul_one _
  · calc a * rm % m * (b * rm % m) * ri
        ≡ a * rm * (b * rm) * ri [ZMOD m] := ((Int.mod_modEq _ _).mul (Int.mod_modEq _ _)).mul_right ri
      _ = a * b * rm * (rm * ri) := by ring
      _ ≡ a * b * rm * 1 [ZMOD m] := hrm.mul_left _
      _ = a * b * rm := mul_one _

/-! ## The range of the results (R151) -/

/-- R151: what a successful integer command writes is reduced, and its modulus is positive unless it is MODINV. -/
theorem resultOf_integer_reduced {i : Instr} {d m : Reg} (hd : integerDest i = some d) (hm : modulusReg i = some m)
    (s : State) :
    (∃ e, resultOf i s = .err e) ∨ ∃ r, resultOf i s = .ok (some (.reg d r)) none ∧ (0 ≤ r ∧ r < |s.x m|) ∧
      (0 < s.x m ∨ ∃ a, i = .modinv d a m) := by
  have ends {r : Int} (hr : resultOf i s = .ok (some (.reg d r)) none) (hpos : 0 < s.x m) (h : 0 ≤ r ∧ r < s.x m) :
      ∃ r, resultOf i s = .ok (some (.reg d r)) none ∧ (0 ≤ r ∧ r < |s.x m|) ∧ (0 < s.x m ∨ ∃ a, i = .modinv d a m) :=
    ⟨r, hr, by rwa [abs_of_pos hpos], .inl hpos⟩
  cases i <;> cases hd <;> cases hm
  case modred x =>
    obtain h | h := le_or_gt (s.x m) 0
    · exact .inl ⟨_, modredResult_of_nonpos d x h⟩
    · exact .inr (ends (modredResult_of_pos d x h) h ⟨emod_nonneg _ h, emod_lt _ h⟩)
  case modinv a =>
    by_cases h : s.x m = 0
    · exact .inl ⟨_, modinvResult_of_zero d a h⟩
    have hr := modinvResult_of_ne_zero d a h
    obtain ⟨-, r, hinv, h0, h1, -⟩ | ⟨-, hinv⟩ := inv_cases (s.x a) (abs_pos.2 h) <;> rw [hinv] at hr
    · exact .inr ⟨r, hr, ⟨h0, h1⟩, .inr ⟨a, rfl⟩⟩
    · exact .inl ⟨_, hr⟩
  case modexp x y =>
    obtain h | h := le_or_gt (s.x m) 0
    · exact .inl ⟨_, modexpResult_of_nonpos d x y h⟩
    obtain hy | hy := lt_or_ge (s.x y) 0
    · exact .inl ⟨_, modexpResult_of_neg d x h hy⟩
    · exact .inr (ends (modexpResult_of_nonneg d x h hy) h ⟨emod_nonneg _ h, emod_lt _ h⟩)
  case modsqrt n =>
    by_cases h : s.x m < 3 ∨ s.x m % 2 = 0
    · exact .inl ⟨_, modsqrtResult_of_bad d n h⟩
    have hp : 3 ≤ s.x m ∧ s.x m % 2 = 1 := by omega
    have hr := modsqrtResult_of_odd d n hp.1 hp.2
    cases hroot : sqrtMod (s.x n) (s.x m) with
    | none => exact .inl ⟨_, by rwa [hroot] at hr⟩
    | some r => exact .inr (ends (by rwa [hroot] at hr) (by omega) (sqrtMod_root hp.1 hp.2 hroot).1)
  case montmul a b =>
    by_cases h : s.x m ≤ 0 ∨ s.x m % 2 = 0
    · exact .inl ⟨_, montmulResult_of_bad d a b h⟩
    have hodd : 0 < s.x m ∧ s.x m % 2 = 1 := by omega
    exact .inr (ends (montmulResult_of_odd d a b hodd.1 hodd.2) hodd.1 (montprod_reduced _ _ hodd.1))
  case modmul a b =>
    obtain h | h := le_or_gt (s.x m) 0
    · exact .inl ⟨_, modmulResult_of_nonpos d a b h⟩
    · exact .inr (ends (modmulResult_of_pos d a b h) h ⟨emod_nonneg _ h, emod_lt _ h⟩)

/-- R14: the absolute value of a register is at most 2^575, and that only for the least value. -/
theorem abs_x_le (s : State) (m : Reg) : |s.x m| ≤ 2 ^ 575 ∧ (|s.x m| = 2 ^ 575 → s.x m = -2 ^ 575) := by
  obtain ⟨hlo, hhi⟩ := sval_range s.regs[m]
  refine ⟨abs_le.2 ⟨hlo, hhi.le⟩, fun h => ?_⟩
  exact ((abs_eq (by positivity)).1 h).resolve_left hhi.ne

/-- Settles O35: a reduced value is below 2^575, so its pattern reads back as it is. -/
theorem integerResultsNeedNoTruncation : Obligations.IntegerResultsNeedNoTruncation := by
  intro i s t d m hd hm h he
  obtain rfl := exec_next h
  obtain ⟨e, hr⟩ | ⟨r, hr, ⟨h0, h1⟩, hmod⟩ := resultOf_integer_reduced hd hm s <;> rw [hr] at he ⊢
  · exact absurd he (commit_err_errcode_ne_zero s e)
  obtain ⟨hle, hmin⟩ := abs_x_le s m
  have hlt : r < 2 ^ 575 := h1.trans_le hle
  have hreg : (s.commit (.ok (some (.reg d r)) none)).regs[d] = pat r := by simp [State.commit]
  have hx : (s.commit (.ok (some (.reg d r)) none)).x d = r := by
    rw [State.x, hreg, sval_pat (le_trans (by norm_num) h0) hlt]
  rw [hx, hreg]
  refine ⟨h0, h1, hlt, pat_sign_clear h0 hlt, h0.trans_lt h1, hle, fun heq => ?_⟩
  obtain hpos | ⟨a, rfl⟩ := hmod
  · rw [hmin heq] at hpos
    exact absurd hpos (by norm_num)
  · exact ⟨a, rfl, hmin heq⟩

/-! ## What the integer commands leave unchanged (R150) -/

/-- A byte outside the 72 of a register is in no word of it (R80). -/
theorem locate_ne_reg {off : Nat} {d : Reg} (hw : off < 4096) (h : off < regBase d ∨ regBase d + 72 ≤ off) (j : Fin 18) :
    locate (off / 4 * 4) ≠ .reg d j := by
  intro hl
  have hoff := offset_of_locate (Nat.mul_mod_left _ _) (by omega) hl nofun
  have := regBase_aligned d
  simp only [Loc.offset] at hoff
  omega

/-- A register write shows in the words of that register only. -/
theorem readLoc_setReg_ne (s : State) {d : Reg} (v : Int) {l : Loc} (h : ∀ j, l ≠ .reg d j) :
    (s.setReg d v).readLoc l = s.readLoc l := by
  cases l with
  | reg i j =>
    have hi : d ≠ i := fun e => h j (e ▸ rfl)
    simp [State.readLoc, Fin.val_ne_iff.2 hi]
  | _ => rfl

/-- R150: an integer command changes no register but its destination, not RESULT, and the window only there and where the outcome
shows. -/
theorem commit_integer {i : Instr} {d : Reg} (h : integerDest i = some d) (s : State) :
    (∀ j : Reg, j ≠ d → (s.commit (resultOf i s)).regs[j] = s.regs[j]) ∧
      (s.commit (resultOf i s)).result = s.result ∧
      ∀ l : Loc, l.showsOutcome = false → (∀ j, l ≠ .reg d j) → (s.commit (resultOf i s)).readLoc l = s.readLoc l := by
  obtain ⟨e, hr⟩ | ⟨v, hr⟩ := resultOf_integer h s <;> rw [hr]
  · exact ⟨fun _ _ => rfl, rfl, fun l hl _ => readLoc_commitErr s e hl⟩
  · refine ⟨fun j hj => ?_, rfl, fun l hl hne => (readLoc_commitOk s _ _ hl).trans (readLoc_setReg_ne s v hne)⟩
    simp [State.commit, Fin.val_ne_iff.2 hj.symm]

/-- Settles O22: such an outcome writes its destination at most. -/
theorem integerCommandFrame : Obligations.IntegerCommandFrame := by
  intro i s t d hd h
  obtain rfl := exec_next h
  obtain ⟨hregs, hresult, hwindow⟩ := commit_integer hd s
  obtain ⟨hcurve, hsize, hhash, hlen, hcmd, hwign, hen, hsched, hresp, -⟩ := commit_fields s (resultOf i s)
  refine ⟨hregs, commit_integer_ptag hd s, hcurve, hsize, hhash, hlen, hcmd, hresult, hwign, hen, hsched, hresp,
    fun off hw hoff hd => ?_⟩
  rw [State.windowByte, hwindow _ (showsOutcome_locate hw hoff) (locate_ne_reg hw hd), ← State.windowByte]

end Sys2Proof.Machine

namespace Sys2Proof

/-! ## The statements about one command -/

section
open Machine

/-- Settles O26, by R153. -/
theorem modredResult : Obligations.ModredResult := fun d x m =>
  ⟨toWord_of_three_regs 0x01 d x m, fun s =>
    ⟨fun h => exec_of_err (.modred d x m) (modredResult_of_nonpos d x h), fun h =>
      have ⟨h0, h1, hdvd⟩ := emod_spec (s.x x) h
      ⟨_, h0, h1, hdvd, exec_of_reg (.modred d x m) (modredResult_of_pos d x h)⟩⟩⟩

/-- Settles O27: the three ends of MODINV are those of `inv`, and the inverse in `[0, m)` is unique. -/
theorem modinvResult : Obligations.ModinvResult := by
  refine fun d a m => ⟨toWord_of_three_regs 0x02 d a m, fun s =>
    ⟨fun h => exec_of_err (.modinv d a m) (modinvResult_of_zero d a h), fun h hgcd => ?_, fun h hgcd => ?_⟩⟩
  all_goals
    have hr := modinvResult_of_ne_zero d a h
    obtain ⟨hg, r, hinv, h0, h1, hone⟩ | ⟨hg, hinv⟩ := inv_cases (s.x a) (abs_pos.2 h)
  · exact absurd hg hgcd
  · exact exec_of_err (.modinv d a m) (e := .noInverse) (by rwa [hinv] at hr)
  · exact ⟨r, h0, h1, hone, fun r' h0' h1' hone' => inverse_unique ⟨h0', h1'⟩ ⟨h0, h1⟩ hone' hone,
      exec_of_reg (.modinv d a m) (by rwa [hinv] at hr)⟩
  · exact absurd hgcd hg

/-- Settles O28: the checks in their order, and what the loop of R165 computes. -/
theorem modexpResult : Obligations.ModexpResult := fun d x y m =>
  ⟨toWord_of_four_regs 0x03 d x y m, fun _ =>
    ⟨fun h => exec_of_err (.modexp d x y m) (modexpResult_of_nonpos d x y h),
      fun h hy => exec_of_err (.modexp d x y m) (modexpResult_of_neg d x h hy),
      fun h hy => exec_of_reg (.modexp d x y m) (modexpResult_of_nonneg d x h hy)⟩⟩

/-- Settles O32, by R175. -/
theorem montmulResult : Obligations.MontmulResult := fun d a b m =>
  ⟨toWord_of_four_regs 0x05 d a b m, fun s =>
    ⟨fun h => exec_of_err (.montmul d a b m) (montmulResult_of_bad d a b h), fun h hodd =>
      have ⟨h0, h1⟩ := montprod_reduced (s.x a) (s.x b) h
      ⟨_, h0, h1, Int.emod_eq_emod_iff_emod_sub_eq_zero.1 (montprod_mul_rMont h hodd _ _),
        exec_of_reg (.montmul d a b m) (montmulResult_of_odd d a b h hodd)⟩⟩⟩

/-- Settles O34, by R153 for the exact product. -/
theorem modmulResult : Obligations.ModmulResult := fun d a b m =>
  ⟨toWord_of_four_regs 0x06 d a b m, fun s =>
    ⟨fun h => exec_of_err (.modmul d a b m) (modmulResult_of_nonpos d a b h), fun h =>
      have ⟨h0, h1, hdvd⟩ := emod_spec (s.x a * s.x b) h
      ⟨_, h0, h1, hdvd, exec_of_reg (.modmul d a b m) (modmulResult_of_pos d a b h)⟩⟩⟩

end

end Sys2Proof
end
section
/-! SUPPORT. The curve group commands (spec/42_curve_group.md): their words, the checks before a point is read, the ends of a point
command, and what it leaves unchanged. -/

namespace Sys2Proof

/-! ## Encoding (R101, R104) -/

/-- R104: a point field numbers the register that holds `x`, so the word is that of a command with register operands. -/
theorem encode_padd (d a b : PReg) :
    encode (.padd d a b) = BitVec.ofNat 32 (0x10 + d.val * 2 ^ 9 + a.val * 2 ^ 13 + b.val * 2 ^ 17) := by
  refine (toWord_of_three_regs 0x10 d.xReg a.xReg b.xReg).trans (congrArg _ ?_)
  simp only [PReg.xReg, BitVec.reduceToNat]
  omega

theorem encode_pdbl (d a : PReg) : encode (.pdbl d a) = BitVec.ofNat 32 (0x11 + d.val * 2 ^ 9 + a.val * 2 ^ 13) := by
  refine (toWord_of_three_regs 0x11 d.xReg a.xReg 0).trans (congrArg _ ?_)
  simp only [PReg.xReg, BitVec.reduceToNat, Fin.val_zero]
  omega

theorem encode_pmul (d : PReg) (k : Reg) (a : PReg) :
    encode (.pmul d k a) = BitVec.ofNat 32 (0x12 + d.val * 2 ^ 9 + k.val * 2 ^ 12 + a.val * 2 ^ 17) := by
  refine (toWord_of_three_regs 0x12 d.xReg k a.xReg).trans (congrArg _ ?_)
  simp only [PReg.xReg, BitVec.reduceToNat]
  omega

theorem encode_oncurve (a : PReg) : encode (.oncurve a) = BitVec.ofNat 32 (0x13 + a.val * 2 ^ 13) := by
  refine (toWord_of_three_regs 0x13 0 a.xReg 0).trans (congrArg _ ?_)
  simp only [PReg.xReg, BitVec.reduceToNat, Fin.val_zero]
  omega

end Sys2Proof

namespace Sys2Proof.Machine

/-! ## The checks (R201, R211, R213, R251) -/

section
variable {s : State}

theorem paddResult_of_not_groupOk (d a b : PReg) (h : s.curve.values.groupOk = false) :
    paddResult d a b s = .err .badCurve := by simp [paddResult, h]

theorem pdblResult_of_not_groupOk (d a : PReg) (h : s.curve.values.groupOk = false) :
    pdblResult d a s = .err .badCurve := by simp [pdblResult, h]

theorem pmulResult_of_not_groupOk (d : PReg) (k : Reg) (a : PReg) (h : s.curve.values.groupOk = false) :
    pmulResult d k a s = .err .badCurve := by simp [pmulResult, h]

theorem oncurveResult_of_not_groupOk (a : PReg) (h : s.curve.values.groupOk = false) :
    oncurveResult a s = .err .badCurve := by simp [oncurveResult, h]

theorem ecdsavResult_of_not_groupOk (q : PReg) (r sg : Reg) (h : s.curve.values.groupOk = false) :
    ecdsavResult q r sg s = .err .badCurve := by simp [ecdsavResult, State.ecdsaOk, h]

theorem paddResult_of_groupOk (d a b : PReg) (h : s.curve.values.groupOk = true) :
    paddResult d a b s = pointResult s.curve.values d
      (jadd s.curve.values (fromAffine s.curve.values (s.pt a)) (fromAffine s.curve.values (s.pt b))) := by
  simp [paddResult, h]

theorem pdblResult_of_groupOk (d a : PReg) (h : s.curve.values.groupOk = true) :
    pdblResult d a s = pointResult s.curve.values d (jdouble s.curve.values (fromAffine s.curve.values (s.pt a))) := by
  simp [pdblResult, h]

theorem pmulResult_of_neg (d : PReg) {k : Reg} (a : PReg) (h : s.curve.values.groupOk = true) (hk : s.x k < 0) :
    pmulResult d k a s = .err .negOperand := by simp [pmulResult, h, hk]

theorem pmulResult_of_nonneg (d : PReg) {k : Reg} (a : PReg) (h : s.curve.values.groupOk = true) (hk : 0 ≤ s.x k) :
    pmulResult d k a s =
      pointResult s.curve.values d (jmul s.curve.values (s.x k) (fromAffine s.curve.values (s.pt a))) := by
  simp [pmulResult, h, hk.not_gt]

theorem oncurveResult_of_no_order (a : PReg) (h : s.curve.values.groupOk = true) (hh : s.curve.values.h ≠ 1)
    (hn : s.curve.values.n < 2) : oncurveResult a s = .err .badCurve := by simp [oncurveResult, h, hh, hn]

theorem oncurveResult_of_checked (a : PReg) (h : s.curve.values.groupOk = true)
    (hn : s.curve.values.h = 1 ∨ 2 ≤ s.curve.values.n) :
    oncurveResult a s = .ok none (some (onCurveCore s.curve.values (s.pt a))) := by
  have hcheck : ¬ (s.curve.values.h ≠ 1 ∧ s.curve.values.n < 2) := by omega
  rw [oncurveResult, h, if_neg hcheck]
  rfl

end

/-! ## The ends of a point command (R205, R209, R210, R211) -/

theorem exec_of_point (i : Instr) {s : State} {d : PReg} {P : Point} (h : resultOf i s = .ok (some (.point d P)) none) :
    exec i s = .next (s.endPoint d P) := by
  rw [exec_eq, h]
  cases P <;> rfl

theorem exec_of_flag (i : Instr) {s : State} {b : Bool} (h : resultOf i s = .ok none (some b)) :
    exec i s = .next (s.endFlag b) := by
  rw [exec_eq, h]
  rfl

theorem pointResult_of_some {c : Curve} (d : PReg) {J : Jac} {P : Point} (h : toAffine c J = some P) :
    pointResult c d J = .ok (some (.point d P)) none := by rw [pointResult, h]

theorem pointResult_of_none {c : Curve} (d : PReg) {J : Jac} (h : toAffine c J = none) :
    pointResult c d J = .err .noInverse := by rw [pointResult, h]

theorem pointResult_ne_badCurve (c : Curve) (d : PReg) (J : Jac) : pointResult c d J ≠ .err .badCurve := by
  cases h : toAffine c J with
  | none => simp [pointResult_of_none d h]
  | some P => simp [pointResult_of_some d h]

/-- R205: a command that ends in the conversion of `J` writes its affine form. -/
theorem exec_of_toAffine_eq_some {i : Instr} {s : State} {c : Curve} {d : PReg} {J : Jac} {P : Point}
    (hr : resultOf i s = pointResult c d J) (h : toAffine c J = some P) : exec i s = .next (s.endPoint d P) :=
  exec_of_point i (hr.trans (pointResult_of_some d h))

theorem exec_of_toAffine_eq_identity {i : Instr} {s : State} {c : Curve} {d : PReg} {J : Jac}
    (hr : resultOf i s = pointResult c d J) (h : toAffine c J = some .identity) : exec i s = .next (s.endIdentity d) :=
  exec_of_toAffine_eq_some hr h

theorem exec_of_toAffine_eq_affine {i : Instr} {s : State} {c : Curve} {d : PReg} {J : Jac} {x y : Int}
    (hr : resultOf i s = pointResult c d J) (h : toAffine c J = some (.affine x y)) :
    exec i s = .next (s.endAffine d x y) :=
  exec_of_toAffine_eq_some hr h

/-- R205: it ends in NO_INVERSE when `J` has none. -/
theorem exec_of_toAffine_eq_none {i : Instr} {s : State} {c : Curve} {d : PReg} {J : Jac}
    (hr : resultOf i s = pointResult c d J) (h : toAffine c J = none) : exec i s = .next (s.endError 3) :=
  exec_of_err i (hr.trans (pointResult_of_none d h))

/-! ## BAD_CURVE (R201) -/

/-- R201: past the check no point command ends in BAD_CURVE. -/
theorem resultOf_point_ne_badCurve {i : Instr} {d : PReg} (hd : pointDest i = some d) {s : State}
    (h : s.curve.values.groupOk = true) : resultOf i s ≠ .err .badCurve := by
  cases i <;> cases hd
  case padd a b =>
    exact (paddResult_of_groupOk d a b h).trans_ne (pointResult_ne_badCurve _ _ _)
  case pdbl a =>
    exact (pdblResult_of_groupOk d a h).trans_ne (pointResult_ne_badCurve _ _ _)
  case pmul k a =>
    obtain hk | hk := lt_or_ge (s.x k) 0
    · exact (pmulResult_of_neg d a h hk).trans_ne nofun
    · exact (pmulResult_of_nonneg d a h hk).trans_ne (pointResult_ne_badCurve _ _ _)

/-- R280: BAD_CURVE alone has the code 6. -/
theorem errCode_eq_badCurve {e : ErrCode} (h : e.code = 6) : e = .badCurve := by
  cases e with
  | badCurve => rfl
  | _ => exact absurd h (by decide)

/-- Settles O36: each of the five commands makes the check first, and a point command has no other way to its code. -/
theorem curveCommandsCheckTheModulus : Obligations.CurveCommandsCheckTheModulus := by
  refine fun s => ⟨groupOk_iff _, fun h => ⟨fun d a b => ?_, fun d a => ?_, fun d k a => ?_, fun a => ?_, fun q r sg => ?_⟩,
    fun h i d t hd ht he => ?_, by decide +kernel⟩
  · exact exec_of_err (.padd d a b) (paddResult_of_not_groupOk d a b h)
  · exact exec_of_err (.pdbl d a) (pdblResult_of_not_groupOk d a h)
  · exact exec_of_err (.pmul d k a) (pmulResult_of_not_groupOk d k a h)
  · exact exec_of_err (.oncurve a) (oncurveResult_of_not_groupOk a h)
  · exact exec_of_err (.ecdsav q r sg) (ecdsavResult_of_not_groupOk q r sg h)
  · obtain rfl := exec_next ht
    obtain ⟨e, hr, hs⟩ | ⟨w, b, -, h0, -⟩ := commit_cases s (resultOf i s)
    · have he' : e.code = 6 := by rw [hs] at he; exact he
      exact resultOf_point_ne_badCurve hd h (hr.trans (congrArg _ (errCode_eq_badCurve he')))
    · rw [h0] at he
      exact absurd he (by decide)

/-! ## What a point command leaves unchanged (R34, R136, R200) -/

theorem getLsbD_tagWith_ne (tags : BitVec 8) {d k : PReg} (b : Bool) (h : k ≠ d) :
    (tagWith tags d b).getLsbD k = tags.getLsbD k := by
  have hne : k.val ≠ d.val := Fin.val_ne_iff.2 h
  cases b <;> simp [tagWith, hne]

theorem setPoint_regs_ne (s : State) {d : PReg} (P : Point) {j : Reg} (hx : j ≠ d.xReg) (hy : j ≠ d.yReg) :
    (s.setPoint d P).regs[j] = s.regs[j] := by
  cases P <;> simp [Fin.val_ne_iff.2 hx.symm, Fin.val_ne_iff.2 hy.symm]

theorem setPoint_ptag_ne (s : State) {d k : PReg} (P : Point) (h : k ≠ d) :
    (s.setPoint d P).ptag.getLsbD k = s.ptag.getLsbD k := by
  cases P <;> exact getLsbD_tagWith_ne _ _ h

/-- R15: a point write shows in PTAG and the words of its pair only. -/
theorem readLoc_setPoint_ne (s : State) {d : PReg} (P : Point) {l : Loc} (ht : l ≠ .ptag)
    (hx : ∀ j, l ≠ .reg d.xReg j) (hy : ∀ j, l ≠ .reg d.yReg j) : (s.setPoint d P).readLoc l = s.readLoc l := by
  cases l with
  | ptag => exact absurd rfl ht
  | reg i j =>
    have h := setPoint_regs_ne s P (fun e => hx j (e ▸ rfl)) (fun e => hy j (e ▸ rfl))
    simp only [State.readLoc, h]
  | _ => cases P <;> rfl

/-- R80: PTAG is the word at 0x018. -/
theorem locate_ne_ptag {off : Nat} (hw : off < 4096) (h : off < 0x018 ∨ 0x01C ≤ off) :
    locate (off / 4 * 4) ≠ .ptag := by
  intro hl
  have hoff := offset_of_locate (Nat.mul_mod_left _ _) (by omega) hl nofun
  simp only [Loc.offset] at hoff
  omega

/-- R200: a point command changes no register outside its pair, no other tag, not RESULT, and the window only there and where the
outcome shows. -/
theorem commit_point {i : Instr} {d : PReg} (h : pointDest i = some d) (s : State) :
    (∀ j : Reg, j ≠ d.xReg → j ≠ d.yReg → (s.commit (resultOf i s)).regs[j] = s.regs[j]) ∧
      (∀ k : PReg, k ≠ d → (s.commit (resultOf i s)).ptag.getLsbD k = s.ptag.getLsbD k) ∧
      (s.commit (resultOf i s)).result = s.result ∧
      ∀ l : Loc, l.showsOutcome = false → l ≠ .ptag → (∀ j, l ≠ .reg d.xReg j) → (∀ j, l ≠ .reg d.yReg j) →
        (s.commit (resultOf i s)).readLoc l = s.readLoc l := by
  obtain ⟨e, hr⟩ | ⟨P, hr⟩ := resultOf_point h s <;> rw [hr]
  · exact ⟨fun _ _ _ => rfl, fun _ _ => rfl, rfl, fun l hl _ _ _ => readLoc_commitErr s e hl⟩
  · exact ⟨fun j hx hy => setPoint_regs_ne s P hx hy, fun k hk => setPoint_ptag_ne s P hk, State.setPoint_result s d P,
      fun l hl ht hx hy => (readLoc_commitOk s _ none hl).trans (readLoc_setPoint_ne s P ht hx hy)⟩

/-- Settles O23: such an outcome writes its pair and its tag at most. -/
theorem pointCommandFrame : Obligations.PointCommandFrame := by
  intro i s t d hd h
  obtain rfl := exec_next h
  obtain ⟨hregs, hptag, hresult, hwindow⟩ := commit_point hd s
  obtain ⟨hcurve, hsize, hhash, hlen, hcmd, hwign, hen, hsched, hresp, -⟩ := commit_fields s (resultOf i s)
  refine ⟨hregs, hptag, hcurve, hsize, hhash, hlen, hcmd, hresult, hwign, hen, hsched, hresp,
    fun off hw hoff htag hx hy => ?_⟩
  rw [State.windowByte, hwindow _ (showsOutcome_locate hw hoff) (locate_ne_ptag hw htag) (locate_ne_reg hw hx)
    (locate_ne_reg hw hy), ← State.windowByte]

end Sys2Proof.Machine
end

section
/-! SUPPORT. The Jacobian formulas on any curve that passes the check (R203 to R208), prime modulus or not: the coordinates as
residues, the affine forms, and what the loop of `jmul` does. -/

namespace Sys2Proof.Machine

/-! ## Conversion (R205) -/

theorem one_lt_of_groupOk {c : Curve} (h : c.groupOk = true) : 1 < c.p := by
  have := (groupOk_iff c).1 h
  omega

theorem toAffine_of_Z_eq_zero {c : Curve} {J : Jac} (h : J.Z = 0) : toAffine c J = some .identity := if_pos h

/-- R202: there and back, a point comes out reduced. -/
theorem toAffine_fromAffine {c : Curve} (hp : 1 < c.p) (x y : Int) :
    toAffine c (fromAffine c (.affine x y)) = some (.affine (emod x c.p) (emod y c.p)) := by
  rw [toAffine_of_inverse hp (J := fromAffine c (.affine x y)) (zi := 1) (Int.ModEq.refl 1)]
  simp [fromAffine]

/-- The affine form has coordinates in `[0, p)`. -/
theorem toAffine_range {c : Curve} (hp : 0 < c.p) {J : Jac} {x y : Int} (h : toAffine c J = some (.affine x y)) :
    (0 ≤ x ∧ x < c.p) ∧ 0 ≤ y ∧ y < c.p := by
  by_cases hz : J.Z = 0
  · rw [toAffine_of_Z_eq_zero hz] at h
    cases h
  · rw [toAffine, if_neg hz] at h
    split at h <;> cases h
    exact ⟨⟨emod_nonneg _ hp, emod_lt _ hp⟩, emod_nonneg _ hp, emod_lt _ hp⟩

/-- Modulo a prime every `Z` in `[1, p)` has an inverse. -/
theorem not_prime_of_toAffine_eq_none {c : Curve} {J : Jac} (hJ : J.Reduced c) (h : toAffine c J = none) :
    ¬ Prime c.p := by
  intro hprime
  have hp : 0 < c.p := hJ.z0.trans_lt hJ.z1
  by_cases hz : J.Z = 0
  · rw [toAffine_of_Z_eq_zero hz] at h
    cases h
  obtain ⟨-, zi, hi, -⟩ | ⟨hg, -⟩ := inv_cases J.Z hp
  · simp [toAffine, hz, hi] at h
  · have hdvd : ¬ c.p ∣ J.Z := fun hd => hz (Int.eq_zero_of_dvd_of_nonneg_of_lt hJ.z0 hJ.z1 hd)
    refine hg ?_
    rw [emod_of_lt hJ.z0 hJ.z1, Int.gcd_comm]
    exact Int.isCoprime_iff_gcd_eq_one.1 (hprime.coprime_iff_not_dvd.2 hdvd)

/-! ## The Jacobian double (R206) -/

theorem jdouble_of_zero (c : Curve) {J : Jac} (h : J.Z = 0 ∨ J.Y = 0) : jdouble c J = Jac.id := by
  obtain h | h := h <;> simp [jdouble, h]

/-- R206: the coordinates of the double as residues of polynomials in the operand. -/
theorem jdouble_residues (c : Curve) {J : Jac} (hz : J.Z ≠ 0) (hy : J.Y ≠ 0) {m : Int}
    (hm : m = 3 * J.X ^ 2 + c.a * J.Z ^ 4) :
    (jdouble c J).X = (m ^ 2 - 8 * J.X * J.Y ^ 2) % c.p ∧
      (jdouble c J).Y = (m * (4 * J.X * J.Y ^ 2 - (jdouble c J).X) - 8 * J.Y ^ 4) % c.p ∧
      (jdouble c J).Z = 2 * J.Y * J.Z % c.p := by
  have hM : emod (3 * J.X ^ 2 + c.a' * J.Z ^ 4) c.p ≡ m [ZMOD c.p] :=
    (emod_congr _ _).trans (hm ▸ ((emod_congr c.a c.p).mul_right _).add_left _)
  have hS := emod_congr (4 * J.X * J.Y ^ 2) c.p
  simp only [jdouble, hz, hy, if_false]
  refine ⟨?_, ?_, rfl⟩
  · rw [show m ^ 2 - 8 * J.X * J.Y ^ 2 = m ^ 2 - 2 * (4 * J.X * J.Y ^ 2) by ring]
    exact (hM.pow 2).sub (hS.mul_left 2)
  · exact (hM.mul (hS.sub_right _)).sub_right _

/-! ## The Jacobian sum (R207) -/

section
variable (c : Curve) {J K : Jac} {u h v r : Int}

theorem jadd_of_left_zero (K : Jac) (hz : J.Z = 0) : jadd c J K = K := if_pos hz

theorem jadd_of_right_zero (hz : J.Z ≠ 0) (hz' : K.Z = 0) : jadd c J K = J := by simp [jadd, hz, hz']

/-- R207: past the checks of `Z`, the sum by the two differences `h` and `r`. -/
theorem jadd_residues (hz : J.Z ≠ 0) (hz' : K.Z ≠ 0) (hu : u = J.X * K.Z ^ 2) (hh : h = K.X * J.Z ^ 2 - u)
    (hv : v = J.Y * K.Z ^ 3) (hr : r = K.Y * J.Z ^ 3 - v) :
    (h % c.p = 0 → r % c.p = 0 → jadd c J K = jdouble c J) ∧
      (h % c.p = 0 → r % c.p ≠ 0 → jadd c J K = Jac.id) ∧
      (h % c.p ≠ 0 →
        (jadd c J K).X = (r ^ 2 - h ^ 3 - 2 * u * h ^ 2) % c.p ∧
        (jadd c J K).Y = (r * (u * h ^ 2 - (jadd c J K).X) - v * h ^ 3) % c.p ∧
        (jadd c J K).Z = J.Z * K.Z * h % c.p) := by
  have hU : emod (J.X * K.Z ^ 2) c.p = emod (K.X * J.Z ^ 2) c.p ↔ h % c.p = 0 := by
    rw [hh, hu, eq_comm]
    exact Int.emod_eq_emod_iff_emod_sub_eq_zero
  have hS : emod (J.Y * K.Z ^ 3) c.p = emod (K.Y * J.Z ^ 3) c.p ↔ r % c.p = 0 := by
    rw [hr, hv, eq_comm]
    exact Int.emod_eq_emod_iff_emod_sub_eq_zero
  refine ⟨fun h0 r0 => ?_, fun h0 r0 => ?_, fun h0 => ?_⟩
  · simp [jadd, hz, hz', hU.2 h0, hS.2 r0]
  · simp [jadd, hz, hz', hU.2 h0, mt hS.1 r0]
  · have cu : emod (J.X * K.Z ^ 2) c.p ≡ u [ZMOD c.p] := hu ▸ emod_congr _ _
    have cv : emod (J.Y * K.Z ^ 3) c.p ≡ v [ZMOD c.p] := hv ▸ emod_congr _ _
    have ch : emod (emod (K.X * J.Z ^ 2) c.p - emod (J.X * K.Z ^ 2) c.p) c.p ≡ h [ZMOD c.p] :=
      (emod_congr _ _).trans (hh ▸ (emod_congr _ _).sub cu)
    have cr : emod (emod (K.Y * J.Z ^ 3) c.p - emod (J.Y * K.Z ^ 3) c.p) c.p ≡ r [ZMOD c.p] :=
      (emod_congr _ _).trans (hr ▸ (emod_congr _ _).sub cv)
    simp only [jadd, hz, hz', mt hU.1 h0, if_false]
    exact ⟨((cr.pow 2).sub (ch.pow 3)).sub ((cu.mul_left 2).mul (ch.pow 2)),
      (cr.mul ((cu.mul (ch.pow 2)).sub_right _)).sub (cv.mul (ch.pow 3)), ch.mul_left _⟩

end

/-! ## The affine forms (R203) -/

/-- The chord and the tangent at once: a triple whose coordinates are those of a line through `(x, y)` of slope `m / z`, with `t`
the sum of the two `x` it joins, has the third point of the line, negated, as its affine form. -/
theorem toAffine_of_line {c : Curve} (hp : 1 < c.p) {J : Jac} {m t x y z zi : Int} (hz : z * zi ≡ 1 [ZMOD c.p])
    (hX : J.X ≡ m ^ 2 - t * z ^ 2 [ZMOD c.p]) (hY : J.Y ≡ m * (x * z ^ 2 - J.X) - y * z ^ 3 [ZMOD c.p])
    (hZ : J.Z ≡ z [ZMOD c.p]) :
    toAffine c J = some (.affine (((m * zi) ^ 2 - t) % c.p) ((m * zi * (x + t - (m * zi) ^ 2) - y) % c.p)) := by
  have hx : J.X * zi * zi ≡ (m * zi) ^ 2 - t [ZMOD c.p] := calc
    J.X * zi * zi ≡ (m ^ 2 - t * z ^ 2) * zi * zi [ZMOD c.p] := (hX.mul_right _).mul_right _
    _ = (m * zi) ^ 2 - t * (z * zi) ^ 2 := by ring
    _ ≡ (m * zi) ^ 2 - t * 1 ^ 2 [ZMOD c.p] := ((hz.pow 2).mul_left _).sub_left _
    _ = (m * zi) ^ 2 - t := by ring
  have hy : J.Y * zi * zi * zi ≡ m * zi * (x + t - (m * zi) ^ 2) - y [ZMOD c.p] := calc
    J.Y * zi * zi * zi ≡ (m * (x * z ^ 2 - J.X) - y * z ^ 3) * zi * zi * zi [ZMOD c.p] :=
      ((hY.mul_right _).mul_right _).mul_right _
    _ = m * zi * (x * (z * zi) ^ 2 - J.X * zi * zi) - y * (z * zi) ^ 3 := by ring
    _ ≡ m * zi * (x * 1 ^ 2 - ((m * zi) ^ 2 - t)) - y * 1 ^ 3 [ZMOD c.p] :=
      ((((hz.pow 2).mul_left _).sub hx).mul_left _).sub ((hz.pow 3).mul_left _)
    _ = m * zi * (x + t - (m * zi) ^ 2) - y := by ring
  rw [toAffine_of_inverse hp ((hZ.mul_right zi).trans hz), emod_eq_emod_iff.2 hx, emod_eq_emod_iff.2 hy]
  rfl

theorem emod_ne_zero_of_inverse {z zi p : Int} (h : z * zi % p = 1) : z % p ≠ 0 := by
  intro h0
  have hdvd : p ∣ z * zi := (Int.dvd_of_emod_eq_zero h0).mul_right zi
  rw [Int.emod_eq_zero_of_dvd hdvd] at h
  cases h

theorem modEq_of_eq_emod {a b p : Int} (h : a = b % p) : a ≡ b [ZMOD p] := h ▸ Int.mod_modEq b p

/-- R207: the Jacobian sum of two affine operands, by the differences of their coordinates. -/
theorem jadd_affine (c : Curve) (x y x' y' : Int) {J K : Jac} (hJ : J = fromAffine c (.affine x y))
    (hK : K = fromAffine c (.affine x' y')) :
    ((x' - x) % c.p = 0 → (y' - y) % c.p = 0 → jadd c J K = jdouble c J) ∧
      ((x' - x) % c.p = 0 → (y' - y) % c.p ≠ 0 → jadd c J K = Jac.id) ∧
      ((x' - x) % c.p ≠ 0 →
        (jadd c J K).X ≡ (y' - y) ^ 2 - (x + x') * (x' - x) ^ 2 [ZMOD c.p] ∧
        (jadd c J K).Y ≡ (y' - y) * (x * (x' - x) ^ 2 - (jadd c J K).X) - y * (x' - x) ^ 3 [ZMOD c.p] ∧
        (jadd c J K).Z ≡ x' - x [ZMOD c.p]) := by
  have cx := emod_congr x c.p
  have cy := emod_congr y c.p
  have ch := (emod_congr x' c.p).sub cx
  have cr := (emod_congr y' c.p).sub cy
  obtain ⟨hdouble, hid, hsum⟩ := jadd_residues c (J := J) (K := K) (u := emod x c.p) (h := emod x' c.p - emod x c.p)
    (v := emod y c.p) (r := emod y' c.p - emod y c.p) (by simp [hJ, fromAffine]) (by simp [hK, fromAffine])
    (by simp [hJ, hK, fromAffine]) (by simp [hJ, hK, fromAffine]) (by simp [hJ, hK, fromAffine])
    (by simp [hJ, hK, fromAffine])
  rw [ch.eq, cr.eq] at hdouble hid
  rw [ch.eq] at hsum
  refine ⟨hdouble, hid, fun h0 => ?_⟩
  obtain ⟨hX, hY, hZ⟩ := hsum h0
  refine ⟨?_, ?_, ?_⟩
  · calc (jadd c J K).X
        ≡ (emod y' c.p - emod y c.p) ^ 2 - (emod x' c.p - emod x c.p) ^ 3
          - 2 * emod x c.p * (emod x' c.p - emod x c.p) ^ 2 [ZMOD c.p] := modEq_of_eq_emod hX
      _ ≡ (y' - y) ^ 2 - (x' - x) ^ 3 - 2 * x * (x' - x) ^ 2 [ZMOD c.p] :=
          ((cr.pow 2).sub (ch.pow 3)).sub ((cx.mul_left 2).mul (ch.pow 2))
      _ = (y' - y) ^ 2 - (x + x') * (x' - x) ^ 2 := by ring
  · exact (modEq_of_eq_emod hY).trans ((cr.mul ((cx.mul (ch.pow 2)).sub_right _)).sub (cy.mul (ch.pow 3)))
  · simp only [hJ, hK, fromAffine, one_mul] at hZ ⊢
    exact (modEq_of_eq_emod hZ).trans ch

/-- R206: the Jacobian double of an affine operand. -/
theorem jdouble_affine (c : Curve) (x : Int) {y : Int} (hy : y % c.p ≠ 0) {J : Jac}
    (hJ : J = jdouble c (fromAffine c (.affine x y))) :
    J.X ≡ (3 * x ^ 2 + c.a) ^ 2 - 2 * x * (2 * y) ^ 2 [ZMOD c.p] ∧
      J.Y ≡ (3 * x ^ 2 + c.a) * (x * (2 * y) ^ 2 - J.X) - y * (2 * y) ^ 3 [ZMOD c.p] ∧
      J.Z ≡ 2 * y [ZMOD c.p] := by
  have cx := emod_congr x c.p
  have cy := emod_congr y c.p
  have cm : 3 * emod x c.p ^ 2 + c.a * 1 ^ 4 ≡ 3 * x ^ 2 + c.a [ZMOD c.p] := by
    rw [one_pow, mul_one]
    exact ((cx.pow 2).mul_left 3).add_right _
  obtain ⟨hX, hY, hZ⟩ := jdouble_residues c (J := fromAffine c (.affine x y)) one_ne_zero hy rfl
  rw [← hJ] at hX hY hZ
  refine ⟨?_, ?_, ?_⟩
  · calc J.X
        ≡ (3 * emod x c.p ^ 2 + c.a * 1 ^ 4) ^ 2 - 8 * emod x c.p * emod y c.p ^ 2 [ZMOD c.p] := modEq_of_eq_emod hX
      _ ≡ (3 * x ^ 2 + c.a) ^ 2 - 8 * x * y ^ 2 [ZMOD c.p] := (cm.pow 2).sub ((cx.mul_left 8).mul (cy.pow 2))
      _ = (3 * x ^ 2 + c.a) ^ 2 - 2 * x * (2 * y) ^ 2 := by ring
  · calc J.Y
        ≡ (3 * emod x c.p ^ 2 + c.a * 1 ^ 4) * (4 * emod x c.p * emod y c.p ^ 2 - J.X) - 8 * emod y c.p ^ 4
          [ZMOD c.p] := modEq_of_eq_emod hY
      _ ≡ (3 * x ^ 2 + c.a) * (4 * x * y ^ 2 - J.X) - 8 * y ^ 4 [ZMOD c.p] :=
          (cm.mul (((cx.mul_left 4).mul (cy.pow 2)).sub_right _)).sub ((cy.pow 4).mul_left 8)
      _ = (3 * x ^ 2 + c.a) * (x * (2 * y) ^ 2 - J.X) - y * (2 * y) ^ 3 := by ring
  · calc J.Z
        ≡ 2 * emod y c.p * 1 [ZMOD c.p] := modEq_of_eq_emod hZ
      _ = 2 * emod y c.p := mul_one _
      _ ≡ 2 * y [ZMOD c.p] := cy.mul_left 2

/-- R203, R207: the sum of two affine operands whose `x' - x` has an inverse `zi`, on the curve or off it. -/
theorem toAffine_jadd_affine {c : Curve} (hp : 1 < c.p) {x y x' y' zi l : Int} (hzi : (x' - x) * zi % c.p = 1)
    (hl : l = (y' - y) * zi) :
    toAffine c (jadd c (fromAffine c (.affine x y)) (fromAffine c (.affine x' y'))) =
      some (.affine ((l ^ 2 - x - x') % c.p) ((l * (2 * x + x' - l ^ 2) - y) % c.p)) := by
  obtain ⟨-, -, hsum⟩ := jadd_affine c x y x' y' rfl rfl
  obtain ⟨hX, hY, hZ⟩ := hsum (emod_ne_zero_of_inverse hzi)
  rw [toAffine_of_line hp (modEq_of_eq_emod hzi.symm).symm hX hY hZ, ← hl,
    show l ^ 2 - (x + x') = l ^ 2 - x - x' by ring, show x + (x + x') = 2 * x + x' by ring]

/-- R203, R206: the double of an affine operand whose `2y` has an inverse `zi`, on the curve or off it. -/
theorem toAffine_jdouble_affine {c : Curve} (hp : 1 < c.p) {x y zi l : Int} (hzi : 2 * y * zi % c.p = 1)
    (hl : l = (3 * x ^ 2 + c.a) * zi) :
    toAffine c (jdouble c (fromAffine c (.affine x y))) =
      some (.affine ((l ^ 2 - 2 * x) % c.p) ((l * (3 * x - l ^ 2) - y) % c.p)) := by
  have hy : y % c.p ≠ 0 := emod_ne_zero_of_inverse (zi := 2 * zi) (by rwa [← mul_assoc, mul_comm y 2])
  obtain ⟨hX, hY, hZ⟩ := jdouble_affine c x hy rfl
  rw [toAffine_of_line hp (modEq_of_eq_emod hzi.symm).symm hX hY hZ, ← hl, show x + 2 * x = 3 * x by ring]

/-! ## The loop of `jmul` (R208) -/

/-- What addition and doubling keep, the loop keeps. -/
theorem jmulLoop_keeps {c : Curve} {P : Jac → Prop} (hadd : ∀ J K, P J → P K → P (jadd c J K))
    (hdouble : ∀ J, P J → P (jdouble c J)) (fuel : Nat) {k : Nat} {acc Q : Jac} (hacc : P acc) (hQ : P Q) :
    P (jmulLoop c fuel k acc Q) := by
  induction fuel generalizing k acc Q with
  | zero => exact hacc
  | succ fuel ih =>
    rw [jmulLoop]
    split_ifs
    · exact hacc
    · exact ih (hadd _ _ hacc hQ) (hdouble _ hQ)
    · exact ih hacc (hdouble _ hQ)

theorem jmul_reduced {c : Curve} (hp : 1 < c.p) (k : Int) {J : Jac} (hJ : J.Reduced c) : (jmul c k J).Reduced c :=
  jmulLoop_keeps (fun _ _ => jadd_reduced hp) (fun J _ => jdouble_reduced hp J) _ (Jac.id_reduced hp) hJ

theorem jmul_id (c : Curve) (k : Int) : jmul c k Jac.id = Jac.id :=
  jmulLoop_keeps (P := (· = Jac.id)) (fun _ _ hJ hK => by rw [hJ, hK, jadd_id_left]) (fun _ hJ => by rw [hJ, jdouble_id]) _
    rfl rfl

theorem jmul_zero (c : Curve) (J : Jac) : jmul c 0 J = Jac.id := rfl

theorem jmul_one (c : Curve) (J : Jac) : jmul c 1 J = J := rfl

/-- One bit of the scan: add where the bit is 1, double always. -/
def scanBit (c : Curve) (k : Nat) (acc : Jac × Jac) (i : Nat) : Jac × Jac :=
  (if k.testBit i then jadd c acc.1 acc.2 else acc.1, jdouble c acc.2)

theorem scanBit_zero (c : Curve) (k : Nat) (acc Q : Jac) :
    scanBit c k (acc, Q) 0 = (if k % 2 = 1 then jadd c acc Q else acc, jdouble c Q) := by
  simp [scanBit, Nat.testBit_zero]

theorem scanBit_succ (c : Curve) (k : Nat) (acc : Jac × Jac) (i : Nat) :
    scanBit c k acc (i + 1) = scanBit c (k / 2) acc i := by
  simp only [scanBit, Nat.testBit_succ]

theorem size_eq_size_div_two_add_one {k : Nat} (hk : k ≠ 0) : k.size = (k / 2).size + 1 := by
  rw [← Nat.bit_bodd_div2 k] at hk
  have h := Nat.size_bit hk
  rwa [Nat.bit_bodd_div2] at h

theorem jmulLoop_eq_foldl (c : Curve) (k : Nat) (acc Q : Jac) :
    jmulLoop c k k acc Q = ((List.range k.size).foldl (scanBit c k) (acc, Q)).1 := by
  induction k using Nat.strong_induction_on generalizing acc Q with
  | _ k ih =>
    by_cases hk : k = 0
    · subst hk
      simp
    · rw [jmulLoop_step c hk, ih (k / 2) (by omega), size_eq_size_div_two_add_one hk, List.range_succ_eq_map,
        List.foldl_cons, List.foldl_map, scanBit_zero]
      simp only [Nat.succ_eq_add_one, scanBit_succ]

/-- Settles O45, by strong induction on the scalar. -/
theorem jmulScansBitsUpwards : Obligations.JmulScansBitsUpwards := fun c k J => jmulLoop_eq_foldl c k Jac.id J

end Sys2Proof.Machine
end

section
/-! SUPPORT. The statements about PADD, PDBL, PMUL and ONCURVE, on any curve that passes the check and, for the group law, over a
prime field. -/

namespace Sys2Proof.Machine

/-! ## The group law over a prime field (R214) -/

/-- R201: an odd prime passes the check. -/
theorem groupOk_of_prime {c : Curve} {p : Nat} (hprime : p.Prime) (hcp : c.p = p) (hp2 : p ≠ 2) : c.groupOk = true := by
  have htwo := hprime.two_le
  have hodd := hprime.eq_two_or_odd
  rw [groupOk_iff, hcp]
  omega

/-- A command that ends in the conversion of a triple that stands for `A` writes `A`, reduced (R205). -/
theorem exec_represents {i : Instr} {s : State} {c : Curve} {p : Nat} [hp : Fact p.Prime] {d : PReg} {J : Jac}
    {A : (c.over p).Point} (hcp : c.p = p) (hr : resultOf i s = pointResult c d J) (hJ : RepJ c p J A) :
    ∃ R : Point, exec i s = .next (s.endPoint d R) ∧ Represents c p R A ∧
      ∀ x y, R = .affine x y → 0 ≤ x ∧ x < p ∧ 0 ≤ y ∧ y < p := by
  obtain ⟨R, hR, hA⟩ := hJ.toAffine hcp
  have hpos : 0 < c.p := hcp ▸ Int.natCast_pos.2 hp.out.pos
  refine ⟨R, exec_of_toAffine_eq_some hr hR, hA, fun x y hxy => ?_⟩
  subst hxy
  obtain ⟨⟨hx0, hx1⟩, hy0, hy1⟩ := toAffine_range hpos hR
  exact ⟨hx0, hcp ▸ hx1, hy0, hcp ▸ hy1⟩

/-- Settles O40: the Jacobian sum and double stand for the sum and the double. -/
theorem paddAndPdblAreTheGroupLaw : Obligations.PaddAndPdblAreTheGroupLaw := by
  intro s p hp hcp hp2 d a b A B hA hB
  have hok := groupOk_of_prime hp.out hcp hp2
  have hJ := RepJ.fromAffine hcp hA
  have hK := RepJ.fromAffine hcp hB
  exact ⟨exec_represents (i := .padd d a b) hcp (paddResult_of_groupOk d a b hok) (RepJ.add hcp hp2 hJ hK),
    exec_represents (i := .pdbl d a) hcp (pdblResult_of_groupOk d a hok) (RepJ.double hcp hp2 hJ)⟩

/-- Settles O41: the Jacobian product stands for the multiple, by the loop of `jmul`. -/
theorem pmulIsTheScalarMultiple : Obligations.PmulIsTheScalarMultiple := by
  intro s p hp hcp hp2 d k a A hA hk
  have hok := groupOk_of_prime hp.out hcp hp2
  obtain ⟨R, hexec, hR, -⟩ := exec_represents (i := .pmul d k a) hcp (pmulResult_of_nonneg d a hok hk)
    (RepJ.mul hcp hp2 (RepJ.fromAffine hcp hA))
  exact ⟨R, hexec, hR⟩

/-! ## Corner cases (R209, R211) -/

/-- R207: an operand added to itself is doubled, the identity too. -/
theorem jadd_fromAffine_self (c : Curve) (P : Point) :
    jadd c (fromAffine c P) (fromAffine c P) = jdouble c (fromAffine c P) := by
  cases P with
  | identity => rfl
  | affine x y => exact jadd_self c one_ne_zero

/-- Settles O42: the check is the same, and the sum of equal operands is the double. -/
theorem paddOfEqualOperandsDoubles : Obligations.PaddOfEqualOperandsDoubles := by
  intro d a s
  have hr : resultOf (.padd d a a) s = resultOf (.pdbl d a) s := by
    show paddResult d a a s = pdblResult d a s
    cases hok : s.curve.values.groupOk with
    | false => rw [paddResult_of_not_groupOk d a a hok, pdblResult_of_not_groupOk d a hok]
    | true => rw [paddResult_of_groupOk d a a hok, pdblResult_of_groupOk d a hok, jadd_fromAffine_self]
  rw [pdbl2, exec_eq, exec_eq, hr]

theorem sub_emod_eq_zero_comm {x y p : Int} : (x - y) % p = 0 ↔ (y - x) % p = 0 := by
  rw [← Int.dvd_iff_emod_eq_zero, ← Int.dvd_iff_emod_eq_zero, dvd_sub_comm]

/-- R207: affine operands with the same `x` and different `y` have the sum `JID`, on the curve or off it. -/
theorem jadd_affine_of_ne (c : Curve) {x y x' y' : Int} (hx : (x - x') % c.p = 0) (hy : (y - y') % c.p ≠ 0) :
    jadd c (fromAffine c (.affine x y)) (fromAffine c (.affine x' y')) = Jac.id := by
  obtain ⟨-, hid, -⟩ := jadd_affine c x y x' y' rfl rfl
  exact hid (sub_emod_eq_zero_comm.1 hx) (mt sub_emod_eq_zero_comm.1 hy)

theorem isCoprime_two_of_groupOk {c : Curve} (hok : c.groupOk = true) : IsCoprime c.p 2 :=
  have ⟨_, hodd⟩ := (groupOk_iff c).1 hok
  Int.isCoprime_two_right.2 (Int.odd_iff.2 hodd)

/-- R209: so have opposite operands, `y` congruent to 0 included. -/
theorem jadd_affine_of_opposite {c : Curve} (hok : c.groupOk = true) {x y x' y' : Int} (hx : (x - x') % c.p = 0)
    (hy : (y + y') % c.p = 0) :
    jadd c (fromAffine c (.affine x y)) (fromAffine c (.affine x' y')) = Jac.id := by
  by_cases hne : (y - y') % c.p = 0
  · have hy0 : y % c.p = 0 := by
      have h2 : c.p ∣ 2 * y := by
        have := (Int.dvd_of_emod_eq_zero hy).add (Int.dvd_of_emod_eq_zero hne)
        rwa [show y + y' + (y - y') = 2 * y by ring] at this
      exact Int.emod_eq_zero_of_dvd ((isCoprime_two_of_groupOk hok).dvd_of_dvd_mul_left h2)
    obtain ⟨hdouble, -, -⟩ := jadd_affine c x y x' y' rfl rfl
    rw [hdouble (sub_emod_eq_zero_comm.1 hx) (sub_emod_eq_zero_comm.1 hne)]
    exact jdouble_of_zero c (.inr hy0)
  · exact jadd_affine_of_ne c hx hne

/-- Settles O43: the sum is the other operand, or the identity. -/
theorem paddIdentityAndInverse : Obligations.PaddIdentityAndInverse := by
  intro d a b s hok
  have hp := one_lt_of_groupOk hok
  have hr : resultOf (.padd d a b) s = _ := paddResult_of_groupOk d a b hok
  refine ⟨fun ha hb => exec_of_toAffine_eq_identity hr ?_, fun x y ha hb => exec_of_toAffine_eq_affine hr ?_,
    fun x y ha hb => exec_of_toAffine_eq_affine hr ?_, fun x y x' y' ha hb hx hy => exec_of_toAffine_eq_identity hr ?_,
    fun x y x' y' ha hb hx hy => exec_of_toAffine_eq_identity hr ?_⟩ <;> rw [ha, hb]
  · rfl
  · exact toAffine_fromAffine hp x y
  · rw [fromAffine, jadd_id_right]
    exacts [toAffine_fromAffine hp x y, one_ne_zero]
  · rw [jadd_affine_of_opposite hok hx hy]
    rfl
  · rw [jadd_affine_of_ne _ hx hy]
    rfl

/-- Settles O44: the product by 0 and that of the identity are `JID`, and the product by 1 is the operand. -/
theorem pmulSmallScalars : Obligations.PmulSmallScalars := by
  intro d k a s hok
  have hr (hk : 0 ≤ s.x k) : resultOf (.pmul d k a) s = _ := pmulResult_of_nonneg d a hok hk
  refine ⟨fun hk => exec_of_toAffine_eq_identity (hr hk.ge) ?_,
    fun x y hk ha => exec_of_toAffine_eq_affine (hr (by omega)) ?_,
    fun hk ha => exec_of_toAffine_eq_identity (hr hk) ?_⟩
  · rw [hk, jmul_zero]
    rfl
  · rw [hk, ha, jmul_one]
    exact toAffine_fromAffine (one_lt_of_groupOk hok) x y
  · rw [ha, fromAffine, jmul_id]
    rfl

/-! ## The on-curve test (R212) -/

theorem onCurveCore_affine_iff (c : Curve) (x y : Int) :
    onCurveCore c (.affine x y) = true ↔ c.p ∣ y ^ 2 - (x ^ 3 + c.a * x + c.b) ∧
      (c.h = 1 ∨ (jmul c c.n (fromAffine c (.affine x y))).Z = 0) := by
  have cx := emod_congr x c.p
  have cy := emod_congr y c.p
  have hres : emod (emod y c.p ^ 2 - (emod x c.p ^ 3 + c.a' * emod x c.p + c.b')) c.p =
      emod (y ^ 2 - (x ^ 3 + c.a * x + c.b)) c.p :=
    (cy.pow 2).sub (((cx.pow 3).add ((emod_congr c.a c.p).mul cx)).add (emod_congr c.b c.p))
  rw [onCurveCore, hres, Int.dvd_iff_emod_eq_zero, ← emod]
  split_ifs with hequation hcofactor
  · exact iff_of_false nofun fun ⟨h, _⟩ => hequation h
  · exact iff_of_false nofun fun ⟨_, h⟩ => h.elim hcofactor.1 hcofactor.2
  · exact iff_of_true rfl ⟨not_not.1 hequation, (not_and_or.1 hcofactor).imp not_not.1 not_not.1⟩

end Sys2Proof.Machine

namespace Sys2Proof

/-! ## The statements about one command -/

section
open Machine

/-- Settles O37: the ends of PADD are those of the conversion, and the Jacobian sum is that of R207. -/
theorem paddResult : Obligations.PaddResult := by
  refine fun d a b => ⟨encode_padd d a b, fun s => ⟨fun h => ?_, fun h => ?_⟩⟩
  · exact exec_of_err (.padd d a b) (paddResult_of_not_groupOk d a b h)
  have hp := one_lt_of_groupOk h
  have hr : resultOf (.padd d a b) s = _ := paddResult_of_groupOk d a b h
  refine ⟨fun P => exec_of_toAffine_eq_some hr, fun hn => ⟨exec_of_toAffine_eq_none hr hn, ?_⟩, fun J K => ?_,
    fun x y x' y' zi ha hb hzi => exec_of_toAffine_eq_affine hr ?_⟩
  · exact not_prime_of_toAffine_eq_none (jadd_reduced hp (fromAffine_reduced hp _) (fromAffine_reduced hp _)) hn
  · exact ⟨jadd_of_left_zero _ K, jadd_of_right_zero _, fun hz hz' => jadd_residues _ hz hz' rfl rfl rfl rfl⟩
  · rw [ha, hb]
    exact toAffine_jadd_affine hp hzi rfl

/-- Settles O38: the ends of PDBL are those of the conversion, and the Jacobian double is that of R206. -/
theorem pdblResult : Obligations.PdblResult := by
  refine fun d a => ⟨encode_pdbl d a, fun s => ⟨fun h => ?_, fun h => ?_⟩⟩
  · exact exec_of_err (.pdbl d a) (pdblResult_of_not_groupOk d a h)
  have hp := one_lt_of_groupOk h
  have hr : resultOf (.pdbl d a) s = _ := pdblResult_of_groupOk d a h
  refine ⟨fun P => exec_of_toAffine_eq_some hr, fun hn => ⟨exec_of_toAffine_eq_none hr hn, ?_⟩,
    fun ha => exec_of_toAffine_eq_identity hr ?_, fun x y ha hy => exec_of_toAffine_eq_identity hr ?_,
    fun J => ⟨jdouble_of_zero _, fun hz hy => jdouble_residues _ hz hy rfl⟩,
    fun x y zi ha hzi => exec_of_toAffine_eq_affine hr ?_⟩
  · exact not_prime_of_toAffine_eq_none (jdouble_reduced hp _) hn
  · rw [ha]
    rfl
  · rw [ha, jdouble_of_zero _ (.inr hy)]
    rfl
  · rw [ha]
    exact toAffine_jdouble_affine hp hzi rfl

/-- Settles O39: the two checks in their order, then the ends of the conversion. -/
theorem pmulResult : Obligations.PmulResult := by
  refine fun d k a => ⟨encode_pmul d k a, fun s => ⟨fun h => ?_, fun h hk => ?_, fun h hk => ?_⟩⟩
  · exact exec_of_err (.pmul d k a) (pmulResult_of_not_groupOk d k a h)
  · exact exec_of_err (.pmul d k a) (pmulResult_of_neg d a h hk)
  have hp := one_lt_of_groupOk h
  have hr : resultOf (.pmul d k a) s = _ := pmulResult_of_nonneg d a h hk
  exact ⟨fun P => exec_of_toAffine_eq_some hr, fun hn => ⟨exec_of_toAffine_eq_none hr hn,
    not_prime_of_toAffine_eq_none (jmul_reduced hp _ (fromAffine_reduced hp _)) hn⟩⟩

/-- Settles O46: the two checks, and what the test of R212 decides. -/
theorem oncurveResult : Obligations.OncurveResult := by
  refine fun a => ⟨encode_oncurve a, fun s => ⟨fun h => ?_, fun h hh hn => ?_, fun h hn => ?_⟩⟩
  · exact exec_of_err (.oncurve a) (oncurveResult_of_not_groupOk a h)
  · exact exec_of_err (.oncurve a) (oncurveResult_of_no_order a h hh hn)
  have hexec := exec_of_flag (.oncurve a) (oncurveResult_of_checked a h hn)
  refine ⟨fun ha => ?_, fun x y ha => ?_⟩ <;> rw [ha] at hexec
  · exact hexec
  · exact ⟨_, hexec, onCurveCore_affine_iff _ x y⟩

end

end Sys2Proof
end

section
/-! SUPPORT. ECDSA verification (spec/43_ecdsa_verify.md): the hash integer, what the nine steps decide on any curve, and the
statements about ECDSAV. -/

namespace Sys2Proof.Machine

/-! ## The hash integer (R256) -/

/-- R16: the first `L` of `n` bytes as a sum over all `n` places. -/
theorem bigE_take_eq_sum {n : Nat} (bytes : Vector Byte n) {L : Nat} (hL : L ≤ n) :
    bigE (bytes.toList.take L) =
      ∑ i : Fin n, if i.val < L then (bytes[i].toNat : Int) * 256 ^ (L - 1 - i.val) else 0 := by
  induction L with
  | zero => simp [bigE]
  | succ L ih =>
    have hlast : bytes.toList.take (L + 1) = bytes.toList.take L ++ [bytes[L]] := by
      rw [List.take_succ_eq_append_getElem (by simpa using hL), Vector.getElem_toList]
    have hplace (i : Fin n) : (if i.val < L + 1 then (bytes[i].toNat : Int) * 256 ^ (L + 1 - 1 - i.val) else 0) =
        (if i.val < L then (bytes[i].toNat : Int) * 256 ^ (L - 1 - i.val) else 0) * 256 +
          if i = ⟨L, hL⟩ then (bytes[i].toNat : Int) else 0 := by
      obtain hi | hi | hi := lt_trichotomy i.val L
      · have hpow : L + 1 - 1 - i.val = L - 1 - i.val + 1 := by omega
        rw [if_pos (by omega), if_pos hi, if_neg (by simp [Fin.ext_iff, hi.ne]), hpow]
        ring
      · simp [Fin.ext_iff, hi]
      · rw [if_neg (by omega), if_neg (by omega), if_neg (by simp [Fin.ext_iff, hi.ne'])]
        rfl
    rw [hlast, bigE_append, ih (by omega), Finset.sum_congr rfl fun i _ => hplace i, Finset.sum_add_distrib,
      ← Finset.sum_mul, Finset.sum_ite_eq' Finset.univ, if_pos (Finset.mem_univ _)]
    rfl

/-- Settles O47, by induction on the number of bytes used; the bytes above them are cut off. -/
theorem hashIntegerIsBigEndian : Obligations.HashIntegerIsBigEndian := by
  refine ⟨fun s h => bigE_take_eq_sum s.hash (by omega), fun s h => ?_, fun s i b h => ?_⟩
  · rw [State.hashInt, h]
    rfl
  · rw [State.hashInt, Vector.toList_set, List.take_set_of_le h]
    rfl

/-! ## The nine steps (R254 to R262) -/

theorem emod_eq_one_iff_modEq {x m : Int} (hm : 1 < m) : x % m = 1 ↔ x ≡ 1 [ZMOD m] := by
  rw [Int.ModEq, Int.emod_eq_of_lt zero_le_one hm]

/-- R160: `inv` returns the one inverse in `[0, m)`, whenever there is one. -/
theorem inv_eq_some_iff {a m w : Int} (hm : 1 < m) : inv a m = some w ↔ 0 ≤ w ∧ w < m ∧ a * w % m = 1 := by
  rw [emod_eq_one_iff_modEq hm]
  obtain ⟨-, v, hinv, h0, h1, hv⟩ | ⟨hg, hinv⟩ := inv_cases a (by omega : 0 < m) <;> rw [hinv]
  · constructor
    · rintro ⟨⟩
      exact ⟨h0, h1, hv⟩
    · rintro ⟨h0', h1', hw⟩
      exact congrArg some (inverse_unique ⟨h0, h1⟩ ⟨h0', h1'⟩ hv hw)
  · refine iff_of_false nofun fun ⟨_, _, hw⟩ => hg ?_
    rw [emod, Int.gcd_emod, ← Int.isCoprime_iff_gcd_eq_one]
    obtain ⟨k, hk⟩ := hw.dvd
    exact ⟨w, k, by linear_combination -hk⟩

/-- R259 to R262: the test for an identity sum is contained in the conversion, which has an affine result. -/
theorem verifyPoints_iff (c : Curve) (Q : Point) (r u1 u2 : Int) : verifyPoints c Q r u1 u2 = true ↔
    (jmul c u1 (fromAffine c (.affine c.gx c.gy))).Z ≠ 0 ∧ (jmul c u2 (fromAffine c Q)).Z ≠ 0 ∧
      ∃ rx ry, toAffine c (jadd c (jmul c u1 (fromAffine c (.affine c.gx c.gy))) (jmul c u2 (fromAffine c Q))) =
        some (.affine rx ry) ∧ (r - rx) % c.n = 0 := by
  rw [verifyPoints]
  generalize jmul c u1 _ = J1
  generalize jmul c u2 _ = J2
  dsimp only
  split_ifs with h1 h2 h3
  · exact iff_of_false nofun fun ⟨h, _⟩ => h h1
  · exact iff_of_false nofun fun ⟨_, h, _⟩ => h h2
  · simp [toAffine_of_Z_eq_zero h3]
  · cases toAffine c (jadd c J1 J2) with
    | none => simp
    | some P => cases P <;> simp [h1, h2, emod]

/-- R254 to R258: the steps before the points. -/
theorem verify_iff {c : Curve} (hn : 2 ≤ c.n) (e r s : Int) (Q : Point) : verify c e Q r s = true ↔
    onCurveCore c Q = true ∧ (jmul c c.n (fromAffine c Q)).Z = 0 ∧
      ∃ w, 0 ≤ w ∧ w < c.n ∧ s * w % c.n = 1 ∧ verifyPoints c Q r (e * w % c.n) (r * w % c.n) = true := by
  have hw : (∃ w, 0 ≤ w ∧ w < c.n ∧ s * w % c.n = 1 ∧ verifyPoints c Q r (e * w % c.n) (r * w % c.n) = true) ↔
      ∃ w, inv s c.n = some w ∧ verifyPoints c Q r (e * w % c.n) (r * w % c.n) = true := by
    simp only [inv_eq_some_iff (by omega : 1 < c.n), and_assoc]
  rw [verify, hw]
  split_ifs with honcurve horder
  · exact iff_of_false nofun fun ⟨h, _⟩ => by simp [h] at honcurve
  · exact iff_of_false nofun fun ⟨_, h, _⟩ => horder h
  · rw [and_iff_right (by simpa using honcurve), and_iff_right (not_not.1 horder)]
    cases inv s c.n <;> simp [emod]

/-! ## Corner cases (R265) -/

/-- R257, R258, R262: the steps read `r` and `s` through their residues only. -/
theorem verify_congr {c : Curve} (hn : 2 ≤ c.n) {r r' s s' : Int} (hr : r ≡ r' [ZMOD c.n]) (hs : s ≡ s' [ZMOD c.n])
    (e : Int) (Q : Point) : verify c e Q r s = verify c e Q r' s' := by
  have hu2 (w : Int) : r * w % c.n = r' * w % c.n := hr.mul_right w
  have hw (w : Int) : s * w % c.n = s' * w % c.n := hs.mul_right w
  have hx (rx : Int) : (r - rx) % c.n = (r' - rx) % c.n := hr.sub_right rx
  rw [Bool.eq_iff_iff, verify_iff hn, verify_iff hn]
  simp only [verifyPoints_iff, hu2, hw, hx]

theorem mul_emod_eq_zero_of_left {x n : Int} (h : x % n = 0) (w : Int) : x * w % n = 0 :=
  Int.emod_eq_zero_of_dvd ((Int.dvd_of_emod_eq_zero h).mul_right w)

/-- R259: no digest that is 0 modulo `n` is accepted. -/
theorem verify_ne_true_of_e {c : Curve} (hn : 2 ≤ c.n) {e : Int} (he : e % c.n = 0) (r s : Int) (Q : Point) :
    verify c e Q r s ≠ true := by
  rw [Ne, verify_iff hn]
  rintro ⟨-, -, w, -, -, -, h⟩
  rw [mul_emod_eq_zero_of_left he, verifyPoints_iff] at h
  obtain ⟨hz, -⟩ := h
  exact hz rfl

/-- R260: no `r` that is 0 modulo `n` is accepted. -/
theorem verify_ne_true_of_r {c : Curve} (hn : 2 ≤ c.n) {r : Int} (hr : r % c.n = 0) (e s : Int) (Q : Point) :
    verify c e Q r s ≠ true := by
  rw [Ne, verify_iff hn]
  rintro ⟨-, -, w, -, -, -, h⟩
  rw [mul_emod_eq_zero_of_left hr, verifyPoints_iff] at h
  obtain ⟨-, hz, -⟩ := h
  exact hz rfl

/-- R257: an `s` that is 0 modulo `n` has no inverse. -/
theorem verify_ne_true_of_s {c : Curve} (hn : 2 ≤ c.n) {s : Int} (hs : s % c.n = 0) (e r : Int) (Q : Point) :
    verify c e Q r s ≠ true := by
  rw [Ne, verify_iff hn]
  rintro ⟨-, -, w, -, -, hw, -⟩
  rw [mul_emod_eq_zero_of_left hs] at hw
  exact absurd hw zero_ne_one

/-- R254: only a key that passes the on-curve test is accepted. -/
theorem verify_eq_false_of_key {c : Curve} {Q : Point} (hQ : onCurveCore c Q = false) (e r s : Int) :
    verify c e Q r s = false := by simp [verify, hQ]

/-- Settles O49: `r` and `s` are read through their residues, and each other case fails its own step. -/
theorem verifyCornerCases : Obligations.VerifyCornerCases := by
  intro c e r s Q hn
  have hshift (x k : Int) : x + k * c.n ≡ x [ZMOD c.n] := by simp [Int.ModEq]
  refine ⟨fun k => ⟨verify_congr hn (hshift r k) rfl e Q, verify_congr hn rfl (hshift s k) e Q⟩,
    fun h => Bool.eq_false_iff.2 (verify_ne_true_of_e hn h r s Q),
    fun h => Bool.eq_false_iff.2 (verify_ne_true_of_r hn h e s Q),
    fun h => Bool.eq_false_iff.2 (verify_ne_true_of_s hn h e r Q), verify_eq_false_of_key rfl e r s,
    fun x y _ hoff => verify_eq_false_of_key (Bool.eq_false_iff.2 fun h => ?_) e r s⟩
  obtain ⟨hequation, -⟩ := (onCurveCore_affine_iff c x y).1 h
  exact hoff hequation

/-! ## The checks (R251, R252) -/

theorem ecdsaOk_iff (s : State) : s.ecdsaOk = true ↔
    3 ≤ s.curve.values.p ∧ s.curve.values.p % 2 = 1 ∧ 2 ≤ s.curve.values.n ∧ 1 ≤ s.curveSize.toNat ∧
      s.curveSize.toNat ≤ 72 := by
  simp only [State.ecdsaOk, Bool.and_eq_true, groupOk_iff, decide_eq_true_eq, and_assoc]
  rfl

section
variable {s : State} (q : PReg)

theorem ecdsavResult_of_not_ecdsaOk (r sg : Reg) (h : ¬ s.ecdsaOk = true) : ecdsavResult q r sg s = .err .badCurve := by
  simp [ecdsavResult, h]

theorem ecdsavResult_of_bad_range {r sg : Reg} (h : s.ecdsaOk = true) (hrange : s.x r < 1 ∨ s.x sg < 1) :
    ecdsavResult q r sg s = .err .sigRange := by simp [ecdsavResult, h, hrange]

theorem ecdsavResult_of_checked {r sg : Reg} (h : s.ecdsaOk = true) (hr : 1 ≤ s.x r) (hs : 1 ≤ s.x sg) :
    ecdsavResult q r sg s = .ok none (some (verify s.curve.values s.hashInt (s.pt q) (s.x r) (s.x sg))) := by
  simp [ecdsavResult, h, hr.not_gt, hs.not_gt]

end

end Sys2Proof.Machine

namespace Sys2Proof

/-! ## The statement about the command (R263) -/

theorem encode_ecdsav (q : PReg) (r sg : Reg) :
    encode (.ecdsav q r sg) = BitVec.ofNat 32 (0x20 + q.val * 2 ^ 13 + r.val * 2 ^ 16 + sg.val * 2 ^ 20) := by
  refine (toWord_of_four_regs 0x20 0 q.xReg r sg).trans (congrArg _ ?_)
  simp only [PReg.xReg, BitVec.reduceToNat, Fin.val_zero]
  omega

section
open Machine

/-- Settles O48: the two checks in their order, and what the nine steps decide. -/
theorem ecdsavResult : Obligations.EcdsavResult := by
  refine fun q r sg => ⟨encode_ecdsav q r sg, fun s => ?_⟩
  dsimp only
  rw [← ecdsaOk_iff]
  refine ⟨fun h => exec_of_err (.ecdsav q r sg) (ecdsavResult_of_not_ecdsaOk q r sg h),
    fun h hrange => exec_of_err (.ecdsav q r sg) (ecdsavResult_of_bad_range q h hrange),
    fun h hr hs => ⟨_, exec_of_flag (.ecdsav q r sg) (ecdsavResult_of_checked q h hr hs), ?_⟩⟩
  obtain ⟨-, -, hn, -⟩ := (ecdsaOk_iff s).1 h
  rw [verify_iff hn]
  simp only [verifyPoints_iff]
  constructor
  · rintro ⟨hcurve, horder, w, h0, h1, hw, hG, hQ, rx, ry, hsum, hx⟩
    exact ⟨hcurve, horder, w, _, _, rx, ry, h0, h1, hw, rfl, rfl, hG, hQ, hsum, hx⟩
  · rintro ⟨hcurve, horder, w, u1, u2, rx, ry, h0, h1, hw, rfl, rfl, hG, hQ, hsum, hx⟩
    exact ⟨hcurve, horder, w, h0, h1, hw, hG, hQ, rx, ry, hsum, hx⟩

end

end Sys2Proof
end

section
/-! SUPPORT. ECDSA verification over a prime field: the nine steps as an equation in the group of R214. -/

namespace Sys2Proof.Machine

section group
variable {c : Curve} {p : Nat} [hp : Fact p.Prime]

/-- R259 to R261: the identity tests look at `Z` alone. -/
theorem RepJ.Z_eq_zero_iff {J : Jac} {A : (c.over p).Point} (hJ : RepJ c p J A) : J.Z = 0 ↔ A = 0 := by
  obtain ⟨-, ⟨hz, hA⟩ | ⟨hz, _, hA⟩⟩ := hJ
  · exact iff_of_true hz hA
  · exact iff_of_false hz (by simp [hA])

/-- R262: the conversion of a triple that stands for `A` has the `x` of `A` in `[0, p)`, and no affine form when `A` is
neutral. -/
theorem RepJ.exists_toAffine_iff (hcp : c.p = p) {J : Jac} {A : (c.over p).Point} (hJ : RepJ c p J A) (test : Int → Prop) :
    (∃ rx ry, Machine.toAffine c J = some (.affine rx ry) ∧ test rx) ↔ ∃ x y h, A = .some x y h ∧ test (x.val : Int) := by
  obtain ⟨P, hP, hA⟩ := hJ.toAffine hcp
  cases P with
  | identity =>
    obtain rfl : A = 0 := hA
    exact iff_of_false (by simp [hP]) fun ⟨_, _, _, h, _⟩ => by simp at h
  | affine rx ry =>
    obtain ⟨h, rfl⟩ := hA
    obtain ⟨⟨h0, h1⟩, -⟩ := toAffine_range (hcp ▸ Int.natCast_pos.2 hp.out.pos) hP
    have hval : ((rx : ZMod p).val : Int) = rx := by
      rw [ZMod.val_intCast, ← hcp, Int.emod_eq_of_lt h0 h1]
    constructor
    · rintro ⟨rx', ry', hP', ht⟩
      rw [hP] at hP'
      cases hP'
      exact ⟨_, _, h, rfl, hval.symm ▸ ht⟩
    · rintro ⟨x, y, h', hxy, ht⟩
      cases hxy
      exact ⟨rx, ry, hP, hval ▸ ht⟩

/-- R202: a pair that stands for a point satisfies the equation of the curve modulo `p`. -/
theorem dvd_equation_of_represents (hcp : c.p = p) {x y : Int} {A : (c.over p).Point} (hA : Represents c p (.affine x y) A) :
    c.p ∣ y ^ 2 - (x ^ 3 + c.a * x + c.b) := by
  obtain ⟨h, -⟩ := hA
  rw [hcp, ← ZMod.intCast_zmod_eq_zero_iff_dvd]
  push_cast
  exact sub_eq_zero.2 (over_equation h)

/-- R254, R255: for a key that stands for `A`, the first two steps test that `A` is not neutral and `n` times `A` is. -/
theorem key_steps_iff (hcp : c.p = p) (hp2 : p ≠ 2) {Q : Point} {A : (c.over p).Point} (hA : Represents c p Q A) :
    onCurveCore c Q = true ∧ (jmul c c.n (fromAffine c Q)).Z = 0 ↔ A ≠ 0 ∧ c.n.toNat • A = 0 := by
  rw [← (RepJ.mul hcp hp2 (RepJ.fromAffine hcp hA)).Z_eq_zero_iff]
  refine and_congr_left fun horder => ?_
  cases Q with
  | identity => exact iff_of_false nofun fun h => h hA
  | affine x y =>
    have hcurve := (onCurveCore_affine_iff c x y).2 ⟨dvd_equation_of_represents hcp hA, .inr horder⟩
    obtain ⟨h, rfl⟩ := hA
    exact iff_of_true hcurve (by simp)

/-- R259 to R262: the steps on points are the equation between the points they stand for. -/
theorem point_steps_iff (hcp : c.p = p) (hp2 : p ≠ 2) {Q : Point} {A G : (c.over p).Point} (hA : Represents c p Q A)
    (hG : Represents c p (.affine c.gx c.gy) G) (r u1 u2 : Int) : verifyPoints c Q r u1 u2 = true ↔
      u1.toNat • G ≠ 0 ∧ u2.toNat • A ≠ 0 ∧
        ∃ x y h, u1.toNat • G + u2.toNat • A = .some x y h ∧ (r - (x.val : Int)) % c.n = 0 := by
  have hJ1 := RepJ.mul hcp hp2 (k := u1) (RepJ.fromAffine hcp hG)
  have hJ2 := RepJ.mul hcp hp2 (k := u2) (RepJ.fromAffine hcp hA)
  rw [verifyPoints_iff, Ne, Ne, hJ1.Z_eq_zero_iff, hJ2.Z_eq_zero_iff,
    (RepJ.add hcp hp2 hJ1 hJ2).exists_toAffine_iff hcp fun x => (r - x) % c.n = 0]

end group

/-- Settles O50: the key steps and the point steps are tests of the points they stand for; that the key is not neutral follows
from its multiple by `u2`. -/
theorem verifyIsTheGroupEquation : Obligations.VerifyIsTheGroupEquation := by
  intro c p hp hcp hp2 hn e r s Q A G hA hG
  rw [verify_iff hn, ← and_assoc, key_steps_iff hcp hp2 hA]
  simp only [point_steps_iff hcp hp2 hA hG]
  constructor
  · rintro ⟨⟨-, horder⟩, heq⟩
    exact ⟨horder, heq⟩
  · rintro ⟨horder, w, h0, h1, hw, hG', hA', hsum⟩
    exact ⟨⟨fun h => hA' (by rw [h, nsmul_zero]), horder⟩, w, h0, h1, hw, hG', hA', hsum⟩

end Sys2Proof.Machine
end

section
/-! SUPPORT. Errors (spec/60_exceptions.md): no state stops the block, and the code each command can end with. -/

namespace Sys2Proof.Machine

/-! ## No step stops (R287) -/

/-- R122, R287: the engine answers a next state for every word in flight, legal or not. -/
theorem exists_engineTurn_next (s : State) : ∃ t, engineTurn s = .next t := by
  obtain ⟨-, e⟩ | ⟨v, -, e⟩ := engineTurn_cases s
  · exact ⟨_, e⟩
  · exact ⟨_, e⟩

/-- Settles O8, by whose turn it is. -/
theorem everyStepCompletes : Obligations.EveryStepCompletes := by
  intro s
  obtain ⟨-, e⟩ | ⟨rest, -, e⟩ | ⟨a, rest, -, e⟩ | ⟨rest, -, e⟩ := step_cases s
  · exact e ▸ exists_engineTurn_next s
  · exact e ▸ exists_engineTurn_next _
  · exact ⟨_, e⟩
  · exact ⟨_, e⟩

/-! ## The code of an outcome (R280, R282) -/

/-- The code the commit of an outcome leaves in ERRCODE (R136, R137): 0 for a success. -/
def Result.code : Result → BitVec 8
  | .ok _ _ => 0
  | .err e => e.code

@[simp] theorem code_ok (w : Option Update) (b : Option Bool) : (Result.ok w b).code = 0 := rfl

@[simp] theorem code_err (e : ErrCode) : (Result.err e).code = e.code := rfl

@[simp] theorem commit_errcode (s : State) (r : Result) : (s.commit r).errcode = r.code := by
  cases r with
  | ok w b => exact State.commitOk_errcode s w b
  | err e => exact State.commitErr_errcode s e

/-- R205: the conversion that ends a point command succeeds, or ends in NO_INVERSE. -/
theorem code_pointResult_mem {codes : List (BitVec 8)} (h0 : 0 ∈ codes) (h3 : ErrCode.noInverse.code ∈ codes)
    (c : Curve) (d : PReg) (J : Jac) : (pointResult c d J).code ∈ codes := by
  cases h : toAffine c J with
  | none => rwa [pointResult_of_none d h]
  | some P => rwa [pointResult_of_some d h]

/-- R282: the rows of the integer commands, check by check in the order of each command. -/
theorem code_resultOf_integer {i : Instr} {d : Reg} (hd : integerDest i = some d) (s : State) :
    (resultOf i s).code ∈ errorCodes i := by
  cases i <;> cases hd <;> simp only [resultOf, errorCodes]
  case modred x m =>
    obtain h | h := le_or_gt (s.x m) 0
    · simp [modredResult_of_nonpos d x h, ErrCode.code]
    · simp [modredResult_of_pos d x h]
  case modinv a m =>
    by_cases h : s.x m = 0
    · simp [modinvResult_of_zero d a h, ErrCode.code]
    · rw [modinvResult_of_ne_zero d a h]
      cases inv (s.x a) |s.x m| <;> simp [ErrCode.code]
  case modexp x y m =>
    obtain h | h := le_or_gt (s.x m) 0
    · simp [modexpResult_of_nonpos d x y h, ErrCode.code]
    obtain hy | hy := lt_or_ge (s.x y) 0
    · simp [modexpResult_of_neg d x h hy, ErrCode.code]
    · simp [modexpResult_of_nonneg d x h hy]
  case modsqrt n p =>
    obtain h | ⟨h, hodd⟩ : (s.x p < 3 ∨ s.x p % 2 = 0) ∨ 3 ≤ s.x p ∧ s.x p % 2 = 1 := by omega
    · simp [modsqrtResult_of_bad d n h, ErrCode.code]
    · rw [modsqrtResult_of_odd d n h hodd]
      cases sqrtMod (s.x n) (s.x p) <;> simp [ErrCode.code]
  case montmul a b m =>
    obtain h | ⟨h, hodd⟩ : (s.x m ≤ 0 ∨ s.x m % 2 = 0) ∨ 0 < s.x m ∧ s.x m % 2 = 1 := by omega
    · simp [montmulResult_of_bad d a b h, ErrCode.code]
    · simp [montmulResult_of_odd d a b h hodd]
  case modmul a b m =>
    obtain h | h := le_or_gt (s.x m) 0
    · simp [modmulResult_of_nonpos d a b h, ErrCode.code]
    · simp [modmulResult_of_pos d a b h]

/-- R282: the rows of the commands that use the curve, once the check of R201 is passed. -/
theorem code_resultOf_of_groupOk {i : Instr} (hn : i ≠ .nop) (hi : integerDest i = none) {s : State}
    (h : s.curve.values.groupOk = true) : (resultOf i s).code ∈ errorCodes i := by
  cases i <;> cases hi <;> simp only [resultOf, errorCodes]
  case nop => exact absurd rfl hn
  case padd d a b =>
    rw [paddResult_of_groupOk d a b h]
    exact code_pointResult_mem (by decide) (by decide) _ _ _
  case pdbl d a =>
    rw [pdblResult_of_groupOk d a h]
    exact code_pointResult_mem (by decide) (by decide) _ _ _
  case pmul d k a =>
    obtain hk | hk := lt_or_ge (s.x k) 0
    · simp [pmulResult_of_neg d a h hk, ErrCode.code]
    · rw [pmulResult_of_nonneg d a h hk]
      exact code_pointResult_mem (by decide) (by decide) _ _ _
  case oncurve a =>
    obtain hr | hr := oncurveResult_cases a s
    · simp [hr, ErrCode.code]
    · simp [hr]
  case ecdsav q r sg =>
    by_cases hok : s.ecdsaOk = true
    · obtain hrange | ⟨hr, hs⟩ : (s.x r < 1 ∨ s.x sg < 1) ∨ 1 ≤ s.x r ∧ 1 ≤ s.x sg := by omega
      · simp [ecdsavResult_of_bad_range q hok hrange, ErrCode.code]
      · simp [ecdsavResult_of_checked q hok hr hs]
    · simp [ecdsavResult_of_not_ecdsaOk q r sg hok, ErrCode.code]

/-- R201, R282: the row of each command that uses the curve has BAD_CURVE. -/
theorem badCurve_code_mem_errorCodes {i : Instr} (hn : i ≠ .nop) (hi : integerDest i = none) :
    ErrCode.badCurve.code ∈ errorCodes i := by
  cases i <;> cases hi
  case nop => exact absurd rfl hn
  all_goals simp [errorCodes, ErrCode.code]

/-- R282: the outcome of every command has a code of its row. -/
theorem code_resultOf (i : Instr) (s : State) : (resultOf i s).code ∈ errorCodes i := by
  cases hi : integerDest i with
  | some d => exact code_resultOf_integer hi s
  | none =>
    by_cases hn : i = .nop
    · subst hn
      simp [resultOf, nopResult, errorCodes]
    cases h : s.curve.values.groupOk with
    | true => exact code_resultOf_of_groupOk hn hi h
    | false =>
      rw [resultOf_not_groupOk h hn hi]
      exact badCurve_code_mem_errorCodes hn hi

/-- Settles O18: ERRCODE is the code of the outcome that the command commits. -/
theorem errorCodesPerCommand : Obligations.ErrorCodesPerCommand := by
  intro i s t h
  obtain rfl := exec_next h
  rw [commit_errcode]
  exact code_resultOf i s

end Sys2Proof.Machine
end

section
/-! SUPPORT. Reset and hazards (spec/70_reset_and_hazards.md): what stops a command in flight and what does not. -/

namespace Sys2Proof.Machine

/-- Settles O10: the step of a reset is the state of R51 whatever it finds, and what an access to a busy block reaches leaves the
engine's pending word alone. -/
theorem resetAbandonsCommand : Obligations.ResetAbandonsCommand := by
  refine ⟨fun s rest hs => ⟨_, step_of_reset hs, rfl, rfl, rfl, rfl⟩, fun s v a rest hb hs => ?_⟩
  obtain ⟨t, hst, -, same⟩ := step_host_busy hb hs
  exact ⟨t, hst, same.engine.trans hb⟩

end Sys2Proof.Machine
end
